-- ==== Sys2Proof/Word.lean ====
section
/-! DEFINITION. The word types of the engine: bytes, command words and byte sequences (00_scope.md R8 to R10). -/

namespace Sys2Proof

/-- One octet, the unit of both data spaces (20_memory.md R41). -/
abbrev Byte := BitVec 8

/-- A 32-bit command word, and the width of `RESULT` (30_encoding.md R56, 10_state.md R18). -/
abbrev Word := BitVec 32

/-- A byte sequence: a finite list of 8-bit values, byte 0 first (00_scope.md R9). -/
abbrev ByteSeq := List Byte

end Sys2Proof
end

