-- ==== Sys2Proof/Machine/Bytes.lean ====
section
/-! DEFINITION. Byte sequences and the conversions between bytes and numbers (00_scope.md R9, R11; 20_memory.md R45, R46). -/

namespace Sys2Proof.Machine

/-- `rep(v, n)` (R9). -/
def rep (v : Byte) (n : Nat) : ByteSeq := List.replicate n v

/-- `s ⊕ t`, bytewise (R9). -/
def xorBytes (s t : ByteSeq) : ByteSeq := List.zipWith (· ^^^ ·) s t

/-- `be_N(s)` as a number: `s[0]` is the most significant byte (R11). -/
def beNat (s : ByteSeq) : Nat := s.foldl (fun a x => 256 * a + x.toNat) 0

/-- `be_64(s)` for 8 bytes (R11, R46). -/
def be64 (s : ByteSeq) : BitVec 64 := BitVec.ofNat 64 (beNat s)

/-- `bytes_be(v, 8)`: the 8 bytes of `v`, most significant first (R11). -/
def bytesBe64 (v : BitVec 64) : ByteSeq := (List.range 8).map (fun i => v.extractLsb' (8 * (7 - i)) 8)

/-- `le32(s)` for 4 bytes: `s[0] + 2^8·s[1] + 2^16·s[2] + 2^24·s[3]` (R11). -/
def le32 (s : ByteSeq) : BitVec 32 := BitVec.ofNat 32 (s.foldr (fun x a => x.toNat + 256 * a) 0)

/-- `segments` with a bound on their number. -/
def segmentsUpTo (b : Nat) : Nat → ByteSeq → List ByteSeq
  | 0, _ => []
  | _ + 1, [] => []
  | n + 1, x :: xs => (x :: xs).take b :: segmentsUpTo b n ((x :: xs).drop b)

/-- The segments `s[0..b), s[b..2b), …` of `s` in index order, the last one shorter when `b` does not divide the length
(R45, 45_modes.md R157). When `b` divides the length they are `blocks(s, b)` (R9). -/
def segments (b : Nat) (s : ByteSeq) : List ByteSeq := segmentsUpTo b s.length s

end Sys2Proof.Machine
end

