-- ==== Sys2Proof/Syntax.lean ====
section
/-! DEFINITION. The select codes and the 27 commands of the opcode map (30_encoding.md R60 to R62, R66). -/

namespace Sys2Proof

/-- The cipher variants (R60). The codes 4..15 never occur (10_state.md R21). -/
inductive CipherSel where
  | des
  | tdes
  | feistel6
  | frog
deriving DecidableEq, Repr

/-- The padding schemes (R61). Code 0, "none", is the absence of one: `Option PadScheme`. -/
inductive PadScheme where
  | pkcs7
  | ansi
  | random
  | zero
deriving DecidableEq, Repr

/-- The padding-required modes (45_modes.md R145). -/
inductive PaddedMode where
  | ecb
  | cbc
  | pcbc
  | rdelta
deriving DecidableEq, Repr

/-- The stream modes (45_modes.md R145). -/
inductive StreamMode where
  | cfb
  | ofb
  | ctr
deriving DecidableEq, Repr

/-- The modes (R62), in the two classes of 45_modes.md R145. -/
inductive ModeSel where
  | padded (m : PaddedMode)
  | stream (m : StreamMode)
deriving DecidableEq, Repr

/-- One constructor per row of the opcode map (R66). `bs` is the block size that `IMM` gives (R58); `pad` is the scheme
that `AUX` gives, `none` for code 0 (R61). The operand byte sequence travels beside the word (R56) and is not part of it. -/
inductive Instr where
  | softReset
  | getConfig
  | loadKeyDes
  | loadKeyTdes
  | loadKeyFeistel6
  | loadKeyFrog
  | getBlockSize
  | getKeySize
  | encryptBlock
  | decryptBlock
  | padAddPkcs7 (bs : Nat)
  | padAddAnsi (bs : Nat)
  | padAddRandom (bs : Nat)
  | padAddZero (bs : Nat)
  | padRemovePkcs7 (bs : Nat)
  | padRemoveAnsi (bs : Nat)
  | padRemoveRandom (bs : Nat)
  | padRemoveZero (bs : Nat)
  | modeConfigEcb (pad : Option PadScheme)
  | modeConfigCbc (pad : Option PadScheme)
  | modeConfigCfb (pad : Option PadScheme)
  | modeConfigOfb (pad : Option PadScheme)
  | modeConfigCtr (pad : Option PadScheme)
  | modeConfigPcbc (pad : Option PadScheme)
  | modeConfigRdelta (pad : Option PadScheme)
  | modeEncrypt
  | modeDecrypt
deriving DecidableEq, Repr

end Sys2Proof
end

