-- ==== Sys2Proof/Machine/State.lean ====
section
/-! DEFINITION. The engine's state as plain data, the reasons a step can stop (none), and the state after reset
(10_state.md; 70_reset_and_hazards.md R173). -/

namespace Sys2Proof.Machine

/-- The status codes the engine writes (60_exceptions.md R163). The reserved codes 6..15 are never written (log 8). -/
inductive Status where
  | ok
  | invalidArgument
  | invalidSize
  | invalidPadding
  | illegalCommand
  | notConfigured
deriving DecidableEq, Repr

/-- One DES schedule: the subkeys `K[1..16]`, 48 bits each; entry `i` holds `K[i+1]` (10_state.md R23). -/
abbrev DesSchedule := Vector (BitVec 48) 16

/-- One FROG round-key record (10_state.md R24). -/
structure FrogRecord where
  /-- `XV`, the XOR vector -/
  xv : Vector Byte 16
  /-- `ST`, the substitution table -/
  st : Vector Byte 256
  /-- `MV`, the mixing vector, stored and never read (43_frog.md R130) -/
  mv : Vector Byte 16
deriving DecidableEq, Repr

/-- A FROG round-key file: 8 records (10_state.md R24, R25). -/
abbrev FrogFile := Vector FrogRecord 8

/-- The cipher context, registers 3 to 8 (10_state.md R20 to R25, R37). -/
structure CipherContext where
  /-- `C_VALID` -/
  valid : Bool
  /-- `C_SEL` -/
  sel : CipherSel
  /-- `C_KEY` -/
  key : List Byte
  /-- `DES_KS[0..5]` -/
  desKs : Vector DesSchedule 6
  /-- `FROG_RK[0..7]` -/
  frogRk : FrogFile
  /-- `FROG_IRK[0..7]` -/
  frogIrk : FrogFile
deriving DecidableEq, Repr

/-- The mode context, registers 9 to 14 (10_state.md R27 to R32, R37). -/
structure ModeContext where
  /-- `M_VALID` -/
  valid : Bool
  /-- `M_SEL` -/
  sel : ModeSel
  /-- `M_PAD`; `none` is code 0 -/
  pad : Option PadScheme
  /-- `M_IV`, the IV template -/
  iv : List Byte
  /-- `M_SEED`, the RDELTA seed -/
  seed : BitVec 32
  /-- `M_CIPHER`, the mode's own copy of a cipher context -/
  cipher : CipherContext
deriving DecidableEq, Repr

/-- A command as the host issues it: the command word with its operand byte sequence (30_encoding.md R56). -/
structure Command where
  word : Word
  operand : List Byte
deriving DecidableEq, Repr

/-- The state of the engine and of the two agents that act on it. -/
structure State where
  /-- `STATUS` (10_state.md R17) -/
  status : Status
  /-- `RESULT` (10_state.md R18) -/
  result : BitVec 32
  /-- `OUT`, the output space (10_state.md R19, 20_memory.md R41) -/
  out : List Byte
  /-- the cipher context -/
  cipher : CipherContext
  /-- the mode context -/
  mode : ModeContext
  /-- `A`, the operand space: the operand of the command last accepted. The engine never writes it (20_memory.md R41, R44) -/
  operand : List Byte
  /-- the commands the host has issued and the engine has not accepted, oldest first (10_state.md R16; log 1) -/
  pending : List Command
  /-- how many bytes of the entropy source have been drawn: the model's own counter of a free value (log 6) -/
  entropyPos : Nat
deriving DecidableEq, Repr

/-- Nothing stops the engine: a failed command ends with a status and the next one runs (60_exceptions.md R167, R168).
There is no fault. -/
inductive Fault where
deriving DecidableEq, Repr

/-- The reasons a command is refused. -/
inductive Refusal where
  /-- an instruction whose meaning is not written yet, raised by `exec` alone; safe. No arm raises it. -/
  | notModelled (mnemonic : String)
deriving DecidableEq, Repr

/-- The outcome of a step. -/
abbrev Out := Host.Outcome State Fault Refusal

/-- A FROG record as reset leaves it: `XV` and `MV` zero, `ST` the identity permutation.
DESIGN CHOICE (log 2; unsafe): the spec leaves the value unspecified (R173), and says `ST` is always a permutation (R24). -/
def FrogRecord.reset : FrogRecord :=
  { xv := Vector.replicate 16 0
    st := Vector.ofFn (fun i => BitVec.ofNat 8 i.val)
    mv := Vector.replicate 16 0 }

/-- The cipher context as reset leaves it (R173). The round-key files are a DESIGN CHOICE (log 2; unsafe). -/
def CipherContext.reset : CipherContext :=
  { valid := false
    sel := .des
    key := []
    desKs := Vector.replicate 6 (Vector.replicate 16 0)
    frogRk := Vector.replicate 8 FrogRecord.reset
    frogIrk := Vector.replicate 8 FrogRecord.reset }

/-- The mode context as reset leaves it (R173). `M_CIPHER` is a DESIGN CHOICE (log 2; unsafe). -/
def ModeContext.reset : ModeContext :=
  { valid := false
    sel := .padded .ecb
    pad := none
    iv := []
    seed := 0
    cipher := CipherContext.reset }

/-- The machine right after reset (R173, R174): every register at its reset value, no command issued yet. The values of
`operand`, `pending` and `entropyPos` are the model's own (logs 1 and 6). -/
def State.reset : State :=
  { status := .ok
    result := 0
    out := []
    cipher := CipherContext.reset
    mode := ModeContext.reset
    operand := []
    pending := []
    entropyPos := 0 }

end Sys2Proof.Machine
end

