-- ==== Sys2Proof/Machine/Des.lean ====
section
/-! DEFINITION. The DES core: permutation tables, substitution boxes, key schedule, round datapath and block transforms
(41_des.md R88 to R107). -/

namespace Sys2Proof.Machine

/-! ### Permutations (R90 to R94, R97, R98) -/

/-- `fbit(v, n, i)`: bit `i` of `v` in FIPS numbering, bit 1 the most significant (00_scope.md R10). -/
def fbit {n : Nat} (v : BitVec n) (i : Nat) : Bool := v.getMsbD (i - 1)

/-- The `m`-bit value with the bits `bs`, the most significant first. -/
def ofBits (m : Nat) (bs : List Bool) : BitVec m := BitVec.ofNat m (bs.foldl (fun a b => 2 * a + b.toNat) 0)

/-- `Perm(v, T, n)`: FIPS bit `i` of the `m`-bit result is FIPS bit `T[i]` of `v` (R90). -/
def permute {n : Nat} (m : Nat) (table : List Nat) (v : BitVec n) : BitVec m := ofBits m (table.map (fbit v))

/-- IP, the initial permutation, 64 → 64 bits (R91). -/
def tableIP : List Nat :=
  [ 58, 50, 42, 34, 26, 18, 10, 2,
    60, 52, 44, 36, 28, 20, 12, 4,
    62, 54, 46, 38, 30, 22, 14, 6,
    64, 56, 48, 40, 32, 24, 16, 8,
    57, 49, 41, 33, 25, 17, 9, 1,
    59, 51, 43, 35, 27, 19, 11, 3,
    61, 53, 45, 37, 29, 21, 13, 5,
    63, 55, 47, 39, 31, 23, 15, 7 ]

/-- FP, the final permutation, 64 → 64 bits (R92). -/
def tableFP : List Nat :=
  [ 40, 8, 48, 16, 56, 24, 64, 32,
    39, 7, 47, 15, 55, 23, 63, 31,
    38, 6, 46, 14, 54, 22, 62, 30,
    37, 5, 45, 13, 53, 21, 61, 29,
    36, 4, 44, 12, 52, 20, 60, 28,
    35, 3, 43, 11, 51, 19, 59, 27,
    34, 2, 42, 10, 50, 18, 58, 26,
    33, 1, 41, 9, 49, 17, 57, 25 ]

/-- E, the expansion, 32 → 48 bits (R93). -/
def tableE : List Nat :=
  [ 32, 1, 2, 3, 4, 5,
    4, 5, 6, 7, 8, 9,
    8, 9, 10, 11, 12, 13,
    12, 13, 14, 15, 16, 17,
    16, 17, 18, 19, 20, 21,
    20, 21, 22, 23, 24, 25,
    24, 25, 26, 27, 28, 29,
    28, 29, 30, 31, 32, 1 ]

/-- P, the round permutation, 32 → 32 bits (R94). -/
def tableP : List Nat :=
  [ 16, 7, 20, 21, 29, 12, 28, 17,
    1, 15, 23, 26, 5, 18, 31, 10,
    2, 8, 24, 14, 32, 27, 3, 9,
    19, 13, 30, 6, 22, 11, 4, 25 ]

/-- PC1, the 56-bit selection, 64 → 56 bits (R97). -/
def tablePC1 : List Nat :=
  [ 57, 49, 41, 33, 25, 17, 9,
    1, 58, 50, 42, 34, 26, 18,
    10, 2, 59, 51, 43, 35, 27,
    19, 11, 3, 60, 52, 44, 36,
    63, 55, 47, 39, 31, 23, 15,
    7, 62, 54, 46, 38, 30, 22,
    14, 6, 61, 53, 45, 37, 29,
    21, 13, 5, 28, 20, 12, 4 ]

/-- PC2, the subkey compression, 56 → 48 bits (R98). -/
def tablePC2 : List Nat :=
  [ 14, 17, 11, 24, 1, 5,
    3, 28, 15, 6, 21, 10,
    23, 19, 12, 4, 26, 8,
    16, 7, 27, 20, 13, 2,
    41, 52, 31, 37, 47, 55,
    30, 40, 51, 45, 33, 48,
    44, 49, 39, 56, 34, 53,
    46, 42, 50, 36, 29, 32 ]

/-! ### Substitution boxes (R95, R96) -/

/-- A substitution box: 4 rows of 16 columns. -/
abbrev SBox := Vector (Vector (BitVec 4) 16) 4

/-- S1 (R95), row by row. -/
def boxS1 : SBox :=
  #v[ #v[14, 4, 13, 1, 2, 15, 11, 8, 3, 10, 6, 12, 5, 9, 0, 7],
     #v[0, 15, 7, 4, 14, 2, 13, 1, 10, 6, 12, 11, 9, 5, 3, 8],
     #v[4, 1, 14, 8, 13, 6, 2, 11, 15, 12, 9, 7, 3, 10, 5, 0],
     #v[15, 12, 8, 2, 4, 9, 1, 7, 5, 11, 3, 14, 10, 0, 6, 13] ]

/-- S2 (R95), row by row. -/
def boxS2 : SBox :=
  #v[ #v[15, 1, 8, 14, 6, 11, 3, 4, 9, 7, 2, 13, 12, 0, 5, 10],
     #v[3, 13, 4, 7, 15, 2, 8, 14, 12, 0, 1, 10, 6, 9, 11, 5],
     #v[0, 14, 7, 11, 10, 4, 13, 1, 5, 8, 12, 6, 9, 3, 2, 15],
     #v[13, 8, 10, 1, 3, 15, 4, 2, 11, 6, 7, 12, 0, 5, 14, 9] ]

/-- S3 (R95), row by row. -/
def boxS3 : SBox :=
  #v[ #v[10, 0, 9, 14, 6, 3, 15, 5, 1, 13, 12, 7, 11, 4, 2, 8],
     #v[13, 7, 0, 9, 3, 4, 6, 10, 2, 8, 5, 14, 12, 11, 15, 1],
     #v[13, 6, 4, 9, 8, 15, 3, 0, 11, 1, 2, 12, 5, 10, 14, 7],
     #v[1, 10, 13, 0, 6, 9, 8, 7, 4, 15, 14, 3, 11, 5, 2, 12] ]

/-- S4 (R95), row by row. -/
def boxS4 : SBox :=
  #v[ #v[7, 13, 14, 3, 0, 6, 9, 10, 1, 2, 8, 5, 11, 12, 4, 15],
     #v[13, 8, 11, 5, 6, 15, 0, 3, 4, 7, 2, 12, 1, 10, 14, 9],
     #v[10, 6, 9, 0, 12, 11, 7, 13, 15, 1, 3, 14, 5, 2, 8, 4],
     #v[3, 15, 0, 6, 10, 1, 13, 8, 9, 4, 5, 11, 12, 7, 2, 14] ]

/-- S5 (R95), row by row. -/
def boxS5 : SBox :=
  #v[ #v[2, 12, 4, 1, 7, 10, 11, 6, 8, 5, 3, 15, 13, 0, 14, 9],
     #v[14, 11, 2, 12, 4, 7, 13, 1, 5, 0, 15, 10, 3, 9, 8, 6],
     #v[4, 2, 1, 11, 10, 13, 7, 8, 15, 9, 12, 5, 6, 3, 0, 14],
     #v[11, 8, 12, 7, 1, 14, 2, 13, 6, 15, 0, 9, 10, 4, 5, 3] ]

/-- S6 (R95), row by row. -/
def boxS6 : SBox :=
  #v[ #v[12, 1, 10, 15, 9, 2, 6, 8, 0, 13, 3, 4, 14, 7, 5, 11],
     #v[10, 15, 4, 2, 7, 12, 9, 5, 6, 1, 13, 14, 0, 11, 3, 8],
     #v[9, 14, 15, 5, 2, 8, 12, 3, 7, 0, 4, 10, 1, 13, 11, 6],
     #v[4, 3, 2, 12, 9, 5, 15, 10, 11, 14, 1, 7, 6, 0, 8, 13] ]

/-- S7 (R95), row by row. -/
def boxS7 : SBox :=
  #v[ #v[4, 11, 2, 14, 15, 0, 8, 13, 3, 12, 9, 7, 5, 10, 6, 1],
     #v[13, 0, 11, 7, 4, 9, 1, 10, 14, 3, 5, 12, 2, 15, 8, 6],
     #v[1, 4, 11, 13, 12, 3, 7, 14, 10, 15, 6, 8, 0, 5, 9, 2],
     #v[6, 11, 13, 8, 1, 4, 10, 7, 9, 5, 0, 15, 14, 2, 3, 12] ]

/-- S8 (R95), row by row. -/
def boxS8 : SBox :=
  #v[ #v[13, 2, 8, 4, 6, 15, 11, 1, 10, 9, 3, 14, 5, 0, 12, 7],
     #v[1, 15, 13, 8, 10, 3, 7, 4, 12, 5, 6, 11, 0, 14, 9, 2],
     #v[7, 11, 4, 1, 9, 12, 14, 2, 0, 6, 10, 13, 15, 3, 5, 8],
     #v[2, 1, 14, 7, 4, 10, 8, 13, 15, 12, 9, 0, 3, 5, 6, 11] ]

/-- One box addressed by a six-bit group: row `{g[5], g[0]}`, column `g[4:1]` (R96). -/
def sboxAt (box : SBox) (g : BitVec 6) : BitVec 4 :=
  let row : BitVec 2 := g.extractLsb' 5 1 ++ g.extractLsb' 0 1
  let col : BitVec 4 := g.extractLsb' 1 4
  (box.get row.toFin).get col.toFin

/-- The six-bit group `g_j = u[47-6(j-1) : 42-6(j-1)]` (R96). -/
def sixBits (u : BitVec 48) (j : Nat) : BitVec 6 := u.extractLsb' (42 - 6 * (j - 1)) 6

/-- `SBoxLayer(u)`: `S1` on the most significant group and at the most significant end (R96). -/
def sboxLayer (u : BitVec 48) : BitVec 32 :=
  (sboxAt boxS1 (sixBits u 1) ++ sboxAt boxS2 (sixBits u 2) ++ sboxAt boxS3 (sixBits u 3) ++ sboxAt boxS4 (sixBits u 4)
    ++ sboxAt boxS5 (sixBits u 5) ++ sboxAt boxS6 (sixBits u 6) ++ sboxAt boxS7 (sixBits u 7) ++ sboxAt boxS8 (sixBits u 8)
    : BitVec (4 + 4 + 4 + 4 + 4 + 4 + 4 + 4))

/-! ### Key schedule (R99, R100) -/

/-- The shift schedule `SH[1..16]` (R99). -/
def shiftSchedule : List Nat := [1, 1, 2, 2, 2, 2, 2, 2, 1, 2, 2, 2, 2, 2, 2, 1]

/-- `rotl28(x, s)` (R99). -/
def rotl28 (x : BitVec 28) (s : Nat) : BitVec 28 := (x <<< s) ||| (x >>> (28 - s))

/-- `{C0, D0} = Perm(k, PC1, 64)`: `C0` is bits 55:28 and `D0` bits 27:0 (R100). -/
def initialHalves (k : BitVec 64) : BitVec 28 × BitVec 28 :=
  let cd := permute 56 tablePC1 k
  (cd.extractLsb' 28 28, cd.extractLsb' 0 28)

/-- `(Ci, Di)`: both halves rotated by `SH[1], …, SH[i]` in turn (R100). -/
def keyHalves (k : BitVec 64) (i : Nat) : BitVec 28 × BitVec 28 :=
  (shiftSchedule.take i).foldl (fun cd s => (rotl28 cd.1 s, rotl28 cd.2 s)) (initialHalves k)

/-- The subkey `K[i] = Perm({Ci, Di}, PC2, 56)` (R100). -/
def subkey (k : BitVec 64) (i : Nat) : BitVec 48 :=
  let cd := keyHalves k i
  permute 48 tablePC2 (cd.1 ++ cd.2 : BitVec (28 + 28))

/-- `DES_KeySchedule(key)` (R100); entry `i` is `K[i+1]`. No parity check and no weak-key check is made. -/
def desKeySchedule (key : ByteSeq) : DesSchedule := Vector.ofFn (fun i => subkey (be64 key) (i.val + 1))

/-! ### Round function and datapath (R101 to R105) -/

/-- The round function `f(R, K)` (R101). -/
def desF (r : BitVec 32) (k : BitVec 48) : BitVec 32 := permute 32 tableP (sboxLayer (permute 48 tableE r ^^^ k))

/-- The Feistel round step `(L, R) -> (R, L ⊕ f(R, K))` (R102). -/
def desRound (lr : BitVec 32 × BitVec 32) (k : BitVec 48) : BitVec 32 × BitVec 32 := (lr.2, lr.1 ^^^ desF lr.2 k)

/-- The datapath on a 64-bit block: IP, one round for each subkey of `keys`, the swap of the halves, FP (R103, R105). -/
def desDatapath (keys : List (BitVec 48)) (x : BitVec 64) : BitVec 64 :=
  let v := permute 64 tableIP x
  let lr := keys.foldl desRound (v.extractLsb' 32 32, v.extractLsb' 0 32)
  permute 64 tableFP (lr.2 ++ lr.1 : BitVec (32 + 32))

/-- `DES_Core(ks, x, order)`: the datapath with the subkeys in the order `order` (R103); index `n` stands for `K[n+1]`. -/
def desCore (ks : DesSchedule) (x : ByteSeq) (order : List (Fin 16)) : ByteSeq :=
  bytesBe64 (desDatapath (order.map ks.get) (be64 x))

/-- `DES_Encrypt(ks, x) = DES_Core(ks, x, [1, 2, …, 16])` (R106). -/
def desEncrypt (ks : DesSchedule) (x : ByteSeq) : ByteSeq := desCore ks x (List.finRange 16)

/-- `DES_Decrypt(ks, x) = DES_Core(ks, x, [16, 15, …, 1])` (R107). -/
def desDecrypt (ks : DesSchedule) (x : ByteSeq) : ByteSeq := desCore ks x (List.finRange 16).reverse

end Sys2Proof.Machine
end

