-- ==== Sys2Proof/Machine/Composite.lean ====
section
/-! DEFINITION. The composite ciphers, sequencers over the DES core: TripleDES and FEISTEL6 (42_composite.md R111 to R117). -/

namespace Sys2Proof.Machine

/-- The subkey file `DES_KS[0..5]` (10_state.md R23). -/
abbrev DesFile := Vector DesSchedule 6

/-- `TDES_KeySchedule(key)` written into schedules 0, 1 and 2 of the file (R111, 40_interface.md R77). -/
def tdesKeySchedule (key : ByteSeq) (ks : DesFile) : DesFile :=
  ((ks.set 0 (desKeySchedule (key.take 8))).set 1 (desKeySchedule ((key.drop 8).take 8))).set 2
    (desKeySchedule ((key.drop 16).take 8))

/-- `TDES_Encrypt(ks, x)`: encrypt, decrypt, encrypt (R112). -/
def tdesEncrypt (ks : DesFile) (x : ByteSeq) : ByteSeq :=
  desEncrypt (ks.get 2) (desDecrypt (ks.get 1) (desEncrypt (ks.get 0) x))

/-- `TDES_Decrypt(ks, x)`: the mirrored order (R113). -/
def tdesDecrypt (ks : DesFile) (x : ByteSeq) : ByteSeq :=
  desDecrypt (ks.get 0) (desEncrypt (ks.get 1) (desDecrypt (ks.get 2) x))

/-- `F6_KeySchedule(key)`: schedule `r` from the first half of the key when `r` is even, from the second when `r` is odd
(R115). -/
def f6KeySchedule (key : ByteSeq) : DesFile :=
  Vector.ofFn (fun r => desKeySchedule (if r.val % 2 = 0 then key.take 8 else (key.drop 8).take 8))

/-- The Feistel step over 8-byte halves: `(L, R) <- (R, L ⊕ DES_Encrypt(ks_r, R))` (R116). -/
def f6Round (lr : ByteSeq × ByteSeq) (ks : DesSchedule) : ByteSeq × ByteSeq := (lr.2, xorBytes lr.1 (desEncrypt ks lr.2))

/-- The rounds with the schedules `kss` in turn, and the final half-swap `R ‖ L` (R116, R117). -/
def f6Datapath (kss : List DesSchedule) (x : ByteSeq) : ByteSeq :=
  let lr := kss.foldl f6Round (x.take 8, x.drop 8)
  lr.2 ++ lr.1

/-- `F6_Encrypt(ks, x)`: rounds 0..5 (R116). -/
def f6Encrypt (ks : DesFile) (x : ByteSeq) : ByteSeq := f6Datapath ((List.finRange 6).map ks.get) x

/-- `F6_Decrypt(ks, x)`: the identical round function with the round index reversed, 5..0 (R117). -/
def f6Decrypt (ks : DesFile) (x : ByteSeq) : ByteSeq := f6Datapath ((List.finRange 6).reverse.map ks.get) x

end Sys2Proof.Machine
end

