-- ==== Sys2Proof/Config.lean ====
section
/-! DEFINITION. What an implementation fixes and the spec leaves open (00_scope.md R6; 92_eei_decisions.md, "Parameters
left open"): opaque constants, so that no proof can use a value of theirs. The sizes the spec fixes stand in
Machine/Operands.lean. -/

namespace Sys2Proof.Config

/-- How far the implementation's `MAX_LEN` exceeds the guaranteed minimum. Free (log 3). -/
opaque maxLenExtra : Nat

/-- `MAX_LEN`, the largest operand or output length in bytes: any natural number of at least 2^16 (R6, R42; log 3). -/
def maxLen : Nat := maxLenExtra + 65536

/-- `FROG_EXPAND`: byte `i` of the 2304-byte buffer expanded from a key. Any function of the key (43_frog.md R120; log 4). -/
opaque frogExpand : ByteSeq → Nat → Byte

/-- `DELTA_STREAM`: byte `j` of the stream of a 32-bit seed. Any function (45_modes.md R155; log 5). -/
opaque deltaStream : BitVec 32 → Nat → Byte

/-- `ENTROPY`: the bytes the entropy source answers, in the order in which they are drawn. Free (44_padding.md R134; log 6). -/
opaque entropy : Nat → Byte

/-- The value of `RESULT` for a length that its 32 bits cannot hold. Free (10_state.md R18 states none; log 7). -/
opaque oversizeLength : Nat → Word

end Sys2Proof.Config
end

