-- ==== Sys2Proof/Machine/Frog.lean ====
section
/-! DEFINITION. The FROG core: key schedule, diffusion and block transforms (43_frog.md R119 to R130). The schedule is a
function of the expanded buffer, so that everything but the open `FROG_EXPAND` can be evaluated and tested. -/

namespace Sys2Proof.Machine

/-! ### Key schedule (R120 to R125) -/

/-- Every byte value in rising order. -/
def allBytes : List Byte := (List.range 256).map (BitVec.ofNat 8)

/-- `min({0..255} \ used)`; every caller has a value left (R124). -/
def lowestUnused (used : List Byte) : Byte := (allBytes.find? (fun v => !used.contains v)).getD 0

/-- The scan of `MakePerm`: a value already used is replaced by the lowest one not used so far (R124). -/
def makePermFrom (used : List Byte) : ByteSeq → ByteSeq
  | [] => []
  | v :: rest =>
    let t := if used.contains v then lowestUnused used else v
    t :: makePermFrom (t :: used) rest

theorem makePermFrom_length (used : List Byte) (s : ByteSeq) : (makePermFrom used s).length = s.length := by
  induction s generalizing used with
  | nil => rfl
  | cons v rest ih => simp [makePermFrom, ih]

/-- `MakePerm(s)` for a 256-byte sequence (R124). -/
def makePerm (s : Vector Byte 256) : Vector Byte 256 :=
  ⟨(makePermFrom [] s.toList).toArray, by simp [makePermFrom_length]⟩

/-- `Invert(T)`: the table `U` with `U[T[i]] = i` (R125). -/
def invertTable (t : Vector Byte 256) : Vector Byte 256 :=
  Vector.ofFn (fun v => BitVec.ofNat 8 (t.toList.idxOf (BitVec.ofNat 8 v.val)))

/-- The expanded key buffer, `FROG_EXPAND(key)` (R120; log 4). -/
def frogBuffer (key : ByteSeq) : Nat → Byte := Config.frogExpand key

/-- `RK[r]` from the buffer `B`: 16 bytes of `XV`, 256 bytes made into the permutation `ST`, 16 bytes of `MV` (R121). -/
def frogRecord (buf : Nat → Byte) (r : Fin 8) : FrogRecord :=
  { xv := Vector.ofFn (fun i => buf (288 * r.val + i.val))
    st := makePerm (Vector.ofFn (fun i => buf (288 * r.val + 16 + i.val)))
    mv := Vector.ofFn (fun i => buf (288 * r.val + 272 + i.val)) }

/-- The forward round-key records (R121). -/
def frogForward (buf : Nat → Byte) : FrogFile := Vector.ofFn (frogRecord buf)

/-- `IRK[r]` from `RK[7-r]`: the table inverted, `XV` and `MV` carried unchanged (R122). -/
def invertRecord (k : FrogRecord) : FrogRecord := { k with st := invertTable k.st }

/-- The inverse round-key records: the round order reversed (R122). -/
def frogInverse (rk : FrogFile) : FrogFile := Vector.ofFn (fun r => invertRecord (rk.get r.rev))

/-! ### Round datapath (R126 to R128) -/

/-- The loop of `Diffuse`: each byte absorbs its predecessor's updated value `p` (R126). -/
def absorbFrom (p : Byte) : ByteSeq → ByteSeq
  | [] => []
  | x :: rest => (x ^^^ p) :: absorbFrom (x ^^^ p) rest

/-- `Diffuse(x)`: the forward pass, then the wraparound of the last byte into the first (R126). -/
def diffuse : ByteSeq → ByteSeq
  | [] => []
  | x :: rest =>
    let ys := absorbFrom x rest
    (x ^^^ (x :: ys).getLast (by simp)) :: ys

/-- `Undiffuse(x)`: the wraparound removed, then from the top down each byte XORed with its predecessor, which still holds
its diffused value (R126). -/
def undiffuse : ByteSeq → ByteSeq
  | [] => []
  | x :: rest =>
    let x0 := x ^^^ (x :: rest).getLast (by simp)
    x0 :: List.zipWith (· ^^^ ·) rest (x0 :: rest)

/-- `T[v]` for a byte `v`. -/
def lookup (t : Vector Byte 256) (v : Byte) : Byte := t.get v.toFin

/-- One encryption round: XOR, substitution, diffusion (R127). `MV` is not read (R130). -/
def frogEncRound (x : ByteSeq) (k : FrogRecord) : ByteSeq :=
  diffuse (List.zipWith (fun v key => lookup k.st (v ^^^ key)) x k.xv.toList)

/-- One decryption round: diffusion undone, inverse substitution, XOR (R128). -/
def frogDecRound (x : ByteSeq) (k : FrogRecord) : ByteSeq :=
  List.zipWith (fun v key => lookup k.st v ^^^ key) (undiffuse x) k.xv.toList

/-- `FROG_Encrypt(RK, x)`: 8 rounds with `RK[0..7]` (R127). -/
def frogEncrypt (rk : FrogFile) (x : ByteSeq) : ByteSeq := rk.toList.foldl frogEncRound x

/-- `FROG_Decrypt(IRK, x)`: 8 rounds with `IRK[0..7]` in index order (R128). -/
def frogDecrypt (irk : FrogFile) (x : ByteSeq) : ByteSeq := irk.toList.foldl frogDecRound x

end Sys2Proof.Machine
end

