-- ==== Sys2Proof/WellFormed.lean ====
section
/-! DEFINITION. Which instruction terms a command word can spell (30_encoding.md R57, R58). -/

namespace Sys2Proof

/-- A block size that the 8-bit field `IMM` can hold (R58: "an unsigned value in `0..255`"). 0 is encodable: the command
raises `INVALID_ARGUMENT` when it runs (44_padding.md R141). -/
abbrev immFits (bs : Nat) : Prop := bs ≤ 255

/-- A term some legal command word spells. The only field wider than its encoding is the block size. -/
def Instr.wellFormed : Instr → Bool
  | .softReset => true
  | .getConfig => true
  | .loadKeyDes => true
  | .loadKeyTdes => true
  | .loadKeyFeistel6 => true
  | .loadKeyFrog => true
  | .getBlockSize => true
  | .getKeySize => true
  | .encryptBlock => true
  | .decryptBlock => true
  | .padAddPkcs7 bs => decide (immFits bs)
  | .padAddAnsi bs => decide (immFits bs)
  | .padAddRandom bs => decide (immFits bs)
  | .padAddZero bs => decide (immFits bs)
  | .padRemovePkcs7 bs => decide (immFits bs)
  | .padRemoveAnsi bs => decide (immFits bs)
  | .padRemoveRandom bs => decide (immFits bs)
  | .padRemoveZero bs => decide (immFits bs)
  | .modeConfigEcb _ => true
  | .modeConfigCbc _ => true
  | .modeConfigCfb _ => true
  | .modeConfigOfb _ => true
  | .modeConfigCtr _ => true
  | .modeConfigPcbc _ => true
  | .modeConfigRdelta _ => true
  | .modeEncrypt => true
  | .modeDecrypt => true

end Sys2Proof
end

