-- ==== Sys2Proof/Decode.lean ====
section
/-! DEFINITION. The opcode map (30_encoding.md R66), the decoder (R64), and the encoder after it. -/

namespace Sys2Proof

/-- `CMD[7:0]`, the operation code (R57). -/
def opField (w : Word) : BitVec 8 := w.extractLsb' 0 8

/-- `CMD[11:8]`, the variant select (R57). -/
def selField (w : Word) : BitVec 4 := w.extractLsb' 8 4

/-- `CMD[15:12]`, the padding scheme of MODE_CONFIG (R57). -/
def auxField (w : Word) : BitVec 4 := w.extractLsb' 12 4

/-- `CMD[23:16]`, the block size of PAD_ADD and PAD_REMOVE (R57). -/
def immField (w : Word) : BitVec 8 := w.extractLsb' 16 8

/-- `CMD[31:24]`, reserved (R57). -/
def rsvField (w : Word) : BitVec 8 := w.extractLsb' 24 8

/-- The padding scheme codes (R61): `0` none, `1` PKCS7, `2` ANSI, `3` RANDOM, `4` ZERO. The outer `none` is a reserved
code. -/
def padOfCode (c : BitVec 4) : Option (Option PadScheme) :=
  match c.toNat with
  | 0 => some none
  | 1 => some (some .pkcs7)
  | 2 => some (some .ansi)
  | 3 => some (some .random)
  | 4 => some (some .zero)
  | _ => none

/-- Which field of the word a row leaves free, and the command it names. -/
inductive RowForm where
  /-- no free field -/
  | fixed (i : Instr)
  /-- `IMM` is free: an unsigned block size (R58) -/
  | imm (build : Nat → Instr)
  /-- `AUX` is free, with the values 0..4 (R64 (b)) -/
  | aux (build : Option PadScheme → Instr)

/-- One row of the opcode map: the word matches when `CMD & mask = value`. -/
structure Row where
  value : Word
  mask : Word
  form : RowForm

/-- A row with no free field: every bit of the word is fixed. -/
def fixedRow (value : Word) (i : Instr) : Row := ⟨value, 0xFFFFFFFF#32, .fixed i⟩

/-- A row that leaves `IMM` free. -/
def immRow (value : Word) (build : Nat → Instr) : Row := ⟨value, 0xFF00FFFF#32, .imm build⟩

/-- A row that leaves `AUX` free. -/
def auxRow (value : Word) (build : Option PadScheme → Instr) : Row := ⟨value, 0xFFFF0FFF#32, .aux build⟩

/-- The control and cipher rows of R66. -/
def cipherRows : List Row :=
  [ fixedRow 0x00000001#32 .softReset,
    fixedRow 0x00000002#32 .getConfig,
    fixedRow 0x00000010#32 .loadKeyDes,
    fixedRow 0x00000110#32 .loadKeyTdes,
    fixedRow 0x00000210#32 .loadKeyFeistel6,
    fixedRow 0x00000310#32 .loadKeyFrog,
    fixedRow 0x00000011#32 .getBlockSize,
    fixedRow 0x00000012#32 .getKeySize,
    fixedRow 0x00000013#32 .encryptBlock,
    fixedRow 0x00000014#32 .decryptBlock ]

/-- The padding rows of R66. -/
def padRows : List Row :=
  [ immRow 0x00000120#32 .padAddPkcs7,
    immRow 0x00000220#32 .padAddAnsi,
    immRow 0x00000320#32 .padAddRandom,
    immRow 0x00000420#32 .padAddZero,
    immRow 0x00000121#32 .padRemovePkcs7,
    immRow 0x00000221#32 .padRemoveAnsi,
    immRow 0x00000321#32 .padRemoveRandom,
    immRow 0x00000421#32 .padRemoveZero ]

/-- The mode rows of R66. -/
def modeRows : List Row :=
  [ auxRow 0x00000030#32 .modeConfigEcb,
    auxRow 0x00000130#32 .modeConfigCbc,
    auxRow 0x00000230#32 .modeConfigCfb,
    auxRow 0x00000330#32 .modeConfigOfb,
    auxRow 0x00000430#32 .modeConfigCtr,
    auxRow 0x00000530#32 .modeConfigPcbc,
    auxRow 0x00000630#32 .modeConfigRdelta,
    fixedRow 0x00000031#32 .modeEncrypt,
    fixedRow 0x00000032#32 .modeDecrypt ]

/-- The opcode map of R66. -/
def opcodeMap : List Row := cipherRows ++ padRows ++ modeRows

/-- The row test of R64 (a): `(CMD & mask) = match`. -/
def Row.matches (r : Row) (w : Word) : Bool := (w &&& r.mask) == r.value

/-- Why a word is illegal. The engine reports only `ILLEGAL_COMMAND` (R65), whichever it is. -/
inductive Illegal where
  /-- no row of the opcode map matches: R64 (a) fails -/
  | noRow
  /-- a MODE_CONFIG word with `AUX ≥ 5`: R64 (b) fails -/
  | reservedAux
deriving DecidableEq, Repr

/-- The command a matching row names, its free field read from the word (R58, R64 (b)). -/
def Row.read (r : Row) (w : Word) : Except Illegal Instr :=
  match r.form with
  | .fixed i => .ok i
  | .imm build => .ok (build (immField w).toNat)
  | .aux build =>
    match padOfCode (auxField w) with
    | some p => .ok (build p)
    | none => .error .reservedAux

/-- The decoder: total, every word is legal or illegal (R64). -/
def decode (w : Word) : Except Illegal Instr :=
  match opcodeMap.find? (fun r => r.matches w) with
  | some r => r.read w
  | none => .error .noRow

/-- The code of a padding scheme (R61). -/
def padCode : Option PadScheme → BitVec 4
  | none => 0
  | some .pkcs7 => 1
  | some .ansi => 2
  | some .random => 3
  | some .zero => 4

/-- The code of a cipher variant (R60). -/
def CipherSel.code : CipherSel → BitVec 4
  | .des => 0
  | .tdes => 1
  | .feistel6 => 2
  | .frog => 3

/-- The code of a mode (R62). -/
def ModeSel.code : ModeSel → BitVec 4
  | .padded .ecb => 0
  | .padded .cbc => 1
  | .stream .cfb => 2
  | .stream .ofb => 3
  | .stream .ctr => 4
  | .padded .pcbc => 5
  | .padded .rdelta => 6

/-- A word assembled from its fields (R57), `RSV = 0`. -/
def assemble (op : BitVec 8) (sel aux : BitVec 4) (imm : BitVec 8) : Word :=
  (0#8 ++ imm ++ aux ++ sel ++ op : BitVec (8 + 8 + 4 + 4 + 8))

/-- The word of LOAD_KEY (40_interface.md R77). -/
def encodeLoadKey (c : CipherSel) : Word := assemble 0x10 c.code 0 0

/-- The word of PAD_ADD (44_padding.md R141). -/
def encodePadAdd (p : PadScheme) (bs : Nat) : Word := assemble 0x20 (padCode (some p)) 0 (BitVec.ofNat 8 bs)

/-- The word of PAD_REMOVE (44_padding.md R142). -/
def encodePadRemove (p : PadScheme) (bs : Nat) : Word := assemble 0x21 (padCode (some p)) 0 (BitVec.ofNat 8 bs)

/-- The word of MODE_CONFIG (45_modes.md R144). -/
def encodeModeConfig (m : ModeSel) (pad : Option PadScheme) : Word := assemble 0x30 m.code (padCode pad) 0

/-- The encoder: the word of a well-formed command, from the operation codes of R59 and the select codes of R60 to R62. -/
def encode : Instr → Word
  | .softReset => assemble 0x01 0 0 0
  | .getConfig => assemble 0x02 0 0 0
  | .loadKeyDes => encodeLoadKey .des
  | .loadKeyTdes => encodeLoadKey .tdes
  | .loadKeyFeistel6 => encodeLoadKey .feistel6
  | .loadKeyFrog => encodeLoadKey .frog
  | .getBlockSize => assemble 0x11 0 0 0
  | .getKeySize => assemble 0x12 0 0 0
  | .encryptBlock => assemble 0x13 0 0 0
  | .decryptBlock => assemble 0x14 0 0 0
  | .padAddPkcs7 bs => encodePadAdd .pkcs7 bs
  | .padAddAnsi bs => encodePadAdd .ansi bs
  | .padAddRandom bs => encodePadAdd .random bs
  | .padAddZero bs => encodePadAdd .zero bs
  | .padRemovePkcs7 bs => encodePadRemove .pkcs7 bs
  | .padRemoveAnsi bs => encodePadRemove .ansi bs
  | .padRemoveRandom bs => encodePadRemove .random bs
  | .padRemoveZero bs => encodePadRemove .zero bs
  | .modeConfigEcb pad => encodeModeConfig (.padded .ecb) pad
  | .modeConfigCbc pad => encodeModeConfig (.padded .cbc) pad
  | .modeConfigCfb pad => encodeModeConfig (.stream .cfb) pad
  | .modeConfigOfb pad => encodeModeConfig (.stream .ofb) pad
  | .modeConfigCtr pad => encodeModeConfig (.stream .ctr) pad
  | .modeConfigPcbc pad => encodeModeConfig (.padded .pcbc) pad
  | .modeConfigRdelta pad => encodeModeConfig (.padded .rdelta) pad
  | .modeEncrypt => assemble 0x31 0 0 0
  | .modeDecrypt => assemble 0x32 0 0 0

/-- The command the decoder reads from the `nbits` low bits of `w`, bit 0 the least significant bit of the command word;
every bit above `nbits` is 0. A command word is never longer than 32 bits (R56). -/
def decodeTableWord (nbits w : Nat) : Option Instr :=
  match decode (BitVec.ofNat 32 (w % 2 ^ nbits)) with
  | .ok i => some i
  | .error _ => none

end Sys2Proof
end

