-- ==== Sys2Proof/Machine/Flags.lean ====
section
/-! DEFINITION. The engine's only condition code, `STATUS`, with the information that goes to `RESULT`
(60_exceptions.md R163, R165), the length that a successful command reports, and the configuration word (10_state.md R38). -/

namespace Sys2Proof.Machine

/-- The 4-bit code of a status (R163). -/
def Status.code : Status → BitVec 4
  | .ok => 0
  | .invalidArgument => 1
  | .invalidSize => 2
  | .invalidPadding => 3
  | .illegalCommand => 4
  | .notConfigured => 5

/-- What a command can fail with: one constructor per row of R165. -/
inductive Cause where
  /-- the key length is illegal for the selected cipher -/
  | keyLength
  /-- the block length differs from the block size -/
  | blockLength
  /-- the IV length is wrong -/
  | ivLength
  /-- a padding-required mode has no padding scheme -/
  | noPadding
  /-- PAD_ADD or PAD_REMOVE has block size 0 -/
  | zeroBlockSize
  /-- the ciphertext length is not a multiple of the block size -/
  | misaligned
  /-- the operand or the output would be longer than `MAX_LEN` -/
  | overMaxLen
  /-- padding removal found a malformed length byte or fill; which check failed is not recorded -/
  | badPadding
  /-- the command word is illegal -/
  | illegal (cmd : Word)
  /-- no cipher is loaded -/
  | noCipher
  /-- no mode is configured -/
  | noMode
deriving DecidableEq, Repr

/-- The status a cause is reported with (R163, R165). -/
def Cause.status : Cause → Status
  | .keyLength => .invalidArgument
  | .blockLength => .invalidArgument
  | .ivLength => .invalidArgument
  | .noPadding => .invalidArgument
  | .zeroBlockSize => .invalidArgument
  | .misaligned => .invalidSize
  | .overMaxLen => .invalidSize
  | .badPadding => .invalidPadding
  | .illegal _ => .illegalCommand
  | .noCipher => .notConfigured
  | .noMode => .notConfigured

/-- The information value of a cause (R165). -/
def Cause.info : Cause → Word
  | .keyLength => 1
  | .blockLength => 2
  | .ivLength => 3
  | .noPadding => 4
  | .zeroBlockSize => 5
  | .misaligned => 1
  | .overMaxLen => 2
  | .badPadding => 0
  | .illegal cmd => cmd
  | .noCipher => 1
  | .noMode => 2

/-- A length as `RESULT` reports it (10_state.md R18). A length of 2^32 or more, which needs `MAX_LEN ≥ 2^32`, does not fit
and the spec states no value: a free one (log 7). -/
def lengthWord (n : Nat) : Word := if n < 2 ^ 32 then BitVec.ofNat 32 n else Config.oversizeLength n

/-- A field of the configuration word, 0 while its context is not valid (10_state.md R38). -/
def whenValid (valid : Bool) (v : BitVec 4) : BitVec 4 := if valid then v else 0

/-- The configuration word of GET_CONFIG, from bit 31 down to bit 0 (10_state.md R38). -/
def configWord (s : State) : Word :=
  (0#8 ++ whenValid s.mode.valid s.mode.cipher.sel.code ++ whenValid s.mode.valid (padCode s.mode.pad)
    ++ whenValid s.mode.valid s.mode.sel.code ++ 0#3 ++ BitVec.ofBool s.mode.valid
    ++ whenValid s.cipher.valid s.cipher.sel.code ++ 0#3 ++ BitVec.ofBool s.cipher.valid
    : BitVec (8 + 4 + 4 + 4 + 3 + 1 + 4 + 3 + 1))

end Sys2Proof.Machine
end

