-- ==== Sys2Proof/Machine/Ops.lean ====
section
/-! DEFINITION. How a command begins and ends: accepting the host's next command, the successful end, and the failure of
a command, the engine's only "exception" (10_state.md R16 to R19; 60_exceptions.md R167, R168). There is no return from
one: the next command simply runs (R168). -/

namespace Sys2Proof.Machine

/-- A failed command: `STATUS <- code; RESULT <- info; OUT <- []`, and no other register is written (R167). -/
def raise (c : Cause) (s : State) : State := { s with status := c.status, result := c.info, out := [] }

/-- A command that ends in failure. -/
def fail (c : Cause) (s : State) : Out := .next (raise c s)

/-- A successful command: `return y, r` (00_scope.md R12). -/
def finish (y : ByteSeq) (r : Word) (s : State) : State := { s with status := .ok, result := r, out := y }

/-- A command that ends in success. -/
def succeed (y : ByteSeq) (r : Word) (s : State) : Out := .next (finish y r s)

/-- Whether a length is at most `MAX_LEN` (20_memory.md R42, R43). The guaranteed minimum is compared first, so that a length up
to it is decided without the free excess; `withinMaxLen_iff` says that the answer is that of `n ≤ Config.maxLen`. -/
def withinMaxLen (n : Nat) : Bool := Nat.ble n 65536 || Nat.ble (n - 65536) Config.maxLenExtra

/-- A command that ends with the byte result `y`, having drawn `drawn` bytes of entropy: `return y, len(y)`, unless `y`
is longer than `MAX_LEN` (20_memory.md R43). -/
def succeedBounded (y : ByteSeq) (drawn : Nat) (s : State) : Out :=
  if withinMaxLen y.length then
    succeed y (lengthWord y.length) { s with entropyPos := s.entropyPos + drawn }
  else fail .overMaxLen s

/-- Byte `i` of the next draw from the entropy source (44_padding.md R134; log 6). -/
def entropyDraw (s : State) (i : Nat) : Byte := Config.entropy (s.entropyPos + i)

/-- The engine takes the command `c`, leaving `rest` with the host, and its operand becomes `A` (10_state.md R16,
20_memory.md R41). -/
def accept (c : Command) (rest : List Command) (s : State) : State := { s with operand := c.operand, pending := rest }

/-- Run the command word `w` in the state that accepted it: an illegal word raises `ILLEGAL_COMMAND` before any other
check (30_encoding.md R65), a legal one is run by `run`. -/
def issue (run : Instr → State → Out) (w : Word) (s : State) : Out :=
  match decode w with
  | .ok i => run i s
  | .error _ => fail (.illegal w) s

/-- Put the word `w` before the commands the host has issued, with the empty operand. -/
def stage (w : Word) (s : State) : State := { s with pending := { word := w, operand := [] } :: s.pending }

end Sys2Proof.Machine
end

