-- ==== Sys2Proof/Machine/Operands.lean ====
section
/-! DEFINITION. The operand forms of 30_encoding.md R67 and the checks made on them, and the sizes of the ciphers. Each
`with…` runs a check of 60_exceptions.md R166 and goes on with what it gives. -/

namespace Sys2Proof.Machine

/-- `BlockSize(sel)` in bytes (40_interface.md R82). -/
def blockSize : CipherSel → Nat
  | .des => 8
  | .tdes => 8
  | .feistel6 => 16
  | .frog => 16

/-- `KeySize(sel)` in bytes (40_interface.md R83); the nominal 16 for FROG. -/
def keySize : CipherSel → Nat
  | .des => 8
  | .tdes => 24
  | .feistel6 => 16
  | .frog => 16

/-- `KeyLenOK(sel, n)` (40_interface.md R78). -/
def keyLenOk : CipherSel → Nat → Bool
  | .des, n => n == 8
  | .tdes, n => n == 24
  | .feistel6, n => n == 16
  | .frog, n => decide (5 ≤ n) && decide (n ≤ 125)

/-- A command that reads `A`: an operand longer than `MAX_LEN` fails before any byte is read (20_memory.md R42, R166 step 2).
The commands with no operand ignore `A` whatever its length (R67; log 9). -/
def withOperand (s : State) (k : ByteSeq → Out) : Out :=
  if withinMaxLen s.operand.length then k s.operand else fail .overMaxLen s

/-- A command that needs a loaded cipher (10_state.md R20, R166 step 3). -/
def withCipher (s : State) (k : CipherContext → Out) : Out :=
  if s.cipher.valid then k s.cipher else fail .noCipher s

/-- A command that needs a configured mode (10_state.md R27, R166 step 3). -/
def withMode (s : State) (k : ModeContext → Out) : Out :=
  if s.mode.valid then k s.mode else fail .noMode s

/-- The `IMM` block size of PAD_ADD and PAD_REMOVE: 0 is not legal (30_encoding.md R58, 44_padding.md R141). -/
def withBlockSize (bs : Nat) (s : State) (k : Nat → Out) : Out :=
  if bs = 0 then fail .zeroBlockSize s else k bs

/-- A block operand: exactly `blockSize` bytes (40_interface.md R85). -/
def withBlock (b : Nat) (a : ByteSeq) (s : State) (k : ByteSeq → Out) : Out :=
  if a.length = b then k a else fail .blockLength s

/-- The end of a command whose result may itself be an error: the whole result is computed before any of it is committed
(60_exceptions.md R167). -/
def withResult {α : Type} (r : Except Cause α) (s : State) (k : α → Out) : Out :=
  match r with
  | .ok y => k y
  | .error c => fail c s

end Sys2Proof.Machine
end

