-- ==== Sys2Proof/Machine/Cipher.lean ====
section
/-! DEFINITION. The block-cipher dispatcher and the cipher commands: LOAD_KEY, GET_BLOCK_SIZE, GET_KEY_SIZE, ENCRYPT_BLOCK
and DECRYPT_BLOCK (40_interface.md R77 to R86). -/

namespace Sys2Proof.Machine

/-- `Encrypt(ctx, x)` (R84). -/
def encrypt (c : CipherContext) (x : ByteSeq) : ByteSeq :=
  match c.sel with
  | .des => desEncrypt (c.desKs.get 0) x
  | .tdes => tdesEncrypt c.desKs x
  | .feistel6 => f6Encrypt c.desKs x
  | .frog => frogEncrypt c.frogRk x

/-- `Decrypt(ctx, x)` (R84). -/
def decrypt (c : CipherContext) (x : ByteSeq) : ByteSeq :=
  match c.sel with
  | .des => desDecrypt (c.desKs.get 0) x
  | .tdes => tdesDecrypt c.desKs x
  | .feistel6 => f6Decrypt c.desKs x
  | .frog => frogDecrypt c.frogIrk x

/-- The cipher context a successful LOAD_KEY leaves: the key, the variant and the round keys that it derives. "No material of
the old key survives in `C_*`" (R77, corner cases): the round keys that the variant does not use, which may hold any value
(93_implementation_defined.md I5), take their reset values (log 10). -/
def loadedContext (sel : CipherSel) (key : ByteSeq) : CipherContext :=
  let c := { CipherContext.reset with valid := true, sel := sel, key := key }
  match sel with
  | .des => { c with desKs := c.desKs.set 0 (desKeySchedule key) }
  | .tdes => { c with desKs := tdesKeySchedule key c.desKs }
  | .feistel6 => { c with desKs := f6KeySchedule key }
  | .frog =>
    let rk := frogForward (frogBuffer key)
    { c with frogRk := rk, frogIrk := frogInverse rk }

/-- LOAD_KEY for the variant `sel` (R77 to R79). -/
def loadKey (sel : CipherSel) (s : State) : Out :=
  withOperand s fun a =>
    if keyLenOk sel a.length then succeed [] 0 { s with cipher := loadedContext sel a }
    else fail .keyLength s

/-- LOAD_KEY.DES (R77, 41_des.md R100). -/
def execLoadKeyDes (s : State) : Out := loadKey .des s

/-- LOAD_KEY.TDES (R77, 42_composite.md R111). -/
def execLoadKeyTdes (s : State) : Out := loadKey .tdes s

/-- LOAD_KEY.FEISTEL6 (R77, 42_composite.md R115). -/
def execLoadKeyFeistel6 (s : State) : Out := loadKey .feistel6 s

/-- LOAD_KEY.FROG (R77, 43_frog.md R123). -/
def execLoadKeyFrog (s : State) : Out := loadKey .frog s

/-- GET_BLOCK_SIZE (R81). -/
def execGetBlockSize (s : State) : Out := withCipher s fun c => succeed [] (BitVec.ofNat 32 (blockSize c.sel)) s

/-- GET_KEY_SIZE (R83). -/
def execGetKeySize (s : State) : Out := withCipher s fun c => succeed [] (BitVec.ofNat 32 (keySize c.sel)) s

/-- ENCRYPT_BLOCK and DECRYPT_BLOCK with the transform `f` of the dispatcher (R85, R86). -/
def blockCommand (f : CipherContext → ByteSeq → ByteSeq) (s : State) : Out :=
  withOperand s fun a =>
    withCipher s fun c =>
      withBlock (blockSize c.sel) a s fun x => succeed (f c x) (lengthWord (f c x).length) s

/-- ENCRYPT_BLOCK (R85). -/
def execEncryptBlock (s : State) : Out := blockCommand encrypt s

/-- DECRYPT_BLOCK (R86). -/
def execDecryptBlock (s : State) : Out := blockCommand decrypt s

end Sys2Proof.Machine
end

