-- ==== Sys2Proof/Machine/Control.lean ====
section
/-! DEFINITION. The control commands SOFT_RESET and GET_CONFIG (40_interface.md R76, R80). -/

namespace Sys2Proof.Machine

/-- The registers at their reset values (70_reset_and_hazards.md R173). The host's commands, the operand it supplied and the
entropy source are not registers and stay as they are (log 11). -/
def resetRegisters (s : State) : State :=
  { s with
    status := State.reset.status
    result := State.reset.result
    out := State.reset.out
    cipher := State.reset.cipher
    mode := State.reset.mode }

/-- SOFT_RESET (R76). -/
def execSoftReset (s : State) : Out := succeed [] 0 (resetRegisters s)

/-- GET_CONFIG (R80). -/
def execGetConfig (s : State) : Out := succeed [] (configWord s) s

end Sys2Proof.Machine
end

