-- ==== Sys2Proof/Machine/Padding.lean ====
section
/-! DEFINITION. The padding units and their commands (44_padding.md R131 to R142). -/

namespace Sys2Proof.Machine

/-! ### Add functions (R131 to R135) -/

/-- `N(s, b) = b - (len(s) mod b)` (R131). -/
def padLength (s : ByteSeq) (b : Nat) : Nat := b - s.length % b

/-- `Z(s, b) = (b - (len(s) mod b)) mod b` (R131). -/
def zeroPadLength (s : ByteSeq) (b : Nat) : Nat := (b - s.length % b) % b

/-- `Pad_PKCS7_Add(s, b)` (R132). -/
def padAddPkcs7 (s : ByteSeq) (b : Nat) : ByteSeq := s ++ rep (BitVec.ofNat 8 (padLength s b)) (padLength s b)

/-- `Pad_ANSI_Add(s, b)` (R133). -/
def padAddAnsi (s : ByteSeq) (b : Nat) : ByteSeq := s ++ rep 0 (padLength s b - 1) ++ [BitVec.ofNat 8 (padLength s b)]

/-- `Pad_RANDOM_Add(s, b)`, with `draw` the bytes the entropy source answers (R134). -/
def padAddRandom (draw : Nat → Byte) (s : ByteSeq) (b : Nat) : ByteSeq :=
  s ++ (List.range (padLength s b - 1)).map draw ++ [BitVec.ofNat 8 (padLength s b)]

/-- `Pad_ZERO_Add(s, b)` (R135). -/
def padAddZero (s : ByteSeq) (b : Nat) : ByteSeq := s ++ rep 0 (zeroPadLength s b)

/-- `PadAdd(p, s, b)` (45_modes.md, introduction). -/
def padAddBytes (p : PadScheme) (draw : Nat → Byte) (s : ByteSeq) (b : Nat) : ByteSeq :=
  match p with
  | .pkcs7 => padAddPkcs7 s b
  | .ansi => padAddAnsi s b
  | .random => padAddRandom draw s b
  | .zero => padAddZero s b

/-- How many bytes one padding operation draws: `N - 1` for RANDOM, none otherwise (R134). -/
def bytesDrawn (p : PadScheme) (s : ByteSeq) (b : Nat) : Nat :=
  match p with
  | .pkcs7 => 0
  | .ansi => 0
  | .random => padLength s b - 1
  | .zero => 0

/-! ### Remove functions (R136 to R140) -/

/-- `LenByte(s, b)` (R136). -/
def lenByte (s : ByteSeq) (b : Nat) : Except Cause Nat :=
  match s.getLast? with
  | none => .error .badPadding
  | some x =>
    if x.toNat = 0 ∨ b < x.toNat ∨ s.length < x.toNat then .error .badPadding else .ok x.toNat

/-- The valid length left by a pad of `n` bytes, when the fill it must have is in order. -/
def validLength (s : ByteSeq) (n : Nat) (fillOk : Bool) : Except Cause Nat :=
  if fillOk then .ok (s.length - n) else .error .badPadding

/-- The last `n` bytes of `s`. -/
def lastBytes (s : ByteSeq) (n : Nat) : ByteSeq := s.drop (s.length - n)

/-- `Pad_PKCS7_Remove(s, b)`: every pad byte equals the length byte (R137). -/
def padRemovePkcs7 (s : ByteSeq) (b : Nat) : Except Cause Nat :=
  match lenByte s b with
  | .error c => .error c
  | .ok n => validLength s n ((lastBytes s n).all (fun x => x.toNat == n))

/-- `Pad_ANSI_Remove(s, b)`: every pad byte before the length byte is zero (R138). -/
def padRemoveAnsi (s : ByteSeq) (b : Nat) : Except Cause Nat :=
  match lenByte s b with
  | .error c => .error c
  | .ok n => validLength s n ((lastBytes s n).dropLast.all (fun x => x == 0))

/-- `Pad_RANDOM_Remove(s, b)`: only the length byte is checked (R139). -/
def padRemoveRandom (s : ByteSeq) (b : Nat) : Except Cause Nat :=
  match lenByte s b with
  | .error c => .error c
  | .ok n => validLength s n true

/-- `s` without its trailing zero bytes. -/
def stripZeros (s : ByteSeq) : ByteSeq := (s.reverse.dropWhile (fun x => x == 0)).reverse

/-- `Pad_ZERO_Remove(s, b)`: the length once every trailing zero byte is stripped; it never raises and `b` is not read
(R140). -/
def padRemoveZero (s : ByteSeq) : Nat := (stripZeros s).length

/-- `PadRemove(p, s, b)`: the valid length (45_modes.md, introduction). -/
def padRemoveLength (p : PadScheme) (s : ByteSeq) (b : Nat) : Except Cause Nat :=
  match p with
  | .pkcs7 => padRemovePkcs7 s b
  | .ansi => padRemoveAnsi s b
  | .random => padRemoveRandom s b
  | .zero => .ok (padRemoveZero s)

/-! ### Commands (R141, R142) -/

/-- PAD_ADD with the scheme `p` (R141). -/
def padAdd (p : PadScheme) (bs : Nat) (s : State) : Out :=
  withOperand s fun a =>
    withBlockSize bs s fun b => succeedBounded (padAddBytes p (entropyDraw s) a b) (bytesDrawn p a b) s

/-- PAD_REMOVE with the scheme `p`: the buffer cut to its valid length (R142). -/
def padRemove (p : PadScheme) (bs : Nat) (s : State) : Out :=
  withOperand s fun a =>
    withBlockSize bs s fun b =>
      withResult (padRemoveLength p a b) s fun n => succeed (a.take n) (lengthWord n) s

/-- PAD_ADD.PKCS7 (R132, R141). -/
def execPadAddPkcs7 (bs : Nat) (s : State) : Out := padAdd .pkcs7 bs s

/-- PAD_ADD.ANSI (R133, R141). -/
def execPadAddAnsi (bs : Nat) (s : State) : Out := padAdd .ansi bs s

/-- PAD_ADD.RANDOM (R134, R141). -/
def execPadAddRandom (bs : Nat) (s : State) : Out := padAdd .random bs s

/-- PAD_ADD.ZERO (R135, R141). -/
def execPadAddZero (bs : Nat) (s : State) : Out := padAdd .zero bs s

/-- PAD_REMOVE.PKCS7 (R137, R142). -/
def execPadRemovePkcs7 (bs : Nat) (s : State) : Out := padRemove .pkcs7 bs s

/-- PAD_REMOVE.ANSI (R138, R142). -/
def execPadRemoveAnsi (bs : Nat) (s : State) : Out := padRemove .ansi bs s

/-- PAD_REMOVE.RANDOM (R139, R142). -/
def execPadRemoveRandom (bs : Nat) (s : State) : Out := padRemove .random bs s

/-- PAD_REMOVE.ZERO (R140, R142). -/
def execPadRemoveZero (bs : Nat) (s : State) : Out := padRemove .zero bs s

end Sys2Proof.Machine
end

