-- ==== Sys2Proof/Machine/Modes.lean ====
section
/-! DEFINITION. The mode-of-operation engine: MODE_CONFIG, MODE_ENCRYPT and MODE_DECRYPT (45_modes.md R144 to R161).
The chaining register `V`, the block index and the delta generator live only inside these functions (10_state.md R33, R34;
log 17). -/

namespace Sys2Proof.Machine

/-! ### Padding-required modes (R148 to R156) -/

/-- `Δ(i)`: the `b` mask bytes of block `i`, with `delta` the stream of the seed (R155). -/
def deltaMask (delta : Nat → Byte) (b i : Nat) : ByteSeq := (List.range b).map (fun t => delta (i * b + t))

/-- `EncStep(mode, i, P)` with chaining register `v`: the ciphertext block and the next `v` (R150, R151, R153, R156).
`enc` is the block transform `E`. -/
def encStep (m : PaddedMode) (enc : ByteSeq → ByteSeq) (mask : Nat → ByteSeq) (i : Nat) (v p : ByteSeq) :
    ByteSeq × ByteSeq :=
  match m with
  | .ecb => (enc p, v)
  | .cbc => let c := enc (xorBytes p v); (c, c)
  | .pcbc => let c := enc (xorBytes p v); (c, xorBytes p c)
  | .rdelta => (enc (xorBytes p (mask i)), v)

/-- `DecStep(mode, i, C)` with chaining register `v`: the plaintext block and the next `v` (R150, R152, R154, R156).
`dec` is the block transform `D`. -/
def decStep (m : PaddedMode) (dec : ByteSeq → ByteSeq) (mask : Nat → ByteSeq) (i : Nat) (v c : ByteSeq) :
    ByteSeq × ByteSeq :=
  match m with
  | .ecb => (dec c, v)
  | .cbc => (xorBytes (dec c) v, c)
  | .pcbc => let p := xorBytes (dec c) v; (p, xorBytes p c)
  | .rdelta => (xorBytes (dec c) (mask i), v)

/-- The block loop of `PaddedEncrypt` and `PaddedDecrypt`: `step` on each block in index order, from block `i` on, the
results concatenated (R148, R149). -/
def blockChain (step : Nat → ByteSeq → ByteSeq → ByteSeq × ByteSeq) (i : Nat) (v : ByteSeq) : List ByteSeq → ByteSeq
  | [] => []
  | x :: rest =>
    let yv := step i v x
    yv.1 ++ blockChain step (i + 1) yv.2 rest

/-- The block loop of encryption over an aligned sequence: `V` starts as the IV (R148). -/
def encryptChain (m : PaddedMode) (enc : ByteSeq → ByteSeq) (mask : Nat → ByteSeq) (iv : ByteSeq) (b : Nat) (p : ByteSeq) :
    ByteSeq :=
  blockChain (encStep m enc mask) 0 iv (segments b p)

/-- The block loop of decryption over an aligned sequence: `V` starts as the IV (R149). -/
def decryptChain (m : PaddedMode) (dec : ByteSeq → ByteSeq) (mask : Nat → ByteSeq) (iv : ByteSeq) (b : Nat) (c : ByteSeq) :
    ByteSeq :=
  blockChain (decStep m dec mask) 0 iv (segments b c)

/-! ### Stream modes (R157 to R161) -/

/-- The direction of `StreamCrypt` (R157). -/
inductive Direction where
  | enc
  | dec
deriving DecidableEq, Repr

/-- `CtrBlock(i)`: the last 8 bytes of the IV as a big-endian counter, plus `i` modulo 2^64; the bytes before them carried
unchanged (R160). -/
def ctrBlock (iv : ByteSeq) (b i : Nat) : ByteSeq :=
  iv.take (b - 8) ++ bytesBe64 (be64 (iv.drop (b - 8)) + BitVec.ofNat 64 i)

/-- `KeyStream(mode, i)` with chaining register `v` (R158, R159, R161). -/
def keyStream (m : StreamMode) (enc : ByteSeq → ByteSeq) (iv : ByteSeq) (b i : Nat) (v : ByteSeq) : ByteSeq :=
  match m with
  | .cfb => enc v
  | .ofb => enc v
  | .ctr => enc (ctrBlock iv b i)

/-- `Feedback(mode, dir, seg, o)`: the next chaining register, from the keystream block `k`, the input segment and the
output segment (R158, R159, R161). -/
def feedback (m : StreamMode) (dir : Direction) (v k seg o : ByteSeq) : ByteSeq :=
  match m with
  | .cfb =>
    match dir with
    | .enc => o
    | .dec => seg
  | .ofb => k
  | .ctr => v

/-- The segment loop of `StreamCrypt`, from segment `i` on (R157). -/
def streamChain (m : StreamMode) (dir : Direction) (enc : ByteSeq → ByteSeq) (iv : ByteSeq) (b i : Nat) (v : ByteSeq) :
    List ByteSeq → ByteSeq
  | [] => []
  | seg :: rest =>
    let k := keyStream m enc iv b i v
    let o := xorBytes seg (k.take seg.length)
    o ++ streamChain m dir enc iv b (i + 1) (feedback m dir v k seg o) rest

/-- `StreamCrypt(s, dir)` (R157). -/
def streamCrypt (m : StreamMode) (dir : Direction) (enc : ByteSeq → ByteSeq) (iv : ByteSeq) (b : Nat) (s : ByteSeq) :
    ByteSeq :=
  streamChain m dir enc iv b 0 iv (segments b s)

/-! ### The two mode transforms -/

/-- The block size of the configured mode, `b = BlockSize(M_CIPHER.C_SEL)`. -/
def modeBlock (c : ModeContext) : Nat := blockSize c.cipher.sel

/-- The delta masks of a call, re-seeded from `M_SEED` (R155). -/
def modeMask (c : ModeContext) : Nat → ByteSeq := deltaMask (Config.deltaStream c.seed) (modeBlock c)

/-- The scheme of a padding-required mode. MODE_CONFIG never leaves it absent (10_state.md R29), so that the error is met in
no state a run reaches (log 12). -/
def boundScheme (c : ModeContext) : Except Cause PadScheme :=
  match c.pad with
  | some p => .ok p
  | none => .error .noPadding

/-- The byte result of MODE_ENCRYPT (R146, R148, R157), with `draw` the bytes the entropy source answers. -/
def modeEncryptBytes (c : ModeContext) (draw : Nat → Byte) (a : ByteSeq) : Except Cause ByteSeq :=
  match c.sel with
  | .padded m =>
    match boundScheme c with
    | .error e => .error e
    | .ok p => .ok (encryptChain m (encrypt c.cipher) (modeMask c) c.iv (modeBlock c) (padAddBytes p draw a (modeBlock c)))
  | .stream m => .ok (streamCrypt m .enc (encrypt c.cipher) c.iv (modeBlock c) a)

/-- How many bytes of entropy MODE_ENCRYPT draws: those of its one padding operation (R148, 44_padding.md R134). -/
def modeBytesDrawn (c : ModeContext) (a : ByteSeq) : Nat :=
  match c.sel with
  | .padded _ =>
    match c.pad with
    | some p => bytesDrawn p a (modeBlock c)
    | none => 0
  | .stream _ => 0

/-- `PaddedDecrypt(s)` with the scheme `p` (R149): the alignment before any block is touched, the padding after all of them
have been decrypted. -/
def paddedDecrypt (c : ModeContext) (m : PaddedMode) (p : PadScheme) (a : ByteSeq) : Except Cause ByteSeq :=
  if a.length % modeBlock c ≠ 0 then .error .misaligned
  else
    let q := decryptChain m (decrypt c.cipher) (modeMask c) c.iv (modeBlock c) a
    match padRemoveLength p q (modeBlock c) with
    | .error e => .error e
    | .ok n => .ok (q.take n)

/-- The byte result of MODE_DECRYPT (R147, R149, R157). -/
def modeDecryptBytes (c : ModeContext) (a : ByteSeq) : Except Cause ByteSeq :=
  match c.sel with
  | .padded m =>
    match boundScheme c with
    | .error e => .error e
    | .ok p => paddedDecrypt c m p a
  | .stream m => .ok (streamCrypt m .dec (encrypt c.cipher) c.iv (modeBlock c) a)

/-! ### Commands -/

/-- The IV template and the seed that MODE_CONFIG takes from its operand, or nothing when its length is illegal (R144). -/
def ivAndSeed (m : ModeSel) (b : Nat) (a : ByteSeq) : Option (ByteSeq × BitVec 32) :=
  if m = .padded .rdelta then
    if a.length ≠ 0 ∧ a.length < 4 then none
    else some (rep 0 b, if a.length = 0 then 0 else le32 (a.take 4))
  else if a.length ≠ 0 ∧ a.length ≠ b then none
  else some (if a.length = 0 then rep 0 b else a, 0)

/-- Whether a mode needs a padding scheme (R145). -/
def ModeSel.needsPadding : ModeSel → Bool
  | .padded _ => true
  | .stream _ => false

/-- MODE_CONFIG for the mode `m` with the scheme `pad` (R144). -/
def modeConfig (m : ModeSel) (pad : Option PadScheme) (s : State) : Out :=
  withOperand s fun a =>
    withCipher s fun c =>
      if ModeSel.needsPadding m && pad.isNone then fail .noPadding s
      else
        match ivAndSeed m (blockSize c.sel) a with
        | none => fail .ivLength s
        | some (iv, seed) =>
          succeed [] 0 { s with mode := { valid := true, sel := m, pad := pad, iv := iv, seed := seed, cipher := c } }

/-- MODE_CONFIG.ECB (R144, R150). -/
def execModeConfigEcb (pad : Option PadScheme) (s : State) : Out := modeConfig (.padded .ecb) pad s

/-- MODE_CONFIG.CBC (R144, R151). -/
def execModeConfigCbc (pad : Option PadScheme) (s : State) : Out := modeConfig (.padded .cbc) pad s

/-- MODE_CONFIG.CFB (R144, R158). -/
def execModeConfigCfb (pad : Option PadScheme) (s : State) : Out := modeConfig (.stream .cfb) pad s

/-- MODE_CONFIG.OFB (R144, R159). -/
def execModeConfigOfb (pad : Option PadScheme) (s : State) : Out := modeConfig (.stream .ofb) pad s

/-- MODE_CONFIG.CTR (R144, R160). -/
def execModeConfigCtr (pad : Option PadScheme) (s : State) : Out := modeConfig (.stream .ctr) pad s

/-- MODE_CONFIG.PCBC (R144, R153). -/
def execModeConfigPcbc (pad : Option PadScheme) (s : State) : Out := modeConfig (.padded .pcbc) pad s

/-- MODE_CONFIG.RDELTA (R144, R155). -/
def execModeConfigRdelta (pad : Option PadScheme) (s : State) : Out := modeConfig (.padded .rdelta) pad s

/-- MODE_ENCRYPT (R146). -/
def execModeEncrypt (s : State) : Out :=
  withOperand s fun a =>
    withMode s fun c =>
      withResult (modeEncryptBytes c (entropyDraw s) a) s fun y => succeedBounded y (modeBytesDrawn c a) s

/-- MODE_DECRYPT (R147). -/
def execModeDecrypt (s : State) : Out :=
  withOperand s fun a =>
    withMode s fun c =>
      withResult (modeDecryptBytes c a) s fun y => succeed y (lengthWord y.length) s

end Sys2Proof.Machine
end

