-- ==== Sys2Proof/Machine/Dispatch.lean ====
section
/-! DEFINITION. One arm per command of the opcode map (30_encoding.md R66). -/

namespace Sys2Proof.Machine

def exec (i : Instr) (s : State) : Host.Outcome State Fault Refusal :=
  match i with
  | .softReset => Sys2Proof.Machine.execSoftReset s
  | .getConfig => Sys2Proof.Machine.execGetConfig s
  | .loadKeyDes => Sys2Proof.Machine.execLoadKeyDes s
  | .loadKeyTdes => Sys2Proof.Machine.execLoadKeyTdes s
  | .loadKeyFeistel6 => Sys2Proof.Machine.execLoadKeyFeistel6 s
  | .loadKeyFrog => Sys2Proof.Machine.execLoadKeyFrog s
  | .getBlockSize => Sys2Proof.Machine.execGetBlockSize s
  | .getKeySize => Sys2Proof.Machine.execGetKeySize s
  | .encryptBlock => Sys2Proof.Machine.execEncryptBlock s
  | .decryptBlock => Sys2Proof.Machine.execDecryptBlock s
  | .padAddPkcs7 bs => Sys2Proof.Machine.execPadAddPkcs7 bs s
  | .padAddAnsi bs => Sys2Proof.Machine.execPadAddAnsi bs s
  | .padAddRandom bs => Sys2Proof.Machine.execPadAddRandom bs s
  | .padAddZero bs => Sys2Proof.Machine.execPadAddZero bs s
  | .padRemovePkcs7 bs => Sys2Proof.Machine.execPadRemovePkcs7 bs s
  | .padRemoveAnsi bs => Sys2Proof.Machine.execPadRemoveAnsi bs s
  | .padRemoveRandom bs => Sys2Proof.Machine.execPadRemoveRandom bs s
  | .padRemoveZero bs => Sys2Proof.Machine.execPadRemoveZero bs s
  | .modeConfigEcb pad => Sys2Proof.Machine.execModeConfigEcb pad s
  | .modeConfigCbc pad => Sys2Proof.Machine.execModeConfigCbc pad s
  | .modeConfigCfb pad => Sys2Proof.Machine.execModeConfigCfb pad s
  | .modeConfigOfb pad => Sys2Proof.Machine.execModeConfigOfb pad s
  | .modeConfigCtr pad => Sys2Proof.Machine.execModeConfigCtr pad s
  | .modeConfigPcbc pad => Sys2Proof.Machine.execModeConfigPcbc pad s
  | .modeConfigRdelta pad => Sys2Proof.Machine.execModeConfigRdelta pad s
  | .modeEncrypt => Sys2Proof.Machine.execModeEncrypt s
  | .modeDecrypt => Sys2Proof.Machine.execModeDecrypt s

end Sys2Proof.Machine
end

