-- ==== Sys2Proof/Machine/Step.lean ====
section
/-! DEFINITION. One step of the machine: the engine accepts the host's oldest command and runs it to completion
(10_state.md R16; 20_memory.md R49, R52). -/

namespace Sys2Proof.Machine

/-- One step. With no command issued the engine waits and keeps every register (70_reset_and_hazards.md R174,
60_exceptions.md R172; log 1). -/
def step (s : State) : Host.Outcome State Fault Refusal :=
  match s.pending with
  | [] => .next s
  | c :: rest => issue exec c.word (accept c rest s)

/-- `s` with the command word `w mod 2^nbits` issued before everything else, its operand empty, so that the very next step
runs it (log 1). -/
def State.withFetchWord (s : State) (nbits w : Nat) : State := stage (BitVec.ofNat 32 (w % 2 ^ nbits)) s

end Sys2Proof.Machine
end

