-- ==== Sys2Proof/Safety.lean ====
section
/-! DEFINITION. What holds of the engine's registers between commands (10_state.md R19, R22, R24, R26, R29 to R32), what
counts as a safe run, and the few words the claims use to speak of a family of commands at once. -/

namespace Sys2Proof.Machine

/-! ### The invariant -/

/-- A substitution table is a permutation of 0..255: 256 entries, none twice (10_state.md R24). -/
abbrev FrogRecord.TableIsPermutation (k : FrogRecord) : Prop := k.st.toList.Nodup

/-- Every record's table is a permutation, whether or not a cipher is loaded (R24: "It is always a permutation"). -/
def CipherContext.TablesPermute (c : CipherContext) : Prop :=
  ∀ r : Fin 8, (c.frogRk.get r).TableIsPermutation ∧ (c.frogIrk.get r).TableIsPermutation

/-- The round keys that the variant reads are the ones derived from its key (R26 (b), (c)). -/
def CipherContext.KeysDerived (c : CipherContext) : Prop :=
  match c.sel with
  | .des => c.desKs.get 0 = desKeySchedule c.key
  | .tdes => c.desKs.get 0 = desKeySchedule (c.key.take 8) ∧ c.desKs.get 1 = desKeySchedule ((c.key.drop 8).take 8)
      ∧ c.desKs.get 2 = desKeySchedule ((c.key.drop 16).take 8)
  | .feistel6 => c.desKs = f6KeySchedule c.key
  | .frog => c.frogRk = frogForward (frogBuffer c.key) ∧ c.frogIrk = frogInverse (frogForward (frogBuffer c.key))

/-- The cipher-context invariants (R24, R26): while `C_VALID = 1` the key length is legal and the round keys are derived. -/
def CipherContext.Inv (c : CipherContext) : Prop :=
  c.TablesPermute ∧ (c.valid = true → keyLenOk c.sel c.key.length = true ∧ c.KeysDerived)

/-- The mode-context invariants: while `M_VALID = 1` the bound cipher is a loaded one, a padding-required mode has a scheme
(R29), the IV template has `blockSize` bytes (R30), and the seed is 0 for every mode but RDELTA (R31). -/
def ModeContext.Inv (c : ModeContext) : Prop :=
  c.cipher.Inv ∧ (c.valid = true → c.cipher.valid = true ∧ (ModeSel.needsPadding c.sel = true → c.pad ≠ none)
    ∧ c.iv.length = modeBlock c ∧ (c.sel ≠ .padded .rdelta → c.seed = 0))

/-- What holds between commands: both contexts, `OUT` no longer than `MAX_LEN` (R19), and `OUT` empty after a failure
(60_exceptions.md R167). -/
def State.Inv (s : State) : Prop :=
  s.cipher.Inv ∧ s.mode.Inv ∧ s.out.length ≤ Config.maxLen ∧ (s.status ≠ .ok → s.out = [])

/-! ### Runs -/

/-- The states of the runs from reset: the host issues commands whenever it likes, the engine takes steps. -/
inductive Reachable : State → Prop where
  | reset : Reachable State.reset
  | host {s : State} (cs : List Command) : Reachable s → Reachable { s with pending := s.pending ++ cs }
  | engine {s t : State} : Reachable s → step s = .next t → Reachable t

/-- A state is safe when it meets the invariant and the engine does not stop in it. -/
def Safe (s : State) : Prop := s.Inv ∧ ∃ t, step s = .next t

/-! ### The reset state (70_reset_and_hazards.md R173) -/

/-- Every register that R173 gives a value has it. -/
structure AtReset (s : State) : Prop where
  status : s.status.code = 0
  result : s.result = 0
  out : s.out = []
  cValid : s.cipher.valid = false
  cSel : s.cipher.sel.code = 0
  cKey : s.cipher.key = []
  mValid : s.mode.valid = false
  mSel : s.mode.sel.code = 0
  mPad : padCode s.mode.pad = 0
  mIv : s.mode.iv = []
  mSeed : s.mode.seed = 0

/-! ### Reserved words (30_encoding.md R68) -/

/-- The operation codes of R59. -/
def operationCodes : List Nat := [0x01, 0x02, 0x10, 0x11, 0x12, 0x13, 0x14, 0x20, 0x21, 0x30, 0x31, 0x32]

/-- The list of R68, in the fields of the word. -/
def ReservedWord (w : Word) : Prop :=
  (opField w).toNat ∉ operationCodes
  ∨ ((opField w).toNat = 0x10 ∧ 4 ≤ (selField w).toNat)
  ∨ ((opField w).toNat ∈ [0x20, 0x21] ∧ ((selField w).toNat = 0 ∨ 5 ≤ (selField w).toNat))
  ∨ ((opField w).toNat = 0x30 ∧ (7 ≤ (selField w).toNat ∨ 5 ≤ (auxField w).toNat))
  ∨ ((opField w).toNat ∉ [0x10, 0x20, 0x21, 0x30] ∧ selField w ≠ 0)
  ∨ ((opField w).toNat ≠ 0x30 ∧ auxField w ≠ 0)
  ∨ ((opField w).toNat ∉ [0x20, 0x21] ∧ immField w ≠ 0)
  ∨ rsvField w ≠ 0

/-! ### Families of commands -/

/-- LOAD_KEY by its cipher. -/
def loadKeyInstr : CipherSel → Instr
  | .des => .loadKeyDes
  | .tdes => .loadKeyTdes
  | .feistel6 => .loadKeyFeistel6
  | .frog => .loadKeyFrog

/-- PAD_ADD by its scheme. -/
def padAddInstr : PadScheme → Nat → Instr
  | .pkcs7, bs => .padAddPkcs7 bs
  | .ansi, bs => .padAddAnsi bs
  | .random, bs => .padAddRandom bs
  | .zero, bs => .padAddZero bs

/-- PAD_REMOVE by its scheme. -/
def padRemoveInstr : PadScheme → Nat → Instr
  | .pkcs7, bs => .padRemovePkcs7 bs
  | .ansi, bs => .padRemoveAnsi bs
  | .random, bs => .padRemoveRandom bs
  | .zero, bs => .padRemoveZero bs

/-- MODE_CONFIG by its mode. -/
def modeConfigInstr : ModeSel → Option PadScheme → Instr
  | .padded .ecb, pad => .modeConfigEcb pad
  | .padded .cbc, pad => .modeConfigCbc pad
  | .stream .cfb, pad => .modeConfigCfb pad
  | .stream .ofb, pad => .modeConfigOfb pad
  | .stream .ctr, pad => .modeConfigCtr pad
  | .padded .pcbc, pad => .modeConfigPcbc pad
  | .padded .rdelta, pad => .modeConfigRdelta pad

/-- The commands that read `A`: all but those with no operand (30_encoding.md R67). -/
def readsOperand : Instr → Bool
  | .softReset => false
  | .getConfig => false
  | .getBlockSize => false
  | .getKeySize => false
  | _ => true

/-- The failures each command can end with besides `ILLEGAL_COMMAND`: the table of 60_exceptions.md R164, a status with its
information, and `INVALID_SIZE(2)` for every command that reads `A`. -/
def raisable (i : Instr) : List (Status × Word) :=
  (if readsOperand i then [(.invalidSize, 2)] else []) ++
  match i with
  | .softReset | .getConfig => []
  | .loadKeyDes | .loadKeyTdes | .loadKeyFeistel6 | .loadKeyFrog => [(.invalidArgument, 1)]
  | .getBlockSize | .getKeySize => [(.notConfigured, 1)]
  | .encryptBlock | .decryptBlock => [(.notConfigured, 1), (.invalidArgument, 2)]
  | .padAddPkcs7 _ | .padAddAnsi _ | .padAddRandom _ | .padAddZero _ => [(.invalidArgument, 5)]
  | .padRemovePkcs7 _ | .padRemoveAnsi _ | .padRemoveRandom _ => [(.invalidArgument, 5), (.invalidPadding, 0)]
  | .padRemoveZero _ => [(.invalidArgument, 5)]
  | .modeConfigEcb _ | .modeConfigCbc _ | .modeConfigPcbc _ | .modeConfigRdelta _ =>
    [(.notConfigured, 1), (.invalidArgument, 4), (.invalidArgument, 3)]
  | .modeConfigCfb _ | .modeConfigOfb _ | .modeConfigCtr _ => [(.notConfigured, 1), (.invalidArgument, 3)]
  | .modeEncrypt => [(.notConfigured, 2)]
  | .modeDecrypt => [(.notConfigured, 2), (.invalidSize, 1), (.invalidPadding, 0)]

/-! ### Blocks -/

/-- Block or segment `i` of a sequence, `s[i·b .. min((i+1)·b, len(s)))` (00_scope.md R9, 45_modes.md R157). -/
def blockAt (b : Nat) (s : ByteSeq) (i : Nat) : ByteSeq := (s.drop (i * b)).take b

end Sys2Proof.Machine
end

