-- ==== Sys2Proof/Certificates/Slice0/Obligations.lean ====
section
/-! DEFINITION. The statements for the provers. Each docstring names the rule of spec/ it formalises. "len" is a length in
bytes; a 32-bit `RESULT` is claimed only for lengths it can hold (log 7); a statement about an opaque constant of Config holds
for every value of it. -/

open Sys2Proof Sys2Proof.Machine

/-! ### Encoding -/

/-- Decoding the word of a well-formed command gives the command back (30_encoding.md R64, R66). -/
def Obligations.DecodeInvertsEncode : Prop :=
  ∀ i : Instr, i.wellFormed = true → decode (encode i) = .ok i

/-- A legal word is the word of the command it names, and the command is well formed (30_encoding.md R64, R66). -/
def Obligations.LegalWordsEncodeBack : Prop :=
  ∀ (w : Word) (i : Instr), decode w = .ok i → i.wellFormed = true ∧ encode i = w

/-- R64: a word is legal when it matches one row and, for MODE_CONFIG, `AUX ≤ 4`; `RSV = 0`; no two rows match the same
word; a legal word names its row's command. -/
def Obligations.LegalWordsMatchOneRow : Prop :=
  ∀ w : Word,
    ((∃ i, decode w = .ok i) ↔
      ∃ r ∈ opcodeMap, w &&& r.mask = r.value ∧ ∀ f, r.form = .aux f → (auxField w).toNat ≤ 4)
    ∧ ((∃ i, decode w = .ok i) → rsvField w = 0)
    ∧ (∀ r ∈ opcodeMap, w &&& r.mask = r.value → decode w = r.read w)
    ∧ ∀ j k : Fin opcodeMap.length, w &&& (opcodeMap.get j).mask = (opcodeMap.get j).value →
        w &&& (opcodeMap.get k).mask = (opcodeMap.get k).value → j = k

/-- R68: the reserved words, listed field by field, are exactly the illegal ones, and each behaves as R65 says. -/
def Obligations.ReservedWordsRaiseIllegalCommand : Prop :=
  ∀ w : Word,
    (ReservedWord w ↔ ¬∃ i, decode w = .ok i)
    ∧ ∀ (s : State) (a : ByteSeq) (rest : List Command), ReservedWord w → s.pending = ⟨w, a⟩ :: rest →
        step s = .next { s with pending := rest, operand := a, status := .illegalCommand, result := w, out := [] }

/-- Words of 95_test_vectors.md V-ENC-1 and V-ENC-2, written out, decode to the commands they stand for or are illegal. -/
def Obligations.WordsOfTheMapDecode : Prop :=
  decode 0x00000001 = .ok .softReset ∧ decode 0x00000002 = .ok .getConfig
  ∧ decode 0x00000310 = .ok .loadKeyFrog ∧ decode 0x00000012 = .ok .getKeySize ∧ decode 0x00000013 = .ok .encryptBlock
  ∧ decode 0x00FF0120 = .ok (.padAddPkcs7 255) ∧ decode 0x00100421 = .ok (.padRemoveZero 16)
  ∧ decode 0x00002130 = .ok (.modeConfigCbc (some .ansi)) ∧ decode 0x00000430 = .ok (.modeConfigCtr none)
  ∧ decode 0x00003630 = .ok (.modeConfigRdelta (some .random)) ∧ decode 0x00000032 = .ok .modeDecrypt
  ∧ decode 0x00000000 = .error .noRow ∧ decode 0x00000520 = .error .noRow ∧ decode 0x00005030 = .error .reservedAux
  ∧ decode 0x01000031 = .error .noRow

/-! ### The step -/

/-- R65: an illegal word raises `ILLEGAL_COMMAND` with `RESULT = CMD`; no other check runs (none of the operand, the contexts
or their valid bits matters) and no context changes. -/
def Obligations.IllegalWordsChangeNoContext : Prop :=
  ∀ (s : State) (w : Word) (a : ByteSeq) (rest : List Command) (e : Illegal),
    s.pending = ⟨w, a⟩ :: rest → decode w = .error e →
      step s = .next { s with pending := rest, operand := a, status := .illegalCommand, result := w, out := [] }

/-- When the host's oldest command has a legal word, the step is that command run with its operand in `A` and the command
taken from the host (10_state.md R16, 20_memory.md R41, R52). -/
def Obligations.StepRunsTheDecodedCommand : Prop :=
  ∀ (s : State) (w : Word) (a : ByteSeq) (rest : List Command) (i : Instr),
    s.pending = ⟨w, a⟩ :: rest → decode w = .ok i → step s = exec i { s with pending := rest, operand := a }

/-- With no command issued the engine waits and keeps every register (70_reset_and_hazards.md R174, 60_exceptions.md R172;
that waiting is a step of its own is the model's choice, log 1). -/
def Obligations.WaitingEngineKeepsEveryRegister : Prop :=
  ∀ s : State, s.pending = [] → step s = .next s

/-- No command and no word stops the engine: every one completes with a next state (60_exceptions.md R168, R169). -/
def Obligations.NoCommandStopsTheEngine : Prop :=
  (∀ (i : Instr) (s : State), ∃ t, exec i s = .next t) ∧ ∀ s : State, ∃ t, step s = .next t

/-! ### The invariant -/

/-- Every step keeps the invariant, from every state that meets it (10_state.md R19, R24, R26, R29, R30, R31). -/
def Obligations.StepKeepsTheInvariant : Prop :=
  ∀ s t : State, s.Inv → step s = .next t → t.Inv

/-- The state right after reset meets the invariant. That the substitution tables are permutations there is the model's choice
of reset value (log 2). -/
def Obligations.ResetMeetsTheInvariant : Prop := State.reset.Inv

/-- Every state of every run from reset, whatever the host issues, meets the invariant, and the engine does not stop in it. -/
def Obligations.ReachableStatesAreSafe : Prop := ∀ s : State, Reachable s → Safe s

/-! ### Reset and control -/

/-- R173 and R76 (with the word of SOFT_RESET): power-on reset and SOFT_RESET from any state leave every register that has a reset value at it; SOFT_RESET
ends with `STATUS = OK`, `RESULT = 0`, `OUT = []`; a second one changes nothing. -/
def Obligations.ResetAndSoftResetClearTheRegisters : Prop :=
  decode 0x00000001 = .ok .softReset ∧ AtReset State.reset ∧ exec .softReset State.reset = .next State.reset
  ∧ ∀ s : State, ∃ t, exec .softReset s = .next t ∧ AtReset t ∧ exec .softReset t = .next t

/-- R80 and R38: GET_CONFIG writes the configuration word, field by field, and nothing else but `STATUS` and `OUT`. -/
def Obligations.GetConfigReportsTheConfigurationWord : Prop :=
  decode 0x00000002 = .ok .getConfig ∧ ∀ s : State, ∃ w : Word,
    exec .getConfig s = .next { s with status := .ok, result := w, out := [] }
    ∧ w.extractLsb' 0 1 = BitVec.ofBool s.cipher.valid
    ∧ w.extractLsb' 1 3 = 0
    ∧ w.extractLsb' 4 4 = (if s.cipher.valid then s.cipher.sel.code else 0)
    ∧ w.extractLsb' 8 1 = BitVec.ofBool s.mode.valid
    ∧ w.extractLsb' 9 3 = 0
    ∧ w.extractLsb' 12 4 = (if s.mode.valid then s.mode.sel.code else 0)
    ∧ w.extractLsb' 16 4 = (if s.mode.valid then padCode s.mode.pad else 0)
    ∧ w.extractLsb' 20 4 = (if s.mode.valid then s.mode.cipher.sel.code else 0)
    ∧ w.extractLsb' 24 8 = 0

/-- R81 and R82: GET_BLOCK_SIZE gives 8 for DES and TDES, 16 for FEISTEL6 and FROG, and `NOT_CONFIGURED(1)` with no cipher. -/
def Obligations.GetBlockSizeReportsTheBlockSize : Prop :=
  decode 0x00000011 = .ok .getBlockSize ∧ ∀ s : State,
    (s.cipher.valid = true → exec .getBlockSize s = .next { s with
      status := .ok, result := (if s.cipher.sel = .des ∨ s.cipher.sel = .tdes then 8 else 16), out := [] })
    ∧ (s.cipher.valid = false →
      exec .getBlockSize s = .next { s with status := .notConfigured, result := 1, out := [] })

/-- R83: GET_KEY_SIZE gives DES 8, TDES 24, FEISTEL6 16, and the nominal 16 for FROG whatever the length of the loaded key. -/
def Obligations.GetKeySizeReportsTheNominalKeySize : Prop :=
  decode 0x00000012 = .ok .getKeySize ∧ ∀ s : State,
    (s.cipher.valid = true → exec .getKeySize s = .next { s with
      status := .ok
      result := (if s.cipher.sel = .des then 8 else if s.cipher.sel = .tdes then 24 else 16)
      out := [] })
    ∧ (s.cipher.valid = false →
      exec .getKeySize s = .next { s with status := .notConfigured, result := 1, out := [] })

/-! ### LOAD_KEY and the block commands -/

/-- R78, R79 (and 40_interface.md R77): each LOAD_KEY completes exactly on the legal key lengths, with the context that holds the
key, its variant and its round keys; on any other length it raises `INVALID_ARGUMENT(1)`, on one over `MAX_LEN`
`INVALID_SIZE(2)`, and the cipher context stays. Nothing is said of the round keys that the variant does not use. -/
def Obligations.LoadKeyDerivesAndStoresTheRoundKeys : Prop :=
  ∀ s : State,
    let loads := fun (i : Instr) (c : CipherContext) =>
      exec i s = .next { s with status := .ok, result := 0, out := [], cipher := c } ∧ c.valid = true ∧ c.key = s.operand
    let k := s.operand
    (k.length = 8 → ∃ c, loads .loadKeyDes c ∧ c.sel = .des ∧ c.desKs.get 0 = desKeySchedule k)
    ∧ (k.length = 24 → ∃ c, loads .loadKeyTdes c ∧ c.sel = .tdes ∧ c.desKs.get 0 = desKeySchedule (k.take 8)
      ∧ c.desKs.get 1 = desKeySchedule ((k.drop 8).take 8) ∧ c.desKs.get 2 = desKeySchedule (k.drop 16))
    ∧ (k.length = 16 → ∃ c, loads .loadKeyFeistel6 c ∧ c.sel = .feistel6
      ∧ ∀ r : Fin 6, c.desKs.get r = desKeySchedule (if r.val % 2 = 0 then k.take 8 else k.drop 8))
    ∧ (5 ≤ k.length → k.length ≤ 125 → ∃ c, loads .loadKeyFrog c ∧ c.sel = .frog
      ∧ c.frogRk = frogForward (Config.frogExpand k) ∧ c.frogIrk = frogInverse (frogForward (Config.frogExpand k)))
    ∧ (k.length ≤ Config.maxLen →
      (k.length ≠ 8 → exec .loadKeyDes s = .next { s with status := .invalidArgument, result := 1, out := [] })
      ∧ (k.length ≠ 24 → exec .loadKeyTdes s = .next { s with status := .invalidArgument, result := 1, out := [] })
      ∧ (k.length ≠ 16 → exec .loadKeyFeistel6 s = .next { s with status := .invalidArgument, result := 1, out := [] })
      ∧ (k.length < 5 ∨ 125 < k.length →
        exec .loadKeyFrog s = .next { s with status := .invalidArgument, result := 1, out := [] }))
    ∧ (Config.maxLen < k.length → ∀ sel,
      exec (loadKeyInstr sel) s = .next { s with status := .invalidSize, result := 2, out := [] })

/-- 40_interface.md R77, corner cases: loading a second key replaces the first in full, "no material of the old key survives in
`C_*`": whatever the two states held before, a LOAD_KEY of the same key succeeds in both or in neither, and leaves the same
cipher context (that it leaves the same one in the round keys the variant does not use is the model's choice, log 10). -/
def Obligations.LoadKeyReplacesTheOldKeyInFull : Prop :=
  ∀ (sel : CipherSel) (s s' t t' : State), s.operand = s'.operand →
    exec (loadKeyInstr sel) s = .next t → exec (loadKeyInstr sel) s' = .next t' →
      t.status = t'.status ∧ (t.status = .ok → t.cipher = t'.cipher)

/-- R85 and R86: ENCRYPT_BLOCK and DECRYPT_BLOCK transform a block of exactly `blockSize` bytes into one of the same length;
the checks of the cipher and of the length come in that order; nothing but the result registers changes. -/
def Obligations.BlockCommandsTransformOneBlock : Prop :=
  decode 0x00000013 = .ok .encryptBlock ∧ decode 0x00000014 = .ok .decryptBlock ∧ ∀ s : State,
    (s.cipher.valid = true → s.operand.length = blockSize s.cipher.sel →
      exec .encryptBlock s = .next { s with
        status := .ok, result := BitVec.ofNat 32 (blockSize s.cipher.sel), out := encrypt s.cipher s.operand }
      ∧ exec .decryptBlock s = .next { s with
        status := .ok, result := BitVec.ofNat 32 (blockSize s.cipher.sel), out := decrypt s.cipher s.operand }
      ∧ (encrypt s.cipher s.operand).length = blockSize s.cipher.sel
      ∧ (decrypt s.cipher s.operand).length = blockSize s.cipher.sel)
    ∧ ∀ i ∈ [Instr.encryptBlock, Instr.decryptBlock], s.operand.length ≤ Config.maxLen →
        (s.cipher.valid = false → exec i s = .next { s with status := .notConfigured, result := 1, out := [] })
        ∧ (s.cipher.valid = true → s.operand.length ≠ blockSize s.cipher.sel →
          exec i s = .next { s with status := .invalidArgument, result := 2, out := [] })

/-- R87: for every loaded cipher context and every block, each transform of the dispatcher undoes the other. -/
def Obligations.LoadedCiphersInvert : Prop :=
  ∀ (c : CipherContext) (x : ByteSeq), c.Inv → c.valid = true → x.length = blockSize c.sel →
    decrypt c (encrypt c x) = x ∧ encrypt c (decrypt c x) = x

/-! ### DES -/

/-- 41_des.md R99, R100: the rotations come full circle after 16 rounds, and the least significant bit of each key byte does
not matter: two keys that differ only there have the same schedule. -/
def Obligations.DesScheduleClosesAndIgnoresParity : Prop :=
  (∀ k : BitVec 64, keyHalves k 16 = keyHalves k 0)
  ∧ ∀ k k' : ByteSeq, k.length = 8 → k'.length = 8 →
      (∀ j : Fin 8, (k.getD j 0) >>> 1 = (k'.getD j 0) >>> 1) → desKeySchedule k = desKeySchedule k'

/-- R92: FP is the inverse of IP, for every 64-bit value. -/
def Obligations.FinalPermutationInvertsTheInitial : Prop :=
  ∀ v : BitVec 64, permute 64 tableFP (permute 64 tableIP v) = v

/-- R108: `DES_Decrypt(ks, DES_Encrypt(ks, x)) = x` for every schedule, derived from a key or not, and every block. -/
def Obligations.DesDecryptInvertsEncrypt : Prop :=
  ∀ (ks : DesSchedule) (x : ByteSeq), x.length = 8 → desDecrypt ks (desEncrypt ks x) = x

/-- 41_des.md R109 (d): complementing every bit of key and block complements the result. -/
def Obligations.DesComplementation : Prop :=
  ∀ k x : ByteSeq, k.length = 8 → x.length = 8 →
    desEncrypt (desKeySchedule (k.map (~~~ ·))) (x.map (~~~ ·)) = (desEncrypt (desKeySchedule k) x).map (~~~ ·)

/-- 41_des.md R109 (c): where the 16 subkeys are all equal, encryption and decryption are the same map and encrypting twice
gives the block back; the all-zero key is such a key. -/
def Obligations.DesEqualSubkeysMakeAnInvolution : Prop :=
  (∀ (ks : DesSchedule) (k : BitVec 48) (x : ByteSeq), (∀ i, ks.get i = k) → x.length = 8 →
    desEncrypt ks x = desDecrypt ks x ∧ desEncrypt ks (desEncrypt ks x) = x)
  ∧ ∀ i, (desKeySchedule (List.replicate 8 0)).get i = 0

/-- Worked values of 95_test_vectors.md: V-DES-2, V-DES-3 (`K[1]`, `K[16]`), V-DES-4 (`f(R0, K1)`), V-F6-3, V-FROG-2. -/
def Obligations.WorkedVectors : Prop :=
  desEncrypt (desKeySchedule [0x13, 0x34, 0x57, 0x79, 0x9B, 0xBC, 0xDF, 0xF1])
      [0x01, 0x23, 0x45, 0x67, 0x89, 0xAB, 0xCD, 0xEF] = [0x85, 0xE8, 0x13, 0x54, 0x0F, 0x0A, 0xB4, 0x05]
  ∧ subkey 0x133457799BBCDFF1 1 = 0x1B02EFFC7072 ∧ subkey 0x133457799BBCDFF1 16 = 0xCB3D8B0E17F5
  ∧ desF 0xF0AAF0AA 0x1B02EFFC7072 = 0x234AA9BB
  ∧ f6Encrypt (f6KeySchedule (List.replicate 16 0)) (List.replicate 16 0) = List.replicate 16 0
  ∧ diffuse [0, 1, 2, 3, 4, 5, 6, 7, 8, 9, 10, 11, 12, 13, 14, 15] = [0, 1, 3, 0, 4, 1, 7, 0, 8, 1, 0x0B, 0, 0x0C, 1, 0x0F, 0]

/-! ### Composite ciphers -/

/-- 42_composite.md R114: TDES decryption undoes encryption; with `k1 = k2` TDES is DES under `k3`; with three equal slices it
is single DES. -/
def Obligations.TdesInvertsAndCollapses : Prop :=
  (∀ (ks : DesFile) (x : ByteSeq), x.length = 8 → tdesDecrypt ks (tdesEncrypt ks x) = x)
  ∧ ∀ (k3 k : ByteSeq) (ks : DesFile) (x : ByteSeq), k.length = 8 → k3.length = 8 → x.length = 8 →
      tdesEncrypt (tdesKeySchedule (k ++ k ++ k3) ks) x = desEncrypt (desKeySchedule k3) x

/-- 42_composite.md R118, first clause: FEISTEL6 decryption undoes encryption for every file of schedules, though the round
function is DES encryption in both directions. -/
def Obligations.Feistel6DecryptInvertsEncrypt : Prop :=
  ∀ (ks : DesFile) (x : ByteSeq), x.length = 16 → f6Decrypt ks (f6Encrypt ks x) = x

/-! ### FROG -/

/-- R124: entry `i` of `MakePerm(s)` is `s[i]` when no earlier entry has it, else the smallest value no earlier entry has; so the
table is a permutation, and a sequence that is one already is unchanged. -/
def Obligations.MakePermReplacesDuplicatesByTheLowestUnused : Prop :=
  ∀ s : Vector Byte 256,
    (∀ i : Fin 256,
      let used := (makePerm s).toList.take i
      let t := (makePerm s).get i
      (s.get i ∉ used → t = s.get i) ∧ (s.get i ∈ used → t ∉ used ∧ ∀ v : Byte, v.toNat < t.toNat → v ∈ used))
    ∧ (makePerm s).toList.Nodup ∧ (s.toList.Nodup → makePerm s = s)

/-- R121, R122: the records of a buffer `B`: record `r` takes `XV`, `ST` and `MV` from the 288 bytes at `288·r`; inverse record `r`
is that of `7-r` with its table inverted. -/
def Obligations.FrogRecordsConsumeTheBuffer : Prop :=
  ∀ (buf : Nat → Byte) (r : Fin 8),
    let k := (frogForward buf).get r
    let k' := (frogInverse (frogForward buf)).get r
    let b := 288 * r.val
    (∀ i : Fin 16, k.xv.get i = buf (b + i) ∧ k.mv.get i = buf (b + 272 + i))
    ∧ (∃ s : Vector Byte 256, (∀ i, s.get i = buf (b + 16 + i)) ∧ k.st = makePerm s)
    ∧ k'.xv = ((frogForward buf).get r.rev).xv ∧ k'.mv = ((frogForward buf).get r.rev).mv
    ∧ k'.st = invertTable ((frogForward buf).get r.rev).st

/-- R125: for a permutation `T` of 0..255, `Invert(T)` is the permutation `U` with `U[T[i]] = i`. -/
def Obligations.InvertTableInverts : Prop :=
  ∀ t : Vector Byte 256, t.toList.Nodup →
    (invertTable t).toList.Nodup ∧ ∀ i : Byte, lookup (invertTable t) (lookup t i) = i

/-- 43_frog.md R126: `Undiffuse(Diffuse(x)) = x` for every 16-byte block, and the other way round. -/
def Obligations.UndiffuseInvertsDiffuse : Prop :=
  ∀ x : ByteSeq, x.length = 16 → undiffuse (diffuse x) = x ∧ diffuse (undiffuse x) = x

/-- R129: FROG decryption undoes encryption for every `FROG_EXPAND` (every buffer it could give) and every block. -/
def Obligations.FrogDecryptInvertsEncrypt : Prop :=
  ∀ (buf : Nat → Byte) (x : ByteSeq), x.length = 16 →
    frogDecrypt (frogInverse (frogForward buf)) (frogEncrypt (frogForward buf) x) = x

/-- 43_frog.md R130: the mixing vectors are stored and never read: changing all of them changes no transform. -/
def Obligations.FrogMixingVectorsAreNeverRead : Prop :=
  ∀ (rk : FrogFile) (mv : Fin 8 → Vector Byte 16) (x : ByteSeq),
    let rk' : FrogFile := Vector.ofFn fun r => { rk.get r with mv := mv r }
    frogEncrypt rk' x = frogEncrypt rk x ∧ frogDecrypt rk' x = frogDecrypt rk x

/-! ### Padding -/

/-- R131, R132, R133, R135 (and 44_padding.md R134, R141): what the four PAD_ADD commands write to `OUT`; RANDOM's filler is some
sequence of `N-1` bytes. Only the result registers change, and for RANDOM the model's count of drawn bytes (log 6). -/
def Obligations.PadAddAppendsThePad : Prop :=
  ∀ (bs : Nat) (s : State), bs ≠ 0 → bs ≤ 255 →
    let a := s.operand
    let n := bs - a.length % bs
    let z := (bs - a.length % bs) % bs
    (a.length + n ≤ Config.maxLen →
      ∃ (r : Word) (fill : ByteSeq), (a.length + n < 2 ^ 32 → r = BitVec.ofNat 32 (a.length + n)) ∧ fill.length = n - 1
        ∧ exec (.padAddPkcs7 bs) s = .next { s with
          status := .ok, result := r, out := a ++ List.replicate n (BitVec.ofNat 8 n) }
        ∧ exec (.padAddAnsi bs) s = .next { s with
          status := .ok, result := r, out := a ++ List.replicate (n - 1) 0 ++ [BitVec.ofNat 8 n] }
        ∧ exec (.padAddRandom bs) s = .next { s with
          status := .ok, result := r, out := a ++ fill ++ [BitVec.ofNat 8 n], entropyPos := s.entropyPos + (n - 1) })
    ∧ (a.length + z ≤ Config.maxLen →
      ∃ r : Word, (a.length + z < 2 ^ 32 → r = BitVec.ofNat 32 (a.length + z))
        ∧ exec (.padAddZero bs) s = .next { s with status := .ok, result := r, out := a ++ List.replicate z 0 })

/-- 44_padding.md R141, R142: block size 0 raises `INVALID_ARGUMENT(5)` in all eight padding commands. -/
def Obligations.PaddingCommandsRejectBlockSizeZero : Prop :=
  ∀ (p : PadScheme) (s : State), s.operand.length ≤ Config.maxLen →
    ∀ i ∈ [padAddInstr p 0, padRemoveInstr p 0],
      exec i s = .next { s with status := .invalidArgument, result := 5, out := [] }

/-- R43: a PAD_ADD or a MODE_ENCRYPT whose byte result would be longer than `MAX_LEN` raises `INVALID_SIZE(2)` and writes no
other state (that the draw of a RANDOM padding whose output is refused leaves the position in the entropy source is the model's choice,
log 6). -/
def Obligations.OutputsOverMaxLenAreRefused : Prop :=
  ∀ s : State, s.operand.length ≤ Config.maxLen →
    (∀ (p : PadScheme) (bs : Nat), bs ≠ 0 → Config.maxLen < (padAddBytes p (entropyDraw s) s.operand bs).length →
      exec (padAddInstr p bs) s = .next { s with status := .invalidSize, result := 2, out := [] })
    ∧ (∀ y, s.mode.valid = true → modeEncryptBytes s.mode (entropyDraw s) s.operand = .ok y → Config.maxLen < y.length →
      exec .modeEncrypt s = .next { s with status := .invalidSize, result := 2, out := [] })

/-- R136 to R139 (and 44_padding.md R142): PAD_REMOVE.PKCS7, .ANSI and .RANDOM succeed exactly on the buffers that are a body and
a well-formed pad of `N` bytes, `1 ≤ N ≤ b`, and give the body; on every other buffer, the empty one too, they raise
`INVALID_PADDING(0)`. Nothing but the result registers changes. -/
def Obligations.PadRemoveAcceptsExactlyThePads : Prop :=
  ∀ (bs : Nat) (s : State), bs ≠ 0 → bs ≤ 255 → s.operand.length ≤ Config.maxLen →
    ∀ pad : PadScheme → ByteSeq → Nat → Prop,
      (∀ q n, pad .pkcs7 q n ↔ q = List.replicate n (BitVec.ofNat 8 n)) →
      (∀ q n, pad .ansi q n ↔ q = List.replicate (n - 1) 0 ++ [BitVec.ofNat 8 n]) →
      (∀ q n, pad .random q n ↔ ∃ r : ByteSeq, r.length = n - 1 ∧ q = r ++ [BitVec.ofNat 8 n]) →
      ∀ p ∈ [PadScheme.pkcs7, PadScheme.ansi, PadScheme.random],
        (∀ body q n, s.operand = body ++ q → pad p q n → 1 ≤ n → n ≤ bs →
          ∃ r : Word, (body.length < 2 ^ 32 → r = BitVec.ofNat 32 body.length)
            ∧ exec (padRemoveInstr p bs) s = .next { s with status := .ok, result := r, out := body })
        ∧ ((¬∃ body q n, s.operand = body ++ q ∧ pad p q n ∧ 1 ≤ n ∧ n ≤ bs) →
          exec (padRemoveInstr p bs) s = .next { s with status := .invalidPadding, result := 0, out := [] })

/-- R140: PAD_REMOVE.ZERO strips every trailing zero byte of the whole buffer, whatever the block size, and never raises
`INVALID_PADDING`: its output is the one prefix of the buffer that is empty or ends in a nonzero byte and is followed by zeros
only. -/
def Obligations.PadRemoveZeroStripsAllTrailingZeros : Prop :=
  ∀ (bs : Nat) (s : State), bs ≠ 0 → s.operand.length ≤ Config.maxLen →
    (∃ body k, s.operand = body ++ List.replicate k 0 ∧ body.getLast? ≠ some 0)
    ∧ ∀ body k, s.operand = body ++ List.replicate k 0 → body.getLast? ≠ some 0 →
      ∃ r : Word, (body.length < 2 ^ 32 → r = BitVec.ofNat 32 body.length)
        ∧ exec (.padRemoveZero bs) s = .next { s with status := .ok, result := r, out := body }

/-- R143: (a) for PKCS7, ANSI and RANDOM removal gives back the length, for every entropy draw; (b) for ZERO exactly when the
buffer is empty or its last byte is nonzero, and otherwise the length without the trailing zeros; (c) the padded length is a
multiple of `b` and at least the length, strictly greater for the length-byte schemes. -/
def Obligations.PaddingLaws : Prop :=
  ∀ (draw : Nat → Byte) (s : ByteSeq) (b : Nat), b ≠ 0 → b ≤ 255 →
    (∀ p, p ≠ .zero → padRemoveLength p (padAddBytes p draw s b) b = .ok s.length)
    ∧ (padRemoveLength .zero (padAddBytes .zero draw s b) b = .ok s.length ↔ s.getLast? ≠ some 0)
    ∧ (∀ body k, s = body ++ List.replicate k 0 → body.getLast? ≠ some 0 →
      padRemoveLength .zero (padAddBytes .zero draw s b) b = .ok body.length)
    ∧ (∀ p, b ∣ (padAddBytes p draw s b).length ∧ s.length ≤ (padAddBytes p draw s b).length)
    ∧ ∀ p, p ≠ .zero → s.length < (padAddBytes p draw s b).length

/-! ### Modes -/

/-- R144 (with the words of MODE_CONFIG): MODE_CONFIG completes when a cipher is loaded, a padding-required mode has a scheme, and the operand is empty, one
block, or for RDELTA at least 4 bytes; the mode context it leaves holds the mode, the scheme, the IV or zeros, the little-endian
seed, and a copy of the cipher context. The checks fail in the order cipher, scheme, IV. -/
def Obligations.ModeConfigBindsTheMode : Prop :=
  ∀ (m : ModeSel) (pad : Option PadScheme) (s : State), s.operand.length ≤ Config.maxLen →
    let a := s.operand
    let b := blockSize s.cipher.sel
    let schemeOk := m ∈ [ModeSel.padded .ecb, .padded .cbc, .padded .pcbc, .padded .rdelta] → pad ≠ none
    let ivOk := a = [] ∨ (if m = .padded .rdelta then 4 ≤ a.length else a.length = b)
    decode (0x00000030 ||| m.code.setWidth 32 <<< 8 ||| (padCode pad).setWidth 32 <<< 12) = .ok (modeConfigInstr m pad)
    ∧ (s.cipher.valid = true → schemeOk → ivOk → exec (modeConfigInstr m pad) s = .next { s with
      status := .ok, result := 0, out := []
      mode := {
        valid := true, sel := m, pad := pad, cipher := s.cipher
        iv := if m = .padded .rdelta ∨ a = [] then List.replicate b 0 else a
        seed := if m = .padded .rdelta ∧ a ≠ [] then
            (a.getD 3 0 ++ a.getD 2 0 ++ a.getD 1 0 ++ a.getD 0 0 : BitVec (8 + 8 + 8 + 8)) else 0 } })
    ∧ (s.cipher.valid = false → exec (modeConfigInstr m pad) s = .next { s with
      status := .notConfigured, result := 1, out := [] })
    ∧ (s.cipher.valid = true → ¬schemeOk → exec (modeConfigInstr m pad) s = .next { s with
      status := .invalidArgument, result := 4, out := [] })
    ∧ (s.cipher.valid = true → schemeOk → ¬ivOk → exec (modeConfigInstr m pad) s = .next { s with
      status := .invalidArgument, result := 3, out := [] })

/-- R148, R151, R153 (and 45_modes.md R146, R150, R156): MODE_ENCRYPT in a padding-required mode completes; its output is as long
as the padded message `p`, and block `i` of it is `E` of block `i` of `p` XORed with nothing (ECB), with the previous ciphertext
block (CBC), with the previous plaintext block XOR the previous ciphertext block (PCBC), the IV standing before block 0, or with
the mask of block `i` (RDELTA). -/
def Obligations.PaddedEncryptChainsTheBlocks : Prop :=
  ∀ (s : State) (m : PaddedMode) (p : PadScheme), s.mode.Inv → s.mode.valid = true → s.mode.sel = .padded m →
    s.mode.pad = some p →
    let b := blockSize s.mode.cipher.sel
    let enc := encrypt s.mode.cipher
    let iv := s.mode.iv
    s.operand.length ≤ Config.maxLen →
    s.operand.length + (if p = .zero then (b - s.operand.length % b) % b else b - s.operand.length % b) ≤ Config.maxLen →
    ∃ (draw : Nat → Byte) (c : ByteSeq) (r : Word) (drawn : Nat),
      let x := padAddBytes p draw s.operand b
      exec .modeEncrypt s = .next { s with status := .ok, result := r, out := c, entropyPos := s.entropyPos + drawn }
      ∧ (c.length < 2 ^ 32 → r = BitVec.ofNat 32 c.length) ∧ c.length = x.length
      ∧ (p ≠ .random → drawn = 0)
      ∧ ∀ i, i * b < x.length →
        blockAt b c i = match m with
          | .ecb => enc (blockAt b x i)
          | .cbc => enc (xorBytes (blockAt b x i) (if i = 0 then iv else blockAt b c (i - 1)))
          | .pcbc => enc (xorBytes (blockAt b x i)
              (if i = 0 then iv else xorBytes (blockAt b x (i - 1)) (blockAt b c (i - 1))))
          | .rdelta => enc (xorBytes (blockAt b x i)
              ((List.range b).map fun j => Config.deltaStream s.mode.seed (i * b + j)))

/-- R149, R152, R154 (and 45_modes.md R147, R150, R156): MODE_DECRYPT in a padding-required mode, on an aligned ciphertext `c`,
decrypts every block to a sequence `q` and then removes the padding once: it completes with the valid part of `q`, or raises
`INVALID_PADDING(0)` when the removal does. On any other length it raises `INVALID_SIZE(1)`. -/
def Obligations.PaddedDecryptChainsTheBlocks : Prop :=
  ∀ (s : State) (m : PaddedMode) (p : PadScheme), s.mode.Inv → s.mode.valid = true → s.mode.sel = .padded m →
    s.mode.pad = some p → s.operand.length ≤ Config.maxLen →
    let b := blockSize s.mode.cipher.sel
    let dec := decrypt s.mode.cipher
    let iv := s.mode.iv
    let c := s.operand
    (c.length % b ≠ 0 → exec .modeDecrypt s = .next { s with status := .invalidSize, result := 1, out := [] })
    ∧ (c.length % b = 0 → ∃ q : ByteSeq, q.length = c.length
      ∧ (∀ i, i * b < c.length →
        blockAt b q i = match m with
          | .ecb => dec (blockAt b c i)
          | .cbc => xorBytes (dec (blockAt b c i)) (if i = 0 then iv else blockAt b c (i - 1))
          | .pcbc => xorBytes (dec (blockAt b c i))
              (if i = 0 then iv else xorBytes (blockAt b q (i - 1)) (blockAt b c (i - 1)))
          | .rdelta => xorBytes (dec (blockAt b c i))
              ((List.range b).map fun j => Config.deltaStream s.mode.seed (i * b + j)))
      ∧ (∀ n, padRemoveLength p q b = .ok n → ∃ r : Word, (n < 2 ^ 32 → r = BitVec.ofNat 32 n) ∧ n ≤ q.length
        ∧ exec .modeDecrypt s = .next { s with status := .ok, result := r, out := q.take n })
      ∧ ∀ e, padRemoveLength p q b = .error e →
        exec .modeDecrypt s = .next { s with status := .invalidPadding, result := 0, out := [] })

/-- R157 to R161: MODE_ENCRYPT and MODE_DECRYPT in a stream mode complete on a message of any length, the output is as long as
the message, and each segment of it is the message's XOR the keystream block cut to its length. The keystream is `E` of the IV and
then of each ciphertext segment (CFB, in both directions), `E` iterated on the IV (OFB), or `E` of the counter block: the bytes
before the last 8 unchanged, the last 8 plus the index, big-endian, modulo 2^64 (CTR). Only the result registers change. -/
def Obligations.StreamModesXorTheKeystream : Prop :=
  ∀ (s : State) (m : StreamMode) (i : Instr), s.mode.Inv → s.mode.valid = true → s.mode.sel = .stream m →
    s.operand.length ≤ Config.maxLen → i ∈ [Instr.modeEncrypt, Instr.modeDecrypt] →
    let b := blockSize s.mode.cipher.sel
    let enc := encrypt s.mode.cipher
    let iv := s.mode.iv
    let a := s.operand
    ∃ (y : ByteSeq) (r : Word),
      exec i s = .next { s with status := .ok, result := r, out := y }
      ∧ (a.length < 2 ^ 32 → r = BitVec.ofNat 32 a.length) ∧ y.length = a.length
      ∧ ∀ j, j * b < a.length →
        let c := if i = .modeEncrypt then y else a
        let k := match m with
          | .cfb => enc (if j = 0 then iv else blockAt b c (j - 1))
          | .ofb => enc^[j + 1] iv
          | .ctr => enc (iv.take (b - 8) ++ bytesBe64 (be64 (iv.drop (b - 8)) + BitVec.ofNat 64 j))
        blockAt b y j = xorBytes (blockAt b a j) (k.take (blockAt b a j).length)

/-- 45_modes.md R146, R147: with no mode configured, both mode commands raise `NOT_CONFIGURED(2)`; on a configured mode
MODE_ENCRYPT fails only because its output would be too long, and MODE_DECRYPT only by alignment or padding. -/
def Obligations.ModeCommandsFailOnlyAsListed : Prop :=
  ∀ s t : State, s.mode.Inv → s.operand.length ≤ Config.maxLen →
    (s.mode.valid = false → ∀ i ∈ [Instr.modeEncrypt, Instr.modeDecrypt],
      exec i s = .next { s with status := .notConfigured, result := 2, out := [] })
    ∧ (s.mode.valid = true → exec .modeEncrypt s = .next t → t.status ≠ .ok →
      t.status = .invalidSize ∧ t.result = 2 ∧ Config.maxLen < s.operand.length + blockSize s.mode.cipher.sel)
    ∧ (s.mode.valid = true → exec .modeDecrypt s = .next t → t.status ≠ .ok →
      ModeSel.needsPadding s.mode.sel = true
      ∧ ((t.status = .invalidSize ∧ t.result = 1 ∧ s.operand.length % blockSize s.mode.cipher.sel ≠ 0)
        ∨ (t.status = .invalidPadding ∧ t.result = 0)))

/-- 45_modes.md R162 (b): with one configuration, what MODE_ENCRYPT gives, MODE_DECRYPT takes back to the message, for every
cipher, mode, scheme, message, entropy draw and `DELTA_STREAM`; under ZERO padding to the message without its trailing zeros. -/
def Obligations.MessagesSurviveEncryptionAndDecryption : Prop :=
  ∀ s t : State, s.mode.Inv → s.mode.valid = true → exec .modeEncrypt s = .next t → t.status = .ok →
    ∃ u, exec .modeDecrypt { t with operand := t.out } = .next u ∧ u.status = .ok
      ∧ (¬(ModeSel.needsPadding s.mode.sel = true ∧ s.mode.pad = some .zero) → u.out = s.operand)
      ∧ (ModeSel.needsPadding s.mode.sel = true → s.mode.pad = some .zero →
        ∀ body k, s.operand = body ++ List.replicate k 0 → body.getLast? ≠ some 0 → u.out = body)

/-- 45_modes.md R162 (a): the ciphertext of a padding-required mode is a multiple of the block size and at least as long as the
message, strictly longer except under ZERO, where it is the length rounded up; that of a stream mode is exactly as long. -/
def Obligations.CiphertextSizes : Prop :=
  ∀ s t : State, s.mode.Inv → s.mode.valid = true → exec .modeEncrypt s = .next t → t.status = .ok →
    let b := blockSize s.mode.cipher.sel
    (ModeSel.needsPadding s.mode.sel = false → t.out.length = s.operand.length)
    ∧ (ModeSel.needsPadding s.mode.sel = true → b ∣ t.out.length ∧ s.operand.length ≤ t.out.length
      ∧ (s.mode.pad ≠ some .zero → s.operand.length < t.out.length ∧ t.out.length ≤ s.operand.length + b)
      ∧ (s.mode.pad = some .zero → t.out.length < s.operand.length + b))

/-- 45_modes.md R159, R161: in OFB and CTR, MODE_ENCRYPT and MODE_DECRYPT are the same transform: they leave the same state. -/
def Obligations.OfbAndCtrAreSymmetric : Prop :=
  ∀ s : State, s.mode.sel = .stream .ofb ∨ s.mode.sel = .stream .ctr → exec .modeEncrypt s = exec .modeDecrypt s

/-- 45_modes.md R156, corner case: were `DELTA_STREAM` identically 0, RDELTA would equal ECB, in both directions. -/
def Obligations.RdeltaWithAZeroStreamIsEcb : Prop :=
  ∀ (f : ByteSeq → ByteSeq) (iv x : ByteSeq) (b : Nat) (mask : Nat → ByteSeq), b ≠ 0 → (∀ y, (f y).length ≤ b) →
    encryptChain .rdelta f (deltaMask (fun _ => 0) b) iv b x = encryptChain .ecb f mask iv b x
    ∧ decryptChain .rdelta f (deltaMask (fun _ => 0) b) iv b x = decryptChain .ecb f mask iv b x

/-! ### Failures, frames and whole-machine rules -/

/-- R163: the codes of `STATUS`; the reserved ones 6 to 15 are never written, since no status has one. -/
def Obligations.StatusCodesAreThoseOfTheTable : Prop :=
  Status.ok.code = 0 ∧ Status.invalidArgument.code = 1 ∧ Status.invalidSize.code = 2 ∧ Status.invalidPadding.code = 3
  ∧ Status.illegalCommand.code = 4 ∧ Status.notConfigured.code = 5 ∧ ∀ c : Status, c.code.toNat ≤ 5

/-- R167: a failed command writes its status, its information and the empty output, and no other register, whichever command it
is and at whatever stage it fails (that a failed command draws no entropy is the model's choice, log 6). -/
def Obligations.FailedCommandsWriteOnlyTheResultRegisters : Prop :=
  ∀ (i : Instr) (s t : State), exec i s = .next t → t.status ≠ .ok →
    t = { s with status := t.status, result := t.result, out := [] }

/-- 60_exceptions.md R164, R165: each command fails only with the statuses and information values its row of the table lists. -/
def Obligations.CommandsRaiseOnlyTheirStatuses : Prop :=
  ∀ (i : Instr) (s t : State), s.mode.Inv → exec i s = .next t → t.status ≠ .ok → (t.status, t.result) ∈ raisable i

/-- R42 (and 60_exceptions.md R166): a command that reads `A` raises `INVALID_SIZE(2)` on an operand longer than `MAX_LEN` before
any other check; the other commands ignore `A`, whatever its length (that they do not check it is the model's reading, log 9). -/
def Obligations.OverlongOperandsAreRefusedFirst : Prop :=
  ∀ (i : Instr) (s : State),
    (readsOperand i = true → Config.maxLen < s.operand.length →
      exec i s = .next { s with status := .invalidSize, result := 2, out := [] })
    ∧ (readsOperand i = false → ∀ (a : ByteSeq) (t : State), exec i s = .next t →
      exec i { s with operand := a } = .next { t with operand := a })

/-- Frame of the commands that only answer: GET_CONFIG, the two queries, the block commands, the padding commands, MODE_ENCRYPT
and MODE_DECRYPT leave both contexts, the operand space and the host's commands as they were; all but PAD_ADD.RANDOM and a
padding-required MODE_ENCRYPT under RANDOM leave the entropy source too (40_interface.md R80 to R86, 44_padding.md R141, R142,
45_modes.md R146, R147). -/
def Obligations.AnsweringCommandsKeepTheContexts : Prop :=
  ∀ (i : Instr) (s t : State), exec i s = .next t →
    i ∈ [Instr.getConfig, .getBlockSize, .getKeySize, .encryptBlock, .decryptBlock, .modeEncrypt, .modeDecrypt]
      ∨ (∃ p bs, i = padAddInstr p bs) ∨ (∃ p bs, i = padRemoveInstr p bs) →
    t = { s with status := t.status, result := t.result, out := t.out, entropyPos := t.entropyPos }
    ∧ ((∀ bs, i ≠ .padAddRandom bs) →
      ¬(i = .modeEncrypt ∧ ModeSel.needsPadding s.mode.sel = true ∧ s.mode.pad = some .random) →
        t.entropyPos = s.entropyPos)

/-- Frame of LOAD_KEY: besides the result registers it changes the cipher context alone, and that only when it succeeds
(40_interface.md R77, "Registers written", R79). -/
def Obligations.LoadKeyKeepsEverythingElse : Prop :=
  ∀ (sel : CipherSel) (s t : State), exec (loadKeyInstr sel) s = .next t →
    t = { s with status := t.status, result := t.result, out := [], cipher := t.cipher }
    ∧ (t.status ≠ .ok → t.cipher = s.cipher)

/-- Frame of MODE_CONFIG and SOFT_RESET: besides the result registers MODE_CONFIG changes the mode context alone (45_modes.md R144),
and SOFT_RESET leaves what is not a register: the operand space, the host's commands and the entropy source (log 11). -/
def Obligations.ModeConfigAndSoftResetKeepEverythingElse : Prop :=
  (∀ (m : ModeSel) (pad : Option PadScheme) (s t : State), exec (modeConfigInstr m pad) s = .next t →
    t = { s with status := t.status, result := t.result, out := [], mode := t.mode })
  ∧ ∀ s t : State, exec .softReset s = .next t →
    t.operand = s.operand ∧ t.pending = s.pending ∧ t.entropyPos = s.entropyPos

/-- R176: MODE_CONFIG copies the cipher context; a LOAD_KEY after it does not reach the configured mode: the mode commands answer
for every message what they would have answered before it. -/
def Obligations.LoadKeyDoesNotReachTheConfiguredMode : Prop :=
  (∀ (m : ModeSel) (pad : Option PadScheme) (s t : State), exec (modeConfigInstr m pad) s = .next t → t.status = .ok →
    t.mode.cipher = s.cipher)
  ∧ ∀ (sel : CipherSel) (s t : State), exec (loadKeyInstr sel) s = .next t →
    ∀ i ∈ [Instr.modeEncrypt, Instr.modeDecrypt], ∀ (a : ByteSeq) (u v : State),
      exec i { s with operand := a } = .next u → exec i { t with operand := a } = .next v →
        v.status = u.status ∧ v.result = u.result ∧ v.out = u.out

/-- 20_memory.md R50, 10_state.md R17, 45_modes.md R162 (c), (d): but for RANDOM padding, what a command answers and the contexts it
leaves depend on the two contexts and the operand alone: not on `STATUS`, `RESULT`, `OUT`, what ran before, or the entropy. -/
def Obligations.CommandsDependOnContextsAndOperandAlone : Prop :=
  ∀ (i : Instr) (s s' t t' : State), s.cipher = s'.cipher → s.mode = s'.mode → s.operand = s'.operand →
    (∀ bs, i ≠ .padAddRandom bs) →
    ¬(i = .modeEncrypt ∧ ModeSel.needsPadding s.mode.sel = true ∧ s.mode.pad = some .random) →
    exec i s = .next t → exec i s' = .next t' →
      t.status = t'.status ∧ t.result = t'.result ∧ t.out = t'.out ∧ t.cipher = t'.cipher ∧ t.mode = t'.mode

/-- 10_state.md R22, 60_exceptions.md R171: no command reads the stored key back: two states that differ in `C_KEY` and
`M_CIPHER`'s copy of it alone give the same status, result and output to every command. -/
def Obligations.StoredKeysAreNeverReadBack : Prop :=
  ∀ (i : Instr) (s t t' : State) (k k' : ByteSeq),
    let s' := { s with
      cipher := { s.cipher with key := k }
      mode := { s.mode with cipher := { s.mode.cipher with key := k' } } }
    exec i s = .next t → exec i s' = .next t' → t.status = t'.status ∧ t.result = t'.result ∧ t.out = t'.out
end

