-- ==== Sys2Proof/Laws/Bytes.lean ====
section
/-! SUPPORT. Laws of byte sequences: XOR, the big-endian conversions, and the cutting into segments. -/

namespace Sys2Proof.Machine

/-! ### XOR -/

@[simp] theorem rep_length (v : Byte) (n : Nat) : (rep v n).length = n := by simp [rep]

@[simp] theorem xorBytes_nil (t : ByteSeq) : xorBytes [] t = [] := by simp [xorBytes]

@[simp] theorem xorBytes_cons (x y : Byte) (s t : ByteSeq) : xorBytes (x :: s) (y :: t) = (x ^^^ y) :: xorBytes s t := rfl

@[simp] theorem xorBytes_length (s t : ByteSeq) : (xorBytes s t).length = min s.length t.length := by simp [xorBytes]

/-- XOR with the same bytes twice gives the sequence back, when there are enough of them. -/
theorem xorBytes_cancel {s t : ByteSeq} (h : s.length ≤ t.length) : xorBytes (xorBytes s t) t = s := by
  induction s generalizing t with
  | nil => simp
  | cons x s ih =>
    cases t with
    | nil => simp at h
    | cons y t => simp [ih (by simpa using h)]

/-- XOR with zero bytes changes nothing, when there are enough of them. -/
theorem xorBytes_rep_zero {s : ByteSeq} {n : Nat} (h : s.length ≤ n) : xorBytes s (rep 0 n) = s := by
  induction s generalizing n with
  | nil => simp
  | cons x s ih =>
    cases n with
    | zero => simp at h
    | succ n => simpa [rep, List.replicate_succ] using ih (n := n) (by simpa using h)

/-! ### Big-endian conversions -/

theorem beNat_append_singleton (s : ByteSeq) (x : Byte) : beNat (s ++ [x]) = 256 * beNat s + x.toNat := by
  simp [beNat]

theorem beNat_cons (x : Byte) (s : ByteSeq) : beNat (x :: s) = x.toNat * 256 ^ s.length + beNat s := by
  induction s using List.reverseRecOn with
  | nil => simp [beNat]
  | append_singleton s y ih =>
    rw [← List.cons_append, beNat_append_singleton, beNat_append_singleton, ih, List.length_append, List.length_singleton,
      pow_succ]
    ring

theorem beNat_lt (s : ByteSeq) : beNat s < 256 ^ s.length := by
  induction s with
  | nil => simp [beNat]
  | cons x s ih =>
    rw [beNat_cons, List.length_cons, pow_succ]
    have hx : x.toNat + 1 ≤ 256 := x.isLt
    calc x.toNat * 256 ^ s.length + beNat s < x.toNat * 256 ^ s.length + 256 ^ s.length := by omega
      _ = (x.toNat + 1) * 256 ^ s.length := by ring
      _ ≤ 256 * 256 ^ s.length := Nat.mul_le_mul_right _ hx
      _ = 256 ^ s.length * 256 := by ring

theorem toNat_be64 {s : ByteSeq} (h : s.length ≤ 8) : (be64 s).toNat = beNat s := by
  rw [be64, BitVec.toNat_ofNat]
  apply Nat.mod_eq_of_lt
  calc beNat s < 256 ^ s.length := beNat_lt s
    _ ≤ 256 ^ 8 := Nat.pow_le_pow_right (by norm_num) h

@[simp] theorem bytesBe64_length (v : BitVec 64) : (bytesBe64 v).length = 8 := by simp [bytesBe64]

/-- Two 8-byte sequences that are the same number are the same sequence. -/
theorem beNat_injective {s t : ByteSeq} (hl : s.length = t.length) (h : beNat s = beNat t) : s = t := by
  induction s generalizing t with
  | nil => exact (List.length_eq_zero_iff.mp hl.symm).symm
  | cons x s ih =>
    cases t with
    | nil => simp at hl
    | cons y t =>
      have hl' : s.length = t.length := by simpa using hl
      rw [beNat_cons, beNat_cons, ← hl'] at h
      have hs := beNat_lt s
      have ht := beNat_lt t
      rw [← hl'] at ht
      have hxy : x.toNat = y.toNat := by
        have h1 := congrArg (· / 256 ^ s.length) h
        have hpos : 0 < 256 ^ s.length := by positivity
        simpa [Nat.mul_comm _ (256 ^ s.length), Nat.mul_add_div hpos, Nat.div_eq_of_lt hs, Nat.div_eq_of_lt ht] using h1
      rw [hxy] at h
      rw [BitVec.eq_of_toNat_eq hxy, ih hl' (by omega)]

/-- `be_64` reads back what `bytes_be` wrote (00_scope.md R11). -/
@[simp] theorem be64_bytesBe64 (v : BitVec 64) : be64 (bytesBe64 v) = v := by
  apply BitVec.eq_of_toNat_eq
  rw [toNat_be64 (by simp)]
  have hv := v.isLt
  simp [bytesBe64, List.range, List.range.loop, beNat, BitVec.extractLsb'_toNat, Nat.shiftRight_eq_div_pow]
  omega

/-- `bytes_be` reads back what `be_64` wrote (00_scope.md R11). -/
theorem bytesBe64_be64 {s : ByteSeq} (h : s.length = 8) : bytesBe64 (be64 s) = s := by
  apply beNat_injective (by simp [h])
  rw [← toNat_be64 (by simp), be64_bytesBe64, toNat_be64 (by omega)]

/-! ### Segments -/

@[simp] theorem segments_nil (b : Nat) : segments b [] = [] := rfl

theorem segmentsUpTo_of_le {b n m : Nat} {s : ByteSeq} (hb : b ≠ 0) (hn : s.length ≤ n) (hm : s.length ≤ m) :
    segmentsUpTo b n s = segmentsUpTo b m s := by
  induction n generalizing m s with
  | zero =>
    obtain rfl := List.length_eq_zero_iff.mp (Nat.le_zero.mp hn)
    cases m <;> rfl
  | succ n ih =>
    cases s with
    | nil => cases m <;> rfl
    | cons x xs =>
      cases m with
      | zero => simp at hm
      | succ m =>
        simp only [segmentsUpTo]
        have hlen : ((x :: xs).drop b).length ≤ xs.length := by simp; omega
        rw [ih (m := m) (hlen.trans (by simpa using hn)) (hlen.trans (by simpa using hm))]

/-- The first segment and the rest (20_memory.md R45). -/
theorem segments_cons {b : Nat} (hb : b ≠ 0) {s : ByteSeq} (hs : s ≠ []) :
    segments b s = s.take b :: segments b (s.drop b) := by
  cases s with
  | nil => exact absurd rfl hs
  | cons x xs =>
    have hlen : ((x :: xs).drop b).length ≤ xs.length := by simp; omega
    rw [segments, List.length_cons, segmentsUpTo, segments, segmentsUpTo_of_le hb hlen le_rfl]

theorem segments_append_block {b : Nat} (hb : b ≠ 0) {x : ByteSeq} (hx : x.length = b) (s : ByteSeq) :
    segments b (x ++ s) = x :: segments b s := by
  have hne : x ++ s ≠ [] := by
    intro h
    rw [List.append_eq_nil_iff] at h
    exact hb (by rw [← hx, h.1, List.length_nil])
  rw [segments_cons hb hne, List.take_append_of_le_length (by omega), List.take_of_length_le (by omega),
    List.drop_append_of_le_length (by omega), List.drop_of_length_le (by omega), List.nil_append]

/-- Reasoning about a sequence segment by segment. -/
theorem segments_induction {b : Nat} (hb : b ≠ 0) {motive : ByteSeq → Prop} (nil : motive [])
    (cons : ∀ s, s ≠ [] → motive (s.drop b) → motive s) (s : ByteSeq) : motive s := by
  generalize hn : s.length = n
  induction n using Nat.strong_induction_on generalizing s with
  | _ n ih =>
    by_cases hs : s = []
    · exact hs ▸ nil
    · have hlen : 0 < s.length := List.length_pos_iff.mpr hs
      exact cons s hs (ih _ (by simp; omega) _ rfl)

/-- The segments are the sequence (R45: "Outputs are assembled in the same order"). -/
theorem segments_flatten {b : Nat} (hb : b ≠ 0) (s : ByteSeq) : (segments b s).flatten = s := by
  induction s using segments_induction hb with
  | nil => rfl
  | cons s hs ih => rw [segments_cons hb hs, List.flatten_cons, ih, List.take_append_drop]

/-- No segment is longer than `b`. -/
theorem length_le_of_mem_segments {b : Nat} (hb : b ≠ 0) {s x : ByteSeq} (h : x ∈ segments b s) : x.length ≤ b := by
  induction s using segments_induction hb with
  | nil => simp at h
  | cons s hs ih =>
    rw [segments_cons hb hs, List.mem_cons] at h
    obtain rfl | h := h
    · simp
    · exact ih h

/-- Every segment of an aligned sequence is a whole block (00_scope.md R9, `blocks`). -/
theorem length_of_mem_segments {b : Nat} (hb : b ≠ 0) {s x : ByteSeq} (hd : b ∣ s.length) (h : x ∈ segments b s) :
    x.length = b := by
  induction s using segments_induction hb with
  | nil => simp at h
  | cons s hs ih =>
    have hle : b ≤ s.length := Nat.le_of_dvd (List.length_pos_iff.mpr hs) hd
    rw [segments_cons hb hs, List.mem_cons] at h
    obtain rfl | h := h
    · simp [hle]
    · exact ih (by simpa using Nat.dvd_sub hd dvd_rfl) h

/-- Segment `i` is `s[i·b .. (i+1)·b)`, cut off at the end of `s` (45_modes.md R157). -/
theorem segments_getElem? {b : Nat} (hb : b ≠ 0) (s : ByteSeq) (i : Nat) :
    (segments b s)[i]? = if i * b < s.length then some ((s.drop (i * b)).take b) else none := by
  induction s using segments_induction hb generalizing i with
  | nil => simp
  | cons s hs ih =>
    have hpos : 0 < s.length := List.length_pos_iff.mpr hs
    rw [segments_cons hb hs]
    cases i with
    | zero => simp [hpos]
    | succ i =>
      rw [List.getElem?_cons_succ, ih, List.length_drop, List.drop_drop]
      have hiff : i * b < s.length - b ↔ (i + 1) * b < s.length := by rw [Nat.add_mul]; omega
      simp only [hiff, show b + i * b = (i + 1) * b by ring]

end Sys2Proof.Machine
end

