-- ==== Sys2Proof/Laws/Cipher.lean ====
section
/-! SUPPORT. Laws of the ciphers: the bits of a permuted value, and the lengths of the transformed blocks. -/

namespace Sys2Proof.Machine

/-! ### Permutations (41_des.md R90) -/

theorem foldl_bits_lt (bs : List Bool) (a : Nat) :
    bs.foldl (fun a b => 2 * a + b.toNat) a < (a + 1) * 2 ^ bs.length := by
  induction bs generalizing a with
  | nil => simp
  | cons b bs ih =>
    refine lt_of_lt_of_le (ih _) ?_
    have hb : b.toNat ≤ 1 := Bool.toNat_le b
    rw [List.length_cons, pow_succ, ← mul_assoc, mul_right_comm]
    exact Nat.mul_le_mul_right _ (by dsimp only; omega)

theorem testBit_foldl_bits (bs : List Bool) (a j : Nat) (hj : j < bs.length) :
    (bs.foldl (fun a b => 2 * a + b.toNat) a).testBit (bs.length - 1 - j) = bs.getD j false := by
  induction bs using List.reverseRecOn generalizing j with
  | nil => simp at hj
  | append_singleton bs b ih =>
    rw [List.foldl_concat, List.length_append, List.length_singleton]
    by_cases h : j < bs.length
    · rw [show bs.length + 1 - 1 - j = bs.length - 1 - j + 1 by omega, Nat.testBit_succ,
        show (2 * bs.foldl (fun a b => 2 * a + b.toNat) a + b.toNat) / 2 = bs.foldl (fun a b => 2 * a + b.toNat) a by
          cases b <;> simp; omega,
        ih j h]
      simp [List.getD_eq_getElem?_getD, List.getElem?_append_left h]
    · obtain rfl : j = bs.length := by
        rw [List.length_append, List.length_singleton] at hj; omega
      cases b <;> simp [Nat.testBit_zero]

/-- FIPS bit `j + 1` of the value with the bits `bs` is `bs[j]`. -/
theorem getMsbD_ofBits {m : Nat} {bs : List Bool} (hm : bs.length = m) (j : Nat) :
    (ofBits m bs).getMsbD j = bs.getD j false := by
  by_cases hj : j < m
  · subst hm
    have hlt : bs.length - 1 - j < bs.length := by omega
    have hb := testBit_foldl_bits bs 0 j hj
    simp only [BitVec.getMsbD, hj, decide_true, Bool.true_and, ofBits, BitVec.getLsbD_ofNat, hlt]
    exact hb
  · rw [BitVec.getMsbD_of_ge _ _ (by omega), List.getD_eq_default _ _ (by omega)]

/-- FIPS bit `j + 1` of `Perm(v, T, n)` is FIPS bit `T[j + 1]` of `v` (R90). -/
theorem getMsbD_permute {n m : Nat} {table : List Nat} (hm : table.length = m) (v : BitVec n) {j : Nat} (hj : j < m) :
    (permute m table v).getMsbD j = v.getMsbD (table.getD j 0 - 1) := by
  rw [permute, getMsbD_ofBits (by simpa using hm)]
  have hj' : j < table.length := by omega
  simp [List.getD_eq_getElem?_getD, hj', fbit]

/-! ### Lengths -/

@[simp] theorem desCore_length (ks : DesSchedule) (x : ByteSeq) (order : List (Fin 16)) :
    (desCore ks x order).length = 8 := by simp [desCore]

@[simp] theorem desEncrypt_length (ks : DesSchedule) (x : ByteSeq) : (desEncrypt ks x).length = 8 := desCore_length ..

@[simp] theorem desDecrypt_length (ks : DesSchedule) (x : ByteSeq) : (desDecrypt ks x).length = 8 := desCore_length ..

@[simp] theorem tdesEncrypt_length (ks : DesFile) (x : ByteSeq) : (tdesEncrypt ks x).length = 8 := desEncrypt_length ..

@[simp] theorem tdesDecrypt_length (ks : DesFile) (x : ByteSeq) : (tdesDecrypt ks x).length = 8 := desDecrypt_length ..

theorem f6Rounds_length (kss : List DesSchedule) {l r : ByteSeq} (hl : l.length = 8) (hr : r.length = 8) :
    (kss.foldl f6Round (l, r)).1.length = 8 ∧ (kss.foldl f6Round (l, r)).2.length = 8 := by
  induction kss generalizing l r with
  | nil => exact ⟨hl, hr⟩
  | cons ks kss ih => exact ih hr (by simp [hl])

theorem f6Datapath_length (kss : List DesSchedule) {x : ByteSeq} (hx : x.length = 16) :
    (f6Datapath kss x).length = 16 := by
  obtain ⟨h1, h2⟩ := f6Rounds_length kss (l := x.take 8) (r := x.drop 8) (by simp [hx]) (by simp [hx])
  simp [f6Datapath, h1, h2]

theorem absorbFrom_length (p : Byte) (x : ByteSeq) : (absorbFrom p x).length = x.length := by
  induction x generalizing p with
  | nil => rfl
  | cons x rest ih => simp [absorbFrom, ih]

@[simp] theorem diffuse_length (x : ByteSeq) : (diffuse x).length = x.length := by
  cases x <;> simp [diffuse, absorbFrom_length]

@[simp] theorem undiffuse_length (x : ByteSeq) : (undiffuse x).length = x.length := by
  cases x <;> simp [undiffuse]

theorem frogEncRound_length {x : ByteSeq} (hx : x.length = 16) (k : FrogRecord) : (frogEncRound x k).length = 16 := by
  simp [frogEncRound, hx]

theorem frogDecRound_length {x : ByteSeq} (hx : x.length = 16) (k : FrogRecord) : (frogDecRound x k).length = 16 := by
  simp [frogDecRound, hx]

theorem frogEncrypt_length (rk : FrogFile) {x : ByteSeq} (hx : x.length = 16) : (frogEncrypt rk x).length = 16 := by
  rw [frogEncrypt]
  generalize rk.toList = ks
  induction ks generalizing x with
  | nil => exact hx
  | cons k ks ih => exact ih (frogEncRound_length hx k)

theorem frogDecrypt_length (irk : FrogFile) {x : ByteSeq} (hx : x.length = 16) : (frogDecrypt irk x).length = 16 := by
  rw [frogDecrypt]
  generalize irk.toList = ks
  induction ks generalizing x with
  | nil => exact hx
  | cons k ks ih => exact ih (frogDecRound_length hx k)

theorem blockSize_ne_zero (sel : CipherSel) : blockSize sel ≠ 0 := by cases sel <;> decide

/-- A block encrypts to a block (40_interface.md R85). -/
theorem encrypt_length {c : CipherContext} {x : ByteSeq} (hx : x.length = blockSize c.sel) :
    (encrypt c x).length = blockSize c.sel := by
  unfold encrypt
  split <;> simp_all [blockSize, f6Encrypt, f6Datapath_length, frogEncrypt_length]

/-- A block decrypts to a block (40_interface.md R86). -/
theorem decrypt_length {c : CipherContext} {x : ByteSeq} (hx : x.length = blockSize c.sel) :
    (decrypt c x).length = blockSize c.sel := by
  unfold decrypt
  split <;> simp_all [blockSize, f6Decrypt, f6Datapath_length, frogDecrypt_length]

end Sys2Proof.Machine
end

