-- ==== Sys2Proof/Laws/State.lean ====
section
/-! SUPPORT. One lemma per field per update of the state, true by unfolding, so that no later proof unfolds a record update. -/

namespace Sys2Proof.Machine

/-! ### `raise` -/

@[simp] theorem raise_status (c : Cause) (s : State) : (raise c s).status = c.status := rfl

@[simp] theorem raise_result (c : Cause) (s : State) : (raise c s).result = c.info := rfl

@[simp] theorem raise_out (c : Cause) (s : State) : (raise c s).out = [] := rfl

@[simp] theorem raise_cipher (c : Cause) (s : State) : (raise c s).cipher = s.cipher := rfl

@[simp] theorem raise_mode (c : Cause) (s : State) : (raise c s).mode = s.mode := rfl

@[simp] theorem raise_operand (c : Cause) (s : State) : (raise c s).operand = s.operand := rfl

@[simp] theorem raise_pending (c : Cause) (s : State) : (raise c s).pending = s.pending := rfl

@[simp] theorem raise_entropyPos (c : Cause) (s : State) : (raise c s).entropyPos = s.entropyPos := rfl

/-! ### `finish` -/

@[simp] theorem finish_status (y : ByteSeq) (r : Word) (s : State) : (finish y r s).status = .ok := rfl

@[simp] theorem finish_result (y : ByteSeq) (r : Word) (s : State) : (finish y r s).result = r := rfl

@[simp] theorem finish_out (y : ByteSeq) (r : Word) (s : State) : (finish y r s).out = y := rfl

@[simp] theorem finish_cipher (y : ByteSeq) (r : Word) (s : State) : (finish y r s).cipher = s.cipher := rfl

@[simp] theorem finish_mode (y : ByteSeq) (r : Word) (s : State) : (finish y r s).mode = s.mode := rfl

@[simp] theorem finish_operand (y : ByteSeq) (r : Word) (s : State) : (finish y r s).operand = s.operand := rfl

@[simp] theorem finish_pending (y : ByteSeq) (r : Word) (s : State) : (finish y r s).pending = s.pending := rfl

@[simp] theorem finish_entropyPos (y : ByteSeq) (r : Word) (s : State) : (finish y r s).entropyPos = s.entropyPos := rfl

/-! ### `accept` -/

@[simp] theorem accept_status (c : Command) (rest : List Command) (s : State) : (accept c rest s).status = s.status := rfl

@[simp] theorem accept_result (c : Command) (rest : List Command) (s : State) : (accept c rest s).result = s.result := rfl

@[simp] theorem accept_out (c : Command) (rest : List Command) (s : State) : (accept c rest s).out = s.out := rfl

@[simp] theorem accept_cipher (c : Command) (rest : List Command) (s : State) : (accept c rest s).cipher = s.cipher := rfl

@[simp] theorem accept_mode (c : Command) (rest : List Command) (s : State) : (accept c rest s).mode = s.mode := rfl

@[simp] theorem accept_operand (c : Command) (rest : List Command) (s : State) : (accept c rest s).operand = c.operand := rfl

@[simp] theorem accept_pending (c : Command) (rest : List Command) (s : State) : (accept c rest s).pending = rest := rfl

@[simp] theorem accept_entropyPos (c : Command) (rest : List Command) (s : State) : (accept c rest s).entropyPos = s.entropyPos := rfl

/-! ### `stage` -/

@[simp] theorem stage_status (w : Word) (s : State) : (stage w s).status = s.status := rfl

@[simp] theorem stage_result (w : Word) (s : State) : (stage w s).result = s.result := rfl

@[simp] theorem stage_out (w : Word) (s : State) : (stage w s).out = s.out := rfl

@[simp] theorem stage_cipher (w : Word) (s : State) : (stage w s).cipher = s.cipher := rfl

@[simp] theorem stage_mode (w : Word) (s : State) : (stage w s).mode = s.mode := rfl

@[simp] theorem stage_operand (w : Word) (s : State) : (stage w s).operand = s.operand := rfl

@[simp] theorem stage_pending (w : Word) (s : State) : (stage w s).pending = { word := w, operand := [] } :: s.pending := rfl

@[simp] theorem stage_entropyPos (w : Word) (s : State) : (stage w s).entropyPos = s.entropyPos := rfl

/-! ### `resetRegisters` -/

@[simp] theorem resetRegisters_status (s : State) : (resetRegisters s).status = .ok := rfl

@[simp] theorem resetRegisters_result (s : State) : (resetRegisters s).result = 0 := rfl

@[simp] theorem resetRegisters_out (s : State) : (resetRegisters s).out = [] := rfl

@[simp] theorem resetRegisters_cipher (s : State) : (resetRegisters s).cipher = CipherContext.reset := rfl

@[simp] theorem resetRegisters_mode (s : State) : (resetRegisters s).mode = ModeContext.reset := rfl

@[simp] theorem resetRegisters_operand (s : State) : (resetRegisters s).operand = s.operand := rfl

@[simp] theorem resetRegisters_pending (s : State) : (resetRegisters s).pending = s.pending := rfl

@[simp] theorem resetRegisters_entropyPos (s : State) : (resetRegisters s).entropyPos = s.entropyPos := rfl

/-! ### `loadedContext` -/

@[simp] theorem loadedContext_valid (sel : CipherSel) (k : ByteSeq) : (loadedContext sel k).valid = true := by
  cases sel <;> rfl

@[simp] theorem loadedContext_sel (sel : CipherSel) (k : ByteSeq) : (loadedContext sel k).sel = sel := by
  cases sel <;> rfl

@[simp] theorem loadedContext_key (sel : CipherSel) (k : ByteSeq) : (loadedContext sel k).key = k := by
  cases sel <;> rfl

@[simp] theorem loadedContext_des_desKs (k : ByteSeq) :
    (loadedContext .des k).desKs = CipherContext.reset.desKs.set 0 (desKeySchedule k) := rfl

@[simp] theorem loadedContext_tdes_desKs (k : ByteSeq) :
    (loadedContext .tdes k).desKs = tdesKeySchedule k CipherContext.reset.desKs := rfl

@[simp] theorem loadedContext_feistel6_desKs (k : ByteSeq) : (loadedContext .feistel6 k).desKs = f6KeySchedule k := rfl

@[simp] theorem loadedContext_frog_frogRk (k : ByteSeq) :
    (loadedContext .frog k).frogRk = frogForward (frogBuffer k) := rfl

@[simp] theorem loadedContext_frog_frogIrk (k : ByteSeq) :
    (loadedContext .frog k).frogIrk = frogInverse (frogForward (frogBuffer k)) := rfl

theorem loadedContext_frogRk_of_ne {sel : CipherSel} (h : sel ≠ .frog) (k : ByteSeq) :
    (loadedContext sel k).frogRk = CipherContext.reset.frogRk := by cases sel <;> first | rfl | exact absurd rfl h

theorem loadedContext_frogIrk_of_ne {sel : CipherSel} (h : sel ≠ .frog) (k : ByteSeq) :
    (loadedContext sel k).frogIrk = CipherContext.reset.frogIrk := by cases sel <;> first | rfl | exact absurd rfl h

/-! ### A record equal in every field -/

/-- Two states that agree in every field are the same state. -/
theorem State.ext_fields {s t : State} (h1 : s.status = t.status) (h2 : s.result = t.result) (h3 : s.out = t.out)
    (h4 : s.cipher = t.cipher) (h5 : s.mode = t.mode) (h6 : s.operand = t.operand) (h7 : s.pending = t.pending)
    (h8 : s.entropyPos = t.entropyPos) : s = t := by
  cases s; cases t; simp_all

end Sys2Proof.Machine
end

