-- ==== Sys2Proof/Laws/Ops.lean ====
section
/-! SUPPORT. For each shared operation, what it answers when its check holds, and one inversion lemma that says everything
it can do. The provers cite these and do not unfold the operation. -/

namespace Sys2Proof.Machine

open Host (Outcome)

/-! ### Ends of a command -/

theorem fail_eq (c : Cause) (s : State) : fail c s = .next (raise c s) := rfl

theorem succeed_eq (y : ByteSeq) (r : Word) (s : State) : succeed y r s = .next (finish y r s) := rfl

/-- `MAX_LEN` is at least 2^16 (R6). -/
theorem minimum_le_maxLen : 65536 ≤ Config.maxLen := Nat.le_add_left ..

theorem withinMaxLen_iff (n : Nat) : withinMaxLen n = true ↔ n ≤ Config.maxLen := by
  have key : ∀ e, n ≤ 65536 ∨ n - 65536 ≤ e ↔ n ≤ e + 65536 := fun e => by omega
  rw [withinMaxLen, Bool.or_eq_true, Nat.ble_eq, Nat.ble_eq]
  exact key _

theorem withinMaxLen_of_le {n : Nat} (h : n ≤ Config.maxLen) : withinMaxLen n = true := (withinMaxLen_iff n).mpr h

theorem withinMaxLen_of_gt {n : Nat} (h : Config.maxLen < n) : ¬withinMaxLen n = true :=
  fun h' => Nat.not_le.mpr h ((withinMaxLen_iff n).mp h')

theorem lengthWord_of_lt {n : Nat} (h : n < 2 ^ 32) : lengthWord n = BitVec.ofNat 32 n := if_pos h

theorem succeedBounded_of_le {y : ByteSeq} (h : y.length ≤ Config.maxLen) (n : Nat) (s : State) :
    succeedBounded y n s = .next (finish y (lengthWord y.length) { s with entropyPos := s.entropyPos + n }) :=
  if_pos (withinMaxLen_of_le h)

theorem succeedBounded_of_gt {y : ByteSeq} (h : Config.maxLen < y.length) (n : Nat) (s : State) :
    succeedBounded y n s = .next (raise .overMaxLen s) := if_neg (withinMaxLen_of_gt h)

theorem succeedBounded_cases {y : ByteSeq} {n : Nat} {s t : State} (h : succeedBounded y n s = .next t) :
    (y.length ≤ Config.maxLen
      ∧ t = finish y (lengthWord y.length) { s with entropyPos := s.entropyPos + n })
    ∨ (Config.maxLen < y.length ∧ t = raise .overMaxLen s) := by
  by_cases hy : y.length ≤ Config.maxLen
  · rw [succeedBounded_of_le hy] at h
    exact .inl ⟨hy, (Outcome.next.inj h).symm⟩
  · rw [succeedBounded_of_gt (Nat.lt_of_not_le hy)] at h
    exact .inr ⟨Nat.lt_of_not_le hy, (Outcome.next.inj h).symm⟩

/-! ### Checks -/

theorem withOperand_of_le {s : State} (h : s.operand.length ≤ Config.maxLen) (k : ByteSeq → Out) :
    withOperand s k = k s.operand := if_pos (withinMaxLen_of_le h)

theorem withOperand_of_gt {s : State} (h : Config.maxLen < s.operand.length) (k : ByteSeq → Out) :
    withOperand s k = .next (raise .overMaxLen s) := if_neg (withinMaxLen_of_gt h)

theorem withOperand_cases {s t : State} {k : ByteSeq → Out} (h : withOperand s k = .next t) :
    (s.operand.length ≤ Config.maxLen ∧ k s.operand = .next t)
    ∨ (Config.maxLen < s.operand.length ∧ t = raise .overMaxLen s) := by
  by_cases hs : s.operand.length ≤ Config.maxLen
  · exact .inl ⟨hs, withOperand_of_le hs k ▸ h⟩
  · rw [withOperand_of_gt (Nat.lt_of_not_le hs)] at h
    exact .inr ⟨Nat.lt_of_not_le hs, (Outcome.next.inj h).symm⟩

theorem withCipher_of_valid {s : State} (h : s.cipher.valid = true) (k : CipherContext → Out) :
    withCipher s k = k s.cipher := if_pos h

theorem withCipher_of_invalid {s : State} (h : s.cipher.valid = false) (k : CipherContext → Out) :
    withCipher s k = .next (raise .noCipher s) := if_neg (by simp [h])

theorem withCipher_cases {s t : State} {k : CipherContext → Out} (h : withCipher s k = .next t) :
    (s.cipher.valid = true ∧ k s.cipher = .next t) ∨ (s.cipher.valid = false ∧ t = raise .noCipher s) := by
  cases hv : s.cipher.valid with
  | true => exact .inl ⟨rfl, withCipher_of_valid hv k ▸ h⟩
  | false =>
    rw [withCipher_of_invalid hv] at h
    exact .inr ⟨rfl, (Outcome.next.inj h).symm⟩

theorem withMode_of_valid {s : State} (h : s.mode.valid = true) (k : ModeContext → Out) :
    withMode s k = k s.mode := if_pos h

theorem withMode_of_invalid {s : State} (h : s.mode.valid = false) (k : ModeContext → Out) :
    withMode s k = .next (raise .noMode s) := if_neg (by simp [h])

theorem withMode_cases {s t : State} {k : ModeContext → Out} (h : withMode s k = .next t) :
    (s.mode.valid = true ∧ k s.mode = .next t) ∨ (s.mode.valid = false ∧ t = raise .noMode s) := by
  cases hv : s.mode.valid with
  | true => exact .inl ⟨rfl, withMode_of_valid hv k ▸ h⟩
  | false =>
    rw [withMode_of_invalid hv] at h
    exact .inr ⟨rfl, (Outcome.next.inj h).symm⟩

theorem withBlockSize_of_ne {bs : Nat} (h : bs ≠ 0) (s : State) (k : Nat → Out) : withBlockSize bs s k = k bs := if_neg h

theorem withBlockSize_zero (s : State) (k : Nat → Out) : withBlockSize 0 s k = .next (raise .zeroBlockSize s) := if_pos rfl

theorem withBlockSize_cases {bs : Nat} {s t : State} {k : Nat → Out} (h : withBlockSize bs s k = .next t) :
    (bs ≠ 0 ∧ k bs = .next t) ∨ (bs = 0 ∧ t = raise .zeroBlockSize s) := by
  by_cases hb : bs = 0
  · subst hb
    rw [withBlockSize_zero] at h
    exact .inr ⟨rfl, (Outcome.next.inj h).symm⟩
  · exact .inl ⟨hb, withBlockSize_of_ne hb s k ▸ h⟩

theorem withBlock_of_eq {b : Nat} {a : ByteSeq} (h : a.length = b) (s : State) (k : ByteSeq → Out) :
    withBlock b a s k = k a := if_pos h

theorem withBlock_of_ne {b : Nat} {a : ByteSeq} (h : a.length ≠ b) (s : State) (k : ByteSeq → Out) :
    withBlock b a s k = .next (raise .blockLength s) := if_neg h

theorem withBlock_cases {b : Nat} {a : ByteSeq} {s t : State} {k : ByteSeq → Out} (h : withBlock b a s k = .next t) :
    (a.length = b ∧ k a = .next t) ∨ (a.length ≠ b ∧ t = raise .blockLength s) := by
  by_cases hb : a.length = b
  · exact .inl ⟨hb, withBlock_of_eq hb s k ▸ h⟩
  · rw [withBlock_of_ne hb] at h
    exact .inr ⟨hb, (Outcome.next.inj h).symm⟩

theorem withResult_cases {α : Type} {r : Except Cause α} {s t : State} {k : α → Out} (h : withResult r s k = .next t) :
    (∃ y, r = .ok y ∧ k y = .next t) ∨ (∃ c, r = .error c ∧ t = raise c s) := by
  cases r with
  | ok y => exact .inl ⟨y, rfl, h⟩
  | error c => exact .inr ⟨c, rfl, (Outcome.next.inj h).symm⟩

/-! ### Beginning of a command -/

theorem issue_of_ok {w : Word} {i : Instr} (h : decode w = .ok i) (run : Instr → State → Out) (s : State) :
    issue run w s = run i s := by simp [issue, h]

theorem issue_of_error {w : Word} {e : Illegal} (h : decode w = .error e) (run : Instr → State → Out) (s : State) :
    issue run w s = .next (raise (.illegal w) s) := by simp [issue, h, fail]

theorem issue_cases {run : Instr → State → Out} {w : Word} {s t : State} (h : issue run w s = .next t) :
    (∃ i, decode w = .ok i ∧ run i s = .next t) ∨ (∃ e, decode w = .error e ∧ t = raise (.illegal w) s) := by
  cases hd : decode w with
  | ok i => exact .inl ⟨i, rfl, issue_of_ok hd run s ▸ h⟩
  | error e =>
    rw [issue_of_error hd] at h
    exact .inr ⟨e, rfl, (Outcome.next.inj h).symm⟩

theorem step_of_pending {s : State} {c : Command} {rest : List Command} (h : s.pending = c :: rest) :
    step s = issue exec c.word (accept c rest s) := by simp [step, h]

/-- Everything a step can do: wait, run the decoded command, or report an illegal word. -/
theorem step_cases {s t : State} (h : step s = .next t) :
    (s.pending = [] ∧ t = s)
    ∨ (∃ c rest i, s.pending = c :: rest ∧ decode c.word = .ok i ∧ exec i (accept c rest s) = .next t)
    ∨ (∃ c rest e, s.pending = c :: rest ∧ decode c.word = .error e
        ∧ t = raise (.illegal c.word) (accept c rest s)) := by
  cases hp : s.pending with
  | nil =>
    simp only [step, hp] at h
    exact .inl ⟨rfl, (Outcome.next.inj h).symm⟩
  | cons c rest =>
    rw [step_of_pending hp] at h
    obtain ⟨i, hi, ht⟩ | ⟨e, he, ht⟩ := issue_cases h
    · exact .inr (.inl ⟨c, rest, i, rfl, hi, ht⟩)
    · exact .inr (.inr ⟨c, rest, e, rfl, he, ht⟩)

end Sys2Proof.Machine
end

