-- ==== Sys2Proof/Laws/Commands.lean ====
section
/-! SUPPORT. For each command, everything it can do: the failures with the condition of each, and the success with the state
it leaves. The last lemmas put them together for `exec`. -/

namespace Sys2Proof.Machine

open Host (Outcome)

theorem loadKey_cases {sel : CipherSel} {s t : State} (h : loadKey sel s = .next t) :
    (s.operand.length ≤ Config.maxLen ∧ keyLenOk sel s.operand.length = true
      ∧ t = finish [] 0 { s with cipher := loadedContext sel s.operand })
    ∨ (s.operand.length ≤ Config.maxLen ∧ keyLenOk sel s.operand.length = false ∧ t = raise .keyLength s)
    ∨ (Config.maxLen < s.operand.length ∧ t = raise .overMaxLen s) := by
  obtain ⟨hl, h⟩ | ⟨hl, h⟩ := withOperand_cases h
  · cases hk : keyLenOk sel s.operand.length with
    | true =>
      rw [hk, if_pos rfl] at h
      exact .inl ⟨hl, rfl, (Outcome.next.inj h).symm⟩
    | false =>
      rw [hk, if_neg Bool.false_ne_true] at h
      exact .inr (.inl ⟨hl, rfl, (Outcome.next.inj h).symm⟩)
  · exact .inr (.inr ⟨hl, h⟩)

theorem blockCommand_cases {f : CipherContext → ByteSeq → ByteSeq} {s t : State} (h : blockCommand f s = .next t) :
    (s.operand.length ≤ Config.maxLen ∧ s.cipher.valid = true ∧ s.operand.length = blockSize s.cipher.sel
      ∧ t = finish (f s.cipher s.operand) (lengthWord (f s.cipher s.operand).length) s)
    ∨ (s.operand.length ≤ Config.maxLen ∧ s.cipher.valid = true ∧ s.operand.length ≠ blockSize s.cipher.sel
      ∧ t = raise .blockLength s)
    ∨ (s.operand.length ≤ Config.maxLen ∧ s.cipher.valid = false ∧ t = raise .noCipher s)
    ∨ (Config.maxLen < s.operand.length ∧ t = raise .overMaxLen s) := by
  obtain ⟨hl, h⟩ | ⟨hl, h⟩ := withOperand_cases h
  · obtain ⟨hv, h⟩ | ⟨hv, h⟩ := withCipher_cases h
    · obtain ⟨hb, h⟩ | ⟨hb, h⟩ := withBlock_cases h
      · exact .inl ⟨hl, hv, hb, (Outcome.next.inj h).symm⟩
      · exact .inr (.inl ⟨hl, hv, hb, h⟩)
    · exact .inr (.inr (.inl ⟨hl, hv, h⟩))
  · exact .inr (.inr (.inr ⟨hl, h⟩))

theorem padAdd_cases {p : PadScheme} {bs : Nat} {s t : State} (h : padAdd p bs s = .next t) :
    (s.operand.length ≤ Config.maxLen ∧ bs ≠ 0
      ∧ (padAddBytes p (entropyDraw s) s.operand bs).length ≤ Config.maxLen
      ∧ t = finish (padAddBytes p (entropyDraw s) s.operand bs)
          (lengthWord (padAddBytes p (entropyDraw s) s.operand bs).length)
          { s with entropyPos := s.entropyPos + bytesDrawn p s.operand bs })
    ∨ (s.operand.length ≤ Config.maxLen ∧ bs ≠ 0
      ∧ Config.maxLen < (padAddBytes p (entropyDraw s) s.operand bs).length ∧ t = raise .overMaxLen s)
    ∨ (s.operand.length ≤ Config.maxLen ∧ bs = 0 ∧ t = raise .zeroBlockSize s)
    ∨ (Config.maxLen < s.operand.length ∧ t = raise .overMaxLen s) := by
  obtain ⟨hl, h⟩ | ⟨hl, h⟩ := withOperand_cases h
  · obtain ⟨hb, h⟩ | ⟨hb, h⟩ := withBlockSize_cases h
    · obtain ⟨hy, h⟩ | ⟨hy, h⟩ := succeedBounded_cases h
      · exact .inl ⟨hl, hb, hy, h⟩
      · exact .inr (.inl ⟨hl, hb, hy, h⟩)
    · exact .inr (.inr (.inl ⟨hl, hb, h⟩))
  · exact .inr (.inr (.inr ⟨hl, h⟩))

theorem padRemove_cases {p : PadScheme} {bs : Nat} {s t : State} (h : padRemove p bs s = .next t) :
    (∃ n, s.operand.length ≤ Config.maxLen ∧ bs ≠ 0 ∧ padRemoveLength p s.operand bs = .ok n
      ∧ t = finish (s.operand.take n) (lengthWord n) s)
    ∨ (∃ c, s.operand.length ≤ Config.maxLen ∧ bs ≠ 0 ∧ padRemoveLength p s.operand bs = .error c ∧ t = raise c s)
    ∨ (s.operand.length ≤ Config.maxLen ∧ bs = 0 ∧ t = raise .zeroBlockSize s)
    ∨ (Config.maxLen < s.operand.length ∧ t = raise .overMaxLen s) := by
  obtain ⟨hl, h⟩ | ⟨hl, h⟩ := withOperand_cases h
  · obtain ⟨hb, h⟩ | ⟨hb, h⟩ := withBlockSize_cases h
    · obtain ⟨n, hn, h⟩ | ⟨c, hc, h⟩ := withResult_cases h
      · exact .inl ⟨n, hl, hb, hn, (Outcome.next.inj h).symm⟩
      · exact .inr (.inl ⟨c, hl, hb, hc, h⟩)
    · exact .inr (.inr (.inl ⟨hl, hb, h⟩))
  · exact .inr (.inr (.inr ⟨hl, h⟩))

/-- Removal fails for one reason only, whichever check it is (60_exceptions.md R165). -/
theorem padRemoveLength_error {p : PadScheme} {a : ByteSeq} {b : Nat} {c : Cause} (h : padRemoveLength p a b = .error c) :
    c = .badPadding := by
  have hl : ∀ c, lenByte a b = .error c → c = .badPadding := by
    intro c hc
    unfold lenByte at hc
    split at hc
    · exact (Except.error.inj hc).symm
    · split at hc
      · exact (Except.error.inj hc).symm
      · cases hc
  have hv : ∀ n ok, validLength a n ok = .error c → c = .badPadding := by
    intro n ok hc
    unfold validLength at hc
    split at hc
    · cases hc
    · exact (Except.error.inj hc).symm
  cases p with
  | pkcs7 =>
    simp only [padRemoveLength, padRemovePkcs7] at h
    split at h
    · exact hl _ (by rw [‹lenByte a b = _›, h])
    · exact hv _ _ h
  | ansi =>
    simp only [padRemoveLength, padRemoveAnsi] at h
    split at h
    · exact hl _ (by rw [‹lenByte a b = _›, h])
    · exact hv _ _ h
  | random =>
    simp only [padRemoveLength, padRemoveRandom] at h
    split at h
    · exact hl _ (by rw [‹lenByte a b = _›, h])
    · exact hv _ _ h
  | zero => cases h

theorem modeConfig_cases {m : ModeSel} {pad : Option PadScheme} {s t : State} (h : modeConfig m pad s = .next t) :
    (∃ iv seed, s.operand.length ≤ Config.maxLen ∧ s.cipher.valid = true
      ∧ (ModeSel.needsPadding m && pad.isNone) = false
      ∧ ivAndSeed m (blockSize s.cipher.sel) s.operand = some (iv, seed)
      ∧ t = finish [] 0 { s with
          mode := { valid := true, sel := m, pad := pad, iv := iv, seed := seed, cipher := s.cipher } })
    ∨ (s.operand.length ≤ Config.maxLen ∧ s.cipher.valid = true ∧ (ModeSel.needsPadding m && pad.isNone) = false
      ∧ ivAndSeed m (blockSize s.cipher.sel) s.operand = none ∧ t = raise .ivLength s)
    ∨ (s.operand.length ≤ Config.maxLen ∧ s.cipher.valid = true ∧ (ModeSel.needsPadding m && pad.isNone) = true
      ∧ t = raise .noPadding s)
    ∨ (s.operand.length ≤ Config.maxLen ∧ s.cipher.valid = false ∧ t = raise .noCipher s)
    ∨ (Config.maxLen < s.operand.length ∧ t = raise .overMaxLen s) := by
  obtain ⟨hl, h⟩ | ⟨hl, h⟩ := withOperand_cases h
  · obtain ⟨hv, h⟩ | ⟨hv, h⟩ := withCipher_cases h
    · cases hp : (ModeSel.needsPadding m && pad.isNone) with
      | true =>
        rw [hp, if_pos rfl] at h
        exact .inr (.inr (.inl ⟨hl, hv, rfl, (Outcome.next.inj h).symm⟩))
      | false =>
        rw [hp, if_neg Bool.false_ne_true] at h
        split at h
        · exact .inr (.inl ⟨hl, hv, rfl, ‹_›, (Outcome.next.inj h).symm⟩)
        · exact .inl ⟨_, _, hl, hv, rfl, ‹_›, (Outcome.next.inj h).symm⟩
    · exact .inr (.inr (.inr (.inl ⟨hl, hv, h⟩)))
  · exact .inr (.inr (.inr (.inr ⟨hl, h⟩)))

theorem modeEncrypt_cases {s t : State} (h : execModeEncrypt s = .next t) :
    (∃ y, s.operand.length ≤ Config.maxLen ∧ s.mode.valid = true
      ∧ modeEncryptBytes s.mode (entropyDraw s) s.operand = .ok y ∧ y.length ≤ Config.maxLen
      ∧ t = finish y (lengthWord y.length) { s with entropyPos := s.entropyPos + modeBytesDrawn s.mode s.operand })
    ∨ (∃ y, s.operand.length ≤ Config.maxLen ∧ s.mode.valid = true
      ∧ modeEncryptBytes s.mode (entropyDraw s) s.operand = .ok y ∧ Config.maxLen < y.length
      ∧ t = raise .overMaxLen s)
    ∨ (∃ c, s.operand.length ≤ Config.maxLen ∧ s.mode.valid = true
      ∧ modeEncryptBytes s.mode (entropyDraw s) s.operand = .error c ∧ t = raise c s)
    ∨ (s.operand.length ≤ Config.maxLen ∧ s.mode.valid = false ∧ t = raise .noMode s)
    ∨ (Config.maxLen < s.operand.length ∧ t = raise .overMaxLen s) := by
  obtain ⟨hl, h⟩ | ⟨hl, h⟩ := withOperand_cases h
  · obtain ⟨hv, h⟩ | ⟨hv, h⟩ := withMode_cases h
    · obtain ⟨y, hy, h⟩ | ⟨c, hc, h⟩ := withResult_cases h
      · obtain ⟨hm, h⟩ | ⟨hm, h⟩ := succeedBounded_cases h
        · exact .inl ⟨y, hl, hv, hy, hm, h⟩
        · exact .inr (.inl ⟨y, hl, hv, hy, hm, h⟩)
      · exact .inr (.inr (.inl ⟨c, hl, hv, hc, h⟩))
    · exact .inr (.inr (.inr (.inl ⟨hl, hv, h⟩)))
  · exact .inr (.inr (.inr (.inr ⟨hl, h⟩)))

theorem modeDecrypt_cases {s t : State} (h : execModeDecrypt s = .next t) :
    (∃ y, s.operand.length ≤ Config.maxLen ∧ s.mode.valid = true
      ∧ modeDecryptBytes s.mode s.operand = .ok y ∧ t = finish y (lengthWord y.length) s)
    ∨ (∃ c, s.operand.length ≤ Config.maxLen ∧ s.mode.valid = true
      ∧ modeDecryptBytes s.mode s.operand = .error c ∧ t = raise c s)
    ∨ (s.operand.length ≤ Config.maxLen ∧ s.mode.valid = false ∧ t = raise .noMode s)
    ∨ (Config.maxLen < s.operand.length ∧ t = raise .overMaxLen s) := by
  obtain ⟨hl, h⟩ | ⟨hl, h⟩ := withOperand_cases h
  · obtain ⟨hv, h⟩ | ⟨hv, h⟩ := withMode_cases h
    · obtain ⟨y, hy, h⟩ | ⟨c, hc, h⟩ := withResult_cases h
      · exact .inl ⟨y, hl, hv, hy, (Outcome.next.inj h).symm⟩
      · exact .inr (.inl ⟨c, hl, hv, hc, h⟩)
    · exact .inr (.inr (.inl ⟨hl, hv, h⟩))
  · exact .inr (.inr (.inr ⟨hl, h⟩))

end Sys2Proof.Machine
end

