-- ==== Sys2Proof/Laws/Frog.lean ====
section
/-! SUPPORT. Laws of the FROG key schedule: the tables that LOAD_KEY.FROG derives are permutations (43_frog.md R124, R125). -/

namespace Sys2Proof.Machine

theorem mem_allBytes (v : Byte) : v ∈ allBytes := by
  rw [allBytes, List.mem_map]
  exact ⟨v.toNat, List.mem_range.mpr v.isLt, BitVec.ofNat_toNat 8 v⟩

/-- Fewer than 256 values leave one unused (R124: "`{0..255} \ used` is never empty inside the loop"). -/
theorem exists_unused {used : List Byte} (h : used.length < 256) : ∃ v : Byte, v ∉ used := by
  by_contra hall
  push Not at hall
  have hsub : allBytes ⊆ used := fun v _ => hall v
  have hnd : allBytes.Nodup := by
    rw [allBytes]
    refine List.Nodup.map_on (fun x hx y hy hxy => ?_) List.nodup_range
    have := congrArg BitVec.toNat hxy
    simp only [List.mem_range, BitVec.toNat_ofNat] at hx hy this
    omega
  have hle := (hnd.subperm hsub).length_le
  rw [allBytes, List.length_map, List.length_range] at hle
  omega

/-- The replacement value is unused. -/
theorem lowestUnused_notMem {used : List Byte} (h : used.length < 256) : lowestUnused used ∉ used := by
  obtain ⟨v, hv⟩ := exists_unused h
  rw [lowestUnused]
  cases hf : allBytes.find? (fun v => !used.contains v) with
  | none =>
    have := List.find?_eq_none.mp hf v (mem_allBytes v)
    simp [hv] at this
  | some u => simpa using List.find?_some hf

/-- The values that the scan assigns are new and distinct. -/
theorem makePermFrom_nodup {used s : List Byte} (h : used.length + s.length ≤ 256) :
    (makePermFrom used s).Nodup ∧ ∀ v ∈ makePermFrom used s, v ∉ used := by
  induction s generalizing used with
  | nil => simp [makePermFrom]
  | cons x rest ih =>
    rw [List.length_cons] at h
    rw [makePermFrom]
    generalize ht : (if used.contains x then lowestUnused used else x) = t
    have hnew : t ∉ used := by
      subst ht
      split
      · exact lowestUnused_notMem (by omega)
      · rename_i hc
        simpa using hc
    obtain ⟨hnd, hnot⟩ := ih (used := t :: used) (by rw [List.length_cons]; omega)
    refine ⟨List.nodup_cons.mpr ⟨fun hm => hnot t hm List.mem_cons_self, hnd⟩, fun v hv => ?_⟩
    obtain rfl | hv := List.mem_cons.mp hv
    · exact hnew
    · exact fun hu => hnot v hv (List.mem_cons_of_mem _ hu)

theorem toList_makePerm (s : Vector Byte 256) : (makePerm s).toList = makePermFrom [] s.toList := rfl

/-- `MakePerm` gives a permutation (R124). -/
theorem makePerm_nodup (s : Vector Byte 256) : (makePerm s).toList.Nodup :=
  (makePermFrom_nodup (used := []) (s := s.toList) (by simp)).1

/-- A table of 256 distinct bytes holds every byte. -/
theorem mem_of_nodup {t : Vector Byte 256} (h : t.toList.Nodup) (v : Byte) : v ∈ t.toList := by
  by_contra hv
  obtain ⟨hlt, hle⟩ : (v :: t.toList).length = 257 ∧ (v :: t.toList).length ≤ 256 := by
    refine ⟨by simp, ?_⟩
    have hsub : v :: t.toList ⊆ allBytes := fun w _ => mem_allBytes w
    have := ((List.nodup_cons.mpr ⟨hv, h⟩).subperm hsub).length_le
    rwa [allBytes, List.length_map, List.length_range] at this
  omega

/-- `Invert` gives a permutation (R125). -/
theorem invertTable_nodup {t : Vector Byte 256} (h : t.toList.Nodup) : (invertTable t).toList.Nodup := by
  have hl : (invertTable t).toList = List.ofFn fun v : Fin 256 => BitVec.ofNat 8 (t.toList.idxOf (BitVec.ofNat 8 v.val)) :=
    Vector.toList_ofFn
  rw [hl, List.nodup_ofFn]
  intro i j hij
  have hi := List.idxOf_lt_length_of_mem (mem_of_nodup h (BitVec.ofNat 8 i.val))
  have hj := List.idxOf_lt_length_of_mem (mem_of_nodup h (BitVec.ofNat 8 j.val))
  have hidx : t.toList.idxOf (BitVec.ofNat 8 i.val) = t.toList.idxOf (BitVec.ofNat 8 j.val) := by
    have := congrArg BitVec.toNat hij
    rw [Vector.length_toList] at hi hj
    simpa only [BitVec.toNat_ofNat, Nat.reducePow, Nat.mod_eq_of_lt hi, Nat.mod_eq_of_lt hj] using this
  have hval := (List.idxOf_inj (mem_of_nodup h _)).mp hidx
  have := congrArg BitVec.toNat hval
  simp only [BitVec.toNat_ofNat] at this
  omega

end Sys2Proof.Machine
end

