-- ==== Sys2Proof/Laws/Modes.lean ====
section
/-! SUPPORT. Laws of the mode engine: what a block loop gives, block by block, and the lengths it keeps. -/

namespace Sys2Proof.Machine

/-! ### The block loop (45_modes.md R148, R149, R157) -/

/-- The chaining register before block `n` of the loop `blockChain step i v xs`. -/
def chainRegister (step : Nat → ByteSeq → ByteSeq → ByteSeq × ByteSeq) (i : Nat) (v : ByteSeq) (xs : List ByteSeq) :
    Nat → ByteSeq
  | 0 => v
  | n + 1 => (step (i + n) (chainRegister step i v xs n) (xs.getD n [])).2

theorem chainRegister_cons (step : Nat → ByteSeq → ByteSeq → ByteSeq × ByteSeq) (i : Nat) (v x : ByteSeq)
    (xs : List ByteSeq) (n : Nat) :
    chainRegister step i v (x :: xs) (n + 1) = chainRegister step (i + 1) (step i v x).2 xs n := by
  induction n with
  | zero => rfl
  | succ n ih =>
    rw [chainRegister, ih, chainRegister]
    simp [Nat.add_assoc, Nat.add_comm 1 n]

/-- The step keeps the length of every segment of `s`, and gives a whole chaining register after every whole block. -/
def KeepsLengths (b : Nat) (step : Nat → ByteSeq → ByteSeq → ByteSeq × ByteSeq) (s : ByteSeq) : Prop :=
  ∀ x ∈ segments b s, ∀ i v, v.length = b →
    (step i v x).1.length = x.length ∧ (x.length = b → (step i v x).2.length = b)

theorem KeepsLengths.drop {b : Nat} (hb : b ≠ 0) {step : Nat → ByteSeq → ByteSeq → ByteSeq × ByteSeq} {s : ByteSeq}
    (hs : s ≠ []) (h : KeepsLengths b step s) : KeepsLengths b step (s.drop b) :=
  fun x hx => h x (by rw [segments_cons hb hs]; exact List.mem_cons_of_mem _ hx)

theorem blockChain_segments_length {b : Nat} (hb : b ≠ 0) {step : Nat → ByteSeq → ByteSeq → ByteSeq × ByteSeq}
    {s : ByteSeq} (h : KeepsLengths b step s) (i : Nat) {v : ByteSeq} (hv : v.length = b) :
    (blockChain step i v (segments b s)).length = s.length := by
  induction s using segments_induction hb generalizing i v with
  | nil => rfl
  | cons s hs ih =>
    obtain ⟨h1, h2⟩ := h (s.take b) (by rw [segments_cons hb hs]; exact List.mem_cons_self) i v hv
    rw [segments_cons hb hs, blockChain, List.length_append, h1]
    by_cases hle : b ≤ s.length
    · rw [ih (h.drop hb hs) (i + 1) (h2 (by simp [hle]))]
      simp; omega
    · rw [List.drop_of_length_le (by omega)]
      simp [blockChain]; omega

/-- Block `n` of the output is the step's output on block `n` of the input. -/
theorem blockAt_blockChain {b : Nat} (hb : b ≠ 0) {step : Nat → ByteSeq → ByteSeq → ByteSeq × ByteSeq}
    {s : ByteSeq} (h : KeepsLengths b step s) (i : Nat) {v : ByteSeq} (hv : v.length = b) {n : Nat}
    (hn : n * b < s.length) :
    blockAt b (blockChain step i v (segments b s)) n
      = (step (i + n) (chainRegister step i v (segments b s) n) (blockAt b s n)).1 := by
  induction s using segments_induction hb generalizing i v n with
  | nil => simp at hn
  | cons s hs ih =>
    obtain ⟨h1, h2⟩ := h (s.take b) (by rw [segments_cons hb hs]; exact List.mem_cons_self) i v hv
    rw [segments_cons hb hs, blockChain]
    cases n with
    | zero =>
      simp only [blockAt, Nat.zero_mul, List.drop_zero, Nat.add_zero, chainRegister]
      by_cases hle : b ≤ s.length
      · exact List.take_left' (by simp [h1, hle])
      · rw [List.drop_of_length_le (by omega), segments_nil, blockChain, List.append_nil,
          List.take_of_length_le (by simp [h1])]
    | succ n =>
      have hle : b ≤ s.length := by rw [Nat.add_mul, Nat.one_mul] at hn; omega
      have hy : (step i v (s.take b)).1.length = b := by simp [h1, hle]
      rw [chainRegister_cons]
      have := ih (h.drop hb hs) (i + 1) (h2 (by simp [hle])) (n := n)
        (by rw [Nat.add_mul, Nat.one_mul] at hn; simp; omega)
      rw [show i + (n + 1) = i + 1 + n by omega]
      have hd : (n + 1) * b = b + n * b := by ring
      simp only [blockAt, hd, ← List.drop_drop] at this ⊢
      rw [← this, List.drop_left' hy]

theorem getD_segments {b : Nat} (hb : b ≠ 0) (s : ByteSeq) (n : Nat) : (segments b s).getD n [] = blockAt b s n := by
  rw [List.getD_eq_getElem?_getD, segments_getElem? hb, blockAt]
  split
  · rfl
  · rw [List.drop_of_length_le (by omega)]; simp

/-- The chaining register before block `n + 1`, in terms of block `n`. -/
theorem chainRegister_succ {b : Nat} (hb : b ≠ 0) (step : Nat → ByteSeq → ByteSeq → ByteSeq × ByteSeq) (i : Nat)
    (v s : ByteSeq) (n : Nat) :
    chainRegister step i v (segments b s) (n + 1)
      = (step (i + n) (chainRegister step i v (segments b s) n) (blockAt b s n)).2 := by
  rw [chainRegister, getD_segments hb]

/-! ### The loops of the modes -/

@[simp] theorem deltaMask_length (delta : Nat → Byte) (b i : Nat) : (deltaMask delta b i).length = b := by
  simp [deltaMask]

theorem keepsLengths_encStep {b : Nat} (hb : b ≠ 0) {m : PaddedMode} {enc : ByteSeq → ByteSeq} {mask : Nat → ByteSeq}
    {s : ByteSeq} (henc : ∀ x : ByteSeq, x.length = b → (enc x).length = b) (hmask : ∀ i, (mask i).length = b)
    (hs : b ∣ s.length) : KeepsLengths b (encStep m enc mask) s := by
  intro x hx i v hv
  have hl := length_of_mem_segments hb hs hx
  have h1 : ∀ w : ByteSeq, w.length = b → (enc (xorBytes x w)).length = b := fun w hw => henc _ (by simp [hl, hw])
  cases m <;> simp [encStep, hl, hv, hmask, h1, henc]

theorem keepsLengths_decStep {b : Nat} (hb : b ≠ 0) {m : PaddedMode} {dec : ByteSeq → ByteSeq} {mask : Nat → ByteSeq}
    {s : ByteSeq} (hdec : ∀ x : ByteSeq, x.length = b → (dec x).length = b) (hmask : ∀ i, (mask i).length = b)
    (hs : b ∣ s.length) : KeepsLengths b (decStep m dec mask) s := by
  intro x hx i v hv
  have hl := length_of_mem_segments hb hs hx
  cases m <;> simp [decStep, hl, hv, hmask, hdec]

/-- One round of `StreamCrypt` as a step of the block loop. -/
def streamStep (m : StreamMode) (dir : Direction) (enc : ByteSeq → ByteSeq) (iv : ByteSeq) (b i : Nat) (v seg : ByteSeq) :
    ByteSeq × ByteSeq :=
  let k := keyStream m enc iv b i v
  let o := xorBytes seg (k.take seg.length)
  (o, feedback m dir v k seg o)

theorem streamChain_eq_blockChain (m : StreamMode) (dir : Direction) (enc : ByteSeq → ByteSeq) (iv : ByteSeq) (b i : Nat)
    (v : ByteSeq) (xs : List ByteSeq) :
    streamChain m dir enc iv b i v xs = blockChain (streamStep m dir enc iv b) i v xs := by
  induction xs generalizing i v with
  | nil => rfl
  | cons x xs ih => rw [streamChain, blockChain, ih]; rfl

theorem ctrBlock_length {iv : ByteSeq} {b : Nat} (hb : 8 ≤ b) (hiv : iv.length = b) (i : Nat) :
    (ctrBlock iv b i).length = b := by simp [ctrBlock]; omega

theorem keyStream_length {m : StreamMode} {enc : ByteSeq → ByteSeq} {iv v : ByteSeq} {b : Nat} (hb : 8 ≤ b)
    (hiv : iv.length = b) (henc : ∀ x : ByteSeq, x.length = b → (enc x).length = b) (i : Nat) (hv : v.length = b) :
    (keyStream m enc iv b i v).length = b := by
  cases m <;> simp [keyStream, henc, hv, ctrBlock_length, hb, hiv]

theorem keepsLengths_streamStep {m : StreamMode} {dir : Direction} {enc : ByteSeq → ByteSeq} {iv s : ByteSeq} {b : Nat}
    (hb : 8 ≤ b) (hiv : iv.length = b) (henc : ∀ x : ByteSeq, x.length = b → (enc x).length = b) :
    KeepsLengths b (streamStep m dir enc iv b) s := by
  intro x hx i v hv
  have hl := length_le_of_mem_segments (by omega) hx
  have hk := keyStream_length (m := m) hb hiv henc i hv
  refine ⟨by simp [streamStep, hk, hl], fun hx => ?_⟩
  cases m <;> cases dir <;> simp [streamStep, feedback, hv, hk, hx]

theorem modeBlock_ne_zero (c : ModeContext) : modeBlock c ≠ 0 := blockSize_ne_zero _

theorem eight_le_modeBlock (c : ModeContext) : 8 ≤ modeBlock c := by
  rw [modeBlock]; cases c.cipher.sel <;> decide

/-! ### Padding lengths (44_padding.md R131 to R135) -/

theorem padLength_pos {b : Nat} (hb : b ≠ 0) (s : ByteSeq) : 1 ≤ padLength s b := by
  have := Nat.mod_lt s.length (Nat.pos_of_ne_zero hb)
  unfold padLength; omega

theorem dvd_length_add_padLength {b : Nat} (hb : b ≠ 0) (s : ByteSeq) : b ∣ s.length + padLength s b := by
  have h := Nat.mod_lt s.length (Nat.pos_of_ne_zero hb)
  refine ⟨s.length / b + 1, ?_⟩
  have := Nat.div_add_mod s.length b
  rw [Nat.mul_add, padLength]; omega

theorem dvd_length_add_zeroPadLength {b : Nat} (hb : b ≠ 0) (s : ByteSeq) : b ∣ s.length + zeroPadLength s b := by
  have h := Nat.mod_lt s.length (Nat.pos_of_ne_zero hb)
  rw [zeroPadLength]
  by_cases h0 : s.length % b = 0
  · simpa [h0] using Nat.dvd_of_mod_eq_zero h0
  · rw [Nat.mod_eq_of_lt (by omega)]
    exact dvd_length_add_padLength hb s

/-- How long a padded sequence is. -/
theorem padAddBytes_length {p : PadScheme} {draw : Nat → Byte} {s : ByteSeq} {b : Nat} (hb : b ≠ 0) :
    (padAddBytes p draw s b).length = s.length + if p = .zero then zeroPadLength s b else padLength s b := by
  have := padLength_pos hb s
  cases p <;> simp [padAddBytes, padAddPkcs7, padAddAnsi, padAddRandom, padAddZero] <;> omega

/-- A padded sequence is a whole number of blocks (44_padding.md R131). -/
theorem dvd_padAddBytes_length {p : PadScheme} {draw : Nat → Byte} {s : ByteSeq} {b : Nat} (hb : b ≠ 0) :
    b ∣ (padAddBytes p draw s b).length := by
  rw [padAddBytes_length hb]
  split
  · exact dvd_length_add_zeroPadLength hb s
  · exact dvd_length_add_padLength hb s

end Sys2Proof.Machine
end

