-- ==== Sys2Proof/Laws/PerInstr.lean ====
section
/-! SUPPORT. A statement made of every instruction, one lemma per constructor: the reserved field of its word is zero
(30_encoding.md R57). -/

namespace Sys2Proof.Laws.ReservedBits

/-- Every bit of `RSV` in the instruction's word is zero. -/
def Statement (i : Instr) : Prop := rsvField (encode i) = 0

/-- No word assembled from the other fields has a bit of `RSV`. -/
theorem rsvField_assemble (op : BitVec 8) (sel aux : BitVec 4) (imm : BitVec 8) :
    rsvField (assemble op sel aux imm) = 0 := by
  ext i hi
  simp only [rsvField, assemble, BitVec.getElem_extractLsb', BitVec.getLsbD_append, show ¬ 24 + i < 8 by omega,
    show ¬ 24 + i - 8 < 4 by omega, show ¬ 24 + i - 8 - 4 < 4 by omega, show ¬ 24 + i - 8 - 4 - 4 < 8 by omega]
  simp

theorem softReset : Statement .softReset := rsvField_assemble _ _ _ _

theorem getConfig : Statement .getConfig := rsvField_assemble _ _ _ _

theorem loadKeyDes : Statement .loadKeyDes := rsvField_assemble _ _ _ _

theorem loadKeyTdes : Statement .loadKeyTdes := rsvField_assemble _ _ _ _

theorem loadKeyFeistel6 : Statement .loadKeyFeistel6 := rsvField_assemble _ _ _ _

theorem loadKeyFrog : Statement .loadKeyFrog := rsvField_assemble _ _ _ _

theorem getBlockSize : Statement .getBlockSize := rsvField_assemble _ _ _ _

theorem getKeySize : Statement .getKeySize := rsvField_assemble _ _ _ _

theorem encryptBlock : Statement .encryptBlock := rsvField_assemble _ _ _ _

theorem decryptBlock : Statement .decryptBlock := rsvField_assemble _ _ _ _

theorem padAddPkcs7 (bs : Nat) : Statement (.padAddPkcs7 bs) := rsvField_assemble _ _ _ _

theorem padAddAnsi (bs : Nat) : Statement (.padAddAnsi bs) := rsvField_assemble _ _ _ _

theorem padAddRandom (bs : Nat) : Statement (.padAddRandom bs) := rsvField_assemble _ _ _ _

theorem padAddZero (bs : Nat) : Statement (.padAddZero bs) := rsvField_assemble _ _ _ _

theorem padRemovePkcs7 (bs : Nat) : Statement (.padRemovePkcs7 bs) := rsvField_assemble _ _ _ _

theorem padRemoveAnsi (bs : Nat) : Statement (.padRemoveAnsi bs) := rsvField_assemble _ _ _ _

theorem padRemoveRandom (bs : Nat) : Statement (.padRemoveRandom bs) := rsvField_assemble _ _ _ _

theorem padRemoveZero (bs : Nat) : Statement (.padRemoveZero bs) := rsvField_assemble _ _ _ _

theorem modeConfigEcb (pad : Option PadScheme) : Statement (.modeConfigEcb pad) := rsvField_assemble _ _ _ _

theorem modeConfigCbc (pad : Option PadScheme) : Statement (.modeConfigCbc pad) := rsvField_assemble _ _ _ _

theorem modeConfigCfb (pad : Option PadScheme) : Statement (.modeConfigCfb pad) := rsvField_assemble _ _ _ _

theorem modeConfigOfb (pad : Option PadScheme) : Statement (.modeConfigOfb pad) := rsvField_assemble _ _ _ _

theorem modeConfigCtr (pad : Option PadScheme) : Statement (.modeConfigCtr pad) := rsvField_assemble _ _ _ _

theorem modeConfigPcbc (pad : Option PadScheme) : Statement (.modeConfigPcbc pad) := rsvField_assemble _ _ _ _

theorem modeConfigRdelta (pad : Option PadScheme) : Statement (.modeConfigRdelta pad) := rsvField_assemble _ _ _ _

theorem modeEncrypt : Statement .modeEncrypt := rsvField_assemble _ _ _ _

theorem modeDecrypt : Statement .modeDecrypt := rsvField_assemble _ _ _ _

end Sys2Proof.Laws.ReservedBits
end

