-- ==== Sys2Proof/Tests/Slice0.lean ====
section
/-! SUPPORT. The model's own tests: the syntax check, the decoder, small runs whose expected values are those of
95_test_vectors.md (each test names its vector), and for each statement with hypotheses a witness that meets them. -/

open Sys2Proof Sys2Proof.Machine

namespace Sys2Proof.Tests

/-! ### Helpers -/

/-- The three result registers, when a step gives a next state. -/
def report : Out → Option (Status × Word × ByteSeq)
  | .next t => some (t.status, t.result, t.out)
  | .fault _ => none
  | .refused _ => none

/-- The cipher context after a step, when it gives a next state. -/
def cipherAfter : Out → Option CipherContext
  | .next t => some t.cipher
  | .fault _ => none
  | .refused _ => none

/-- The mode context after a step, when it gives a next state. -/
def modeAfter : Out → Option ModeContext
  | .next t => some t.mode
  | .fault _ => none
  | .refused _ => none

/-- What one step reports when the host issues the word `w` with the operand `a` in the state `s`. -/
def reports (s : State) (w : Word) (a : ByteSeq) : Option (Status × Word × ByteSeq) :=
  report (step { s with pending := [{ word := w, operand := a }] })

/-- The engine with a key loaded. -/
def loaded (sel : CipherSel) (key : ByteSeq) : State :=
  { State.reset with cipher := loadedContext sel key }

/-- The engine with a key loaded and a mode configured. -/
def configured (sel : CipherSel) (key : ByteSeq) (m : ModeSel) (pad : Option PadScheme) (iv : ByteSeq) : State :=
  let c := loadedContext sel key
  { State.reset with
    cipher := c
    mode := { valid := true, sel := m, pad := pad, iv := iv, seed := 0, cipher := c } }

/-- A FROG context whose records have `XV = MV = 0` and the identity table, those of V-FROG-4. -/
def frogIdentity : State := { State.reset with cipher := { CipherContext.reset with valid := true, sel := .frog } }

/-- The key of V-DES-8 and of the mode vectors. -/
def keyD : ByteSeq := [0x01, 0x23, 0x45, 0x67, 0x89, 0xAB, 0xCD, 0xEF]

/-- The IV of the mode vectors. -/
def ivD : ByteSeq := [0x12, 0x34, 0x56, 0x78, 0x90, 0xAB, 0xCD, 0xEF]

/-- The first 16 bytes of the message of the mode vectors, "Now is the time ". -/
def msg16 : ByteSeq := [0x4E, 0x6F, 0x77, 0x20, 0x69, 0x73, 0x20, 0x74, 0x68, 0x65, 0x20, 0x74, 0x69, 0x6D, 0x65, 0x20]

/-- The key of V-F6-1. -/
def keyF : ByteSeq := [0x01, 0x23, 0x45, 0x67, 0x89, 0xAB, 0xCD, 0xEF, 0xFE, 0xDC, 0xBA, 0x98, 0x76, 0x54, 0x32, 0x10]

/-- The bytes 00 01 .. 0F. -/
def count16 : ByteSeq := [0, 1, 2, 3, 4, 5, 6, 7, 8, 9, 10, 11, 12, 13, 14, 15]

/-! ### Well-formedness: an ill-formed term for each check (30_encoding.md R58) -/

theorem test_wellFormed_padAddPkcs7 : (Instr.padAddPkcs7 256).wellFormed = false := by decide
theorem test_wellFormed_padAddAnsi : (Instr.padAddAnsi 256).wellFormed = false := by decide
theorem test_wellFormed_padAddRandom : (Instr.padAddRandom 256).wellFormed = false := by decide
theorem test_wellFormed_padAddZero : (Instr.padAddZero 256).wellFormed = false := by decide
theorem test_wellFormed_padRemovePkcs7 : (Instr.padRemovePkcs7 256).wellFormed = false := by decide
theorem test_wellFormed_padRemoveAnsi : (Instr.padRemoveAnsi 256).wellFormed = false := by decide
theorem test_wellFormed_padRemoveRandom : (Instr.padRemoveRandom 256).wellFormed = false := by decide
theorem test_wellFormed_padRemoveZero : (Instr.padRemoveZero 256).wellFormed = false := by decide
theorem test_wellFormed_accepts : (Instr.padAddPkcs7 0).wellFormed = true ∧ (Instr.padRemoveZero 255).wellFormed = true := by
  decide

/-! ### Decoding: every row's word of V-ENC-1, the illegal words of V-ENC-2 -/

/-- V-ENC-1, the control and cipher rows. -/
theorem test_decode_cipher_rows :
    decode 0x00000001 = .ok .softReset ∧ decode 0x00000002 = .ok .getConfig ∧ decode 0x00000010 = .ok .loadKeyDes
    ∧ decode 0x00000110 = .ok .loadKeyTdes ∧ decode 0x00000210 = .ok .loadKeyFeistel6
    ∧ decode 0x00000310 = .ok .loadKeyFrog ∧ decode 0x00000011 = .ok .getBlockSize ∧ decode 0x00000012 = .ok .getKeySize
    ∧ decode 0x00000013 = .ok .encryptBlock ∧ decode 0x00000014 = .ok .decryptBlock := by decide

/-- V-ENC-1, the padding rows. -/
theorem test_decode_padding_rows :
    decode 0x00080120 = .ok (.padAddPkcs7 8) ∧ decode 0x00080220 = .ok (.padAddAnsi 8)
    ∧ decode 0x00080320 = .ok (.padAddRandom 8) ∧ decode 0x00080420 = .ok (.padAddZero 8)
    ∧ decode 0x00100121 = .ok (.padRemovePkcs7 16) ∧ decode 0x00100221 = .ok (.padRemoveAnsi 16)
    ∧ decode 0x00100321 = .ok (.padRemoveRandom 16) ∧ decode 0x00100421 = .ok (.padRemoveZero 16)
    ∧ decode 0x00FF0120 = .ok (.padAddPkcs7 255) := by decide

/-- V-ENC-1, the mode rows. -/
theorem test_decode_mode_rows :
    decode 0x00001030 = .ok (.modeConfigEcb (some .pkcs7)) ∧ decode 0x00002130 = .ok (.modeConfigCbc (some .ansi))
    ∧ decode 0x00000230 = .ok (.modeConfigCfb none) ∧ decode 0x00000330 = .ok (.modeConfigOfb none)
    ∧ decode 0x00000430 = .ok (.modeConfigCtr none) ∧ decode 0x00004530 = .ok (.modeConfigPcbc (some .zero))
    ∧ decode 0x00003630 = .ok (.modeConfigRdelta (some .random)) ∧ decode 0x00000031 = .ok .modeEncrypt
    ∧ decode 0x00000032 = .ok .modeDecrypt := by decide

/-- V-ENC-2. -/
theorem test_decode_illegal_words :
    decode 0x00000000 = .error .noRow ∧ decode 0x00000003 = .error .noRow ∧ decode 0x00000015 = .error .noRow
    ∧ decode 0x00000022 = .error .noRow ∧ decode 0x00000033 = .error .noRow ∧ decode 0x000000FF = .error .noRow
    ∧ decode 0x00000410 = .error .noRow ∧ decode 0x00000020 = .error .noRow ∧ decode 0x00000520 = .error .noRow
    ∧ decode 0x00000730 = .error .noRow ∧ decode 0x00001031 = .error .noRow ∧ decode 0x00010013 = .error .noRow
    ∧ decode 0x01000031 = .error .noRow ∧ decode 0x00000111 = .error .noRow ∧ decode 0x00005030 = .error .reservedAux := by decide

/-- The encoder writes the words of V-ENC-1. -/
theorem test_encode :
    encode .loadKeyFrog = 0x00000310 ∧ encode (.padAddPkcs7 255) = 0x00FF0120
    ∧ encode (.padRemoveZero 16) = 0x00100421 ∧ encode (.modeConfigRdelta (some .random)) = 0x00003630
    ∧ encode .modeDecrypt = 0x00000032 := by decide

/-- A word placed by `withFetchWord` runs in the very next step, first after reset (V-CTL-1; 60_exceptions.md R165). -/
theorem test_withFetchWord :
    report (step (State.reset.withFetchWord 32 0x00000031)) = some (.notConfigured, 2, [])
    ∧ report (step (State.reset.withFetchWord 32 0x01000031)) = some (.illegalCommand, 0x01000031, [])
    ∧ decodeTableWord 32 0x00080120 = some (.padAddPkcs7 8) := by decide

/-! ### Control -/

/-- P4 step 11: SOFT_RESET reports OK and clears both contexts. -/
theorem test_softReset :
    reports (loaded .des keyD) 0x00000001 [] = some (.ok, 0, [])
    ∧ cipherAfter (execSoftReset (loaded .des keyD)) = some CipherContext.reset := ⟨by decide, rfl⟩

/-- V-CTL-1. -/
theorem test_getConfig_reset : reports State.reset 0x00000002 [] = some (.ok, 0, []) := by decide

/-- V-CTL-2: TDES loaded, CBC with ANSI; V-CTL-3: DES bound to CBC with PKCS7, then FROG loaded. -/
theorem test_getConfig :
    configWord (configured .tdes (rep 0 24) (.padded .cbc) (some .ansi) (rep 0 8)) = 0x00121111
    ∧ configWord { configured .des keyD (.padded .cbc) (some .pkcs7) ivD with cipher := frogIdentity.cipher }
      = 0x00011131 := by decide

/-! ### LOAD_KEY and the queries -/

/-- V-DES-3: the first and the last subkey. -/
theorem test_loadKeyDes :
    (cipherAfter (execLoadKeyDes { State.reset with operand := [0x13, 0x34, 0x57, 0x79, 0x9B, 0xBC, 0xDF, 0xF1] })).map
      (fun c => (c.valid, c.sel, (c.desKs.get 0).get 0, (c.desKs.get 0).get 15))
    = some (true, .des, 0x1B02EFFC7072, 0xCB3D8B0E17F5) := by decide +kernel

/-- P4 step 2: 7 bytes. -/
theorem test_loadKeyDes_length :
    reports State.reset 0x00000010 [0x01, 0x23, 0x45, 0x67, 0x89, 0x0A, 0xBC] = some (.invalidArgument, 1, []) := by decide

/-- V-TDES-4: a 16-byte key. -/
theorem test_loadKeyTdes_length : reports State.reset 0x00000110 (rep 0 16) = some (.invalidArgument, 1, []) := by decide

/-- 42_composite.md R111: schedule 1 comes from the second slice of the key; here the key of V-DES-3. -/
theorem test_loadKeyTdes :
    (cipherAfter (execLoadKeyTdes { State.reset with
      operand := rep 0 8 ++ [0x13, 0x34, 0x57, 0x79, 0x9B, 0xBC, 0xDF, 0xF1] ++ rep 0 8 })).map
      (fun c => (c.sel, (c.desKs.get 0).get 0, (c.desKs.get 1).get 0, (c.desKs.get 2).get 0))
    = some (.tdes, 0, 0x1B02EFFC7072, 0) := by decide +kernel

/-- 42_composite.md R115: the odd schedules come from the second half of the key; here the key of V-DES-3. -/
theorem test_loadKeyFeistel6 :
    (cipherAfter (execLoadKeyFeistel6 { State.reset with
      operand := rep 0 8 ++ [0x13, 0x34, 0x57, 0x79, 0x9B, 0xBC, 0xDF, 0xF1] })).map
      (fun c => (c.sel, (c.desKs.get 4).get 0, (c.desKs.get 5).get 0))
    = some (.feistel6, 0, 0x1B02EFFC7072) := by decide +kernel

/-- V-FROG-6: 4 and 126 bytes. -/
theorem test_loadKeyFrog_length :
    reports State.reset 0x00000310 (rep 1 4) = some (.invalidArgument, 1, [])
    ∧ reports State.reset 0x00000310 (rep 1 126) = some (.invalidArgument, 1, []) := by decide +kernel

/-- V-FROG-6: 5 and 125 bytes. -/
theorem test_loadKeyFrog :
    reports State.reset 0x00000310 (rep 1 5) = some (.ok, 0, [])
    ∧ reports State.reset 0x00000310 (rep 1 125) = some (.ok, 0, []) := by decide +kernel

/-- V-CTL-1, V-F6-4. -/
theorem test_getBlockSize :
    reports State.reset 0x00000011 [] = some (.notConfigured, 1, [])
    ∧ reports (loaded .feistel6 keyF) 0x00000011 [] = some (.ok, 16, []) := by decide

/-- V-TDES-4, V-FROG-6. -/
theorem test_getKeySize :
    reports (loaded .tdes (rep 0 24)) 0x00000012 [] = some (.ok, 24, [])
    ∧ reports frogIdentity 0x00000012 [] = some (.ok, 16, []) := by decide

/-! ### The ciphers -/

/-- V-DES-2, encryption. -/
theorem test_encryptBlock :
    reports (loaded .des [0x13, 0x34, 0x57, 0x79, 0x9B, 0xBC, 0xDF, 0xF1]) 0x00000013 keyD
    = some (.ok, 8, [0x85, 0xE8, 0x13, 0x54, 0x0F, 0x0A, 0xB4, 0x05]) := by decide +kernel

/-- V-F6-4: an 8-byte block with FEISTEL6 loaded. -/
theorem test_encryptBlock_length :
    reports (loaded .feistel6 keyF) 0x00000013 (rep 0 8) = some (.invalidArgument, 2, []) := by decide

/-- V-DES-2, decryption. -/
theorem test_decryptBlock :
    reports (loaded .des [0x13, 0x34, 0x57, 0x79, 0x9B, 0xBC, 0xDF, 0xF1]) 0x00000014
      [0x85, 0xE8, 0x13, 0x54, 0x0F, 0x0A, 0xB4, 0x05]
    = some (.ok, 8, keyD) := by decide +kernel

/-- V-DES-7: the boxes at 000000, 111111 and 100001. -/
theorem test_sboxes :
    ([boxS1, boxS2, boxS3, boxS4, boxS5, boxS6, boxS7, boxS8].map
      fun s => [sboxAt s 0b000000, sboxAt s 0b111111, sboxAt s 0b100001])
    = [[14, 13, 15], [15, 9, 13], [10, 12, 1], [7, 14, 3], [2, 3, 11], [12, 13, 4], [4, 12, 6], [13, 11, 2]] := by
  decide +kernel

/-- V-TDES-1, encryption. -/
theorem test_tdesEncrypt :
    encrypt (loaded .tdes [0x01, 0x23, 0x45, 0x67, 0x89, 0xAB, 0xCD, 0xEF, 0x23, 0x45, 0x67, 0x89, 0xAB, 0xCD, 0xEF, 0x01,
      0x45, 0x67, 0x89, 0xAB, 0xCD, 0xEF, 0x01, 0x23]).cipher (msg16.take 8)
    = [0x31, 0x4F, 0x83, 0x27, 0xFA, 0x7A, 0x09, 0xA8] := by decide +kernel

/-- V-F6-2, decryption. -/
theorem test_f6Decrypt :
    decrypt (loaded .feistel6 keyF).cipher count16
    = [0x12, 0x0F, 0x82, 0xA8, 0x46, 0xEF, 0x91, 0x94, 0xC9, 0x3D, 0x35, 0x96, 0x6A, 0xC1, 0x7A, 0x3A] := by decide +kernel

/-- V-FROG-1: the beginning of the first permutation (each entry depends on the ones before it alone). -/
theorem test_makePerm : makePermFrom [] [5, 5, 0, 5, 1, 0, 1, 2] = [5, 0, 1, 2, 3, 4, 6, 7] := by decide +kernel

/-- V-FROG-2: the last vector. -/
theorem test_undiffuse :
    undiffuse count16 = [0x0F, 0x0E, 0x03, 1, 7, 1, 3, 1, 0x0F, 1, 3, 1, 7, 1, 3, 1] := by decide

/-- V-FROG-4: eight rounds with the identity records. -/
theorem test_frogEncrypt :
    reports frogIdentity 0x00000013 count16 = some (.ok, 16, [8, 1, 2, 3, 4, 5, 6, 7, 8, 8, 8, 8, 8, 8, 8, 8]) := by
  decide +kernel

/-! ### Padding -/

/-- V-PAD-4, V-PAD-2. -/
theorem test_padAddPkcs7 :
    reports State.reset 0x00080120 [0x41, 0x42, 0x43] = some (.ok, 8, [0x41, 0x42, 0x43, 5, 5, 5, 5, 5])
    ∧ reports State.reset 0x00100120 [] = some (.ok, 16, rep 16 16) := by decide

/-- V-PAD-2: `N = 1`; V-PAD-4: block size 0. -/
theorem test_padAddAnsi :
    reports State.reset 0x00100220 (rep 0x41 15) = some (.ok, 16, rep 0x41 15 ++ [1])
    ∧ reports State.reset 0x00000220 [0x41] = some (.invalidArgument, 5, []) := by decide

/-- V-PAD-1: with the draw `AAAAAAAA`. -/
theorem test_padAddRandom :
    padAddBytes .random (fun _ => 0xAA) [0x41, 0x42, 0x43] 8 = [0x41, 0x42, 0x43, 0xAA, 0xAA, 0xAA, 0xAA, 5] := by decide

/-- V-PAD-1: nothing is added to a whole block; V-PAD-2: block size 1. -/
theorem test_padAddZero :
    reports State.reset 0x00080420 (rep 0 8) = some (.ok, 8, rep 0 8)
    ∧ reports State.reset 0x00010420 [0x41, 0x42] = some (.ok, 2, [0x41, 0x42]) := by decide

/-- V-PAD-3 and V-PAD-4. -/
theorem test_padRemovePkcs7 :
    reports State.reset 0x00080121 [0x41, 0x42, 0x43, 5, 5, 5, 5, 5] = some (.ok, 3, [0x41, 0x42, 0x43])
    ∧ (∀ a ∈ [[0x41, 0x42, 0x43, 5, 5, 5, 4, 5], [0x41, 0x42, 0x43, 5, 5, 5, 5, 0], [0x41, 0x42, 0x43, 5, 5, 5, 5, 9], [],
      [3, 3]], reports State.reset 0x00080121 a = some (.invalidPadding, 0, [])) := by decide

/-- V-PAD-3. -/
theorem test_padRemoveAnsi :
    reports State.reset 0x00080221 [0x41, 0x42, 0x43, 0, 0, 0, 0, 5] = some (.ok, 3, [0x41, 0x42, 0x43])
    ∧ reports State.reset 0x00080221 [0x41, 0x42, 0x43, 0, 0, 1, 0, 5] = some (.invalidPadding, 0, []) := by decide

/-- V-PAD-3. -/
theorem test_padRemoveRandom :
    reports State.reset 0x00080321 [0x41, 0x42, 0x43, 0xAA, 0x11, 0xFF, 0x22, 5] = some (.ok, 3, [0x41, 0x42, 0x43])
    ∧ reports State.reset 0x00080321 [0x41, 0x42, 0x43, 0, 0, 0, 0, 9] = some (.invalidPadding, 0, []) := by decide

/-- V-PAD-3: every trailing zero goes, beyond one block too (44_padding.md R140). -/
theorem test_padRemoveZero :
    reports State.reset 0x00080421 ([0x41, 0x42, 0x43] ++ rep 0 13) = some (.ok, 3, [0x41, 0x42, 0x43])
    ∧ reports State.reset 0x00080421 [] = some (.ok, 0, []) := by decide

/-! ### Modes -/

/-- V-MODE-14: a 2-byte IV for ECB. -/
theorem test_modeConfigEcb : reports (loaded .des keyD) 0x00001030 [0x12, 0x34] = some (.invalidArgument, 3, []) := by decide

/-- V-MODE-14: no scheme, whatever the IV; a 5-byte IV. -/
theorem test_modeConfigCbc :
    reports (loaded .des keyD) 0x00000130 [0x01] = some (.invalidArgument, 4, [])
    ∧ reports (loaded .des keyD) 0x00001130 [1, 2, 3, 4, 5] = some (.invalidArgument, 3, []) := by decide

/-- V-MODE-14: no cipher loaded. -/
theorem test_modeConfigCfb : reports State.reset 0x00000230 [] = some (.notConfigured, 1, []) := by decide

/-- V-MODE-16: an absent IV is zeros. -/
theorem test_modeConfigOfb :
    (modeAfter (execModeConfigOfb none (loaded .des keyD))).map (fun c => (c.valid, c.sel, c.pad, c.iv))
    = some (true, .stream .ofb, none, rep 0 8) := by decide

/-- V-MODE-14: CTR accepts a scheme. -/
theorem test_modeConfigCtr : reports (loaded .des keyD) 0x00001430 [] = some (.ok, 0, []) := by decide

/-- 45_modes.md R144, R145: PCBC needs a scheme and a whole block of IV. -/
theorem test_modeConfigPcbc :
    reports (loaded .des keyD) 0x00000530 ivD = some (.invalidArgument, 4, [])
    ∧ reports (loaded .des keyD) 0x00004530 ivD = some (.ok, 0, []) := by decide

/-- V-MODE-14: the seed `01020304` is `0x04030201`, and 3 bytes are too few. -/
theorem test_modeConfigRdelta :
    (modeAfter (execModeConfigRdelta (some .pkcs7) { loaded .des keyD with operand := [1, 2, 3, 4] })).map
      (fun c => (c.seed, c.iv)) = some (0x04030201, rep 0 8)
    ∧ reports (loaded .des keyD) 0x00001630 [1, 2, 3] = some (.invalidArgument, 3, []) := by decide

/-- V-MODE-9: ECB with ANSI on the empty message, one padding block. -/
theorem test_modeEncrypt :
    reports (configured .des keyD (.padded .ecb) (some .ansi) (rep 0 8)) 0x00000031 []
    = some (.ok, 8, [0x9E, 0x3C, 0xDF, 0x76, 0xC5, 0x62, 0x5E, 0x28]) := by decide +kernel

/-- V-MODE-15: CBC with PKCS7 on 9 bytes; V-MODE-9: ECB with PKCS7 on none. -/
theorem test_modeDecrypt :
    reports (configured .des keyD (.padded .cbc) (some .pkcs7) ivD) 0x00000032 (rep 0 9) = some (.invalidSize, 1, [])
    ∧ reports (configured .des keyD (.padded .ecb) (some .pkcs7) ivD) 0x00000032 [] = some (.invalidPadding, 0, []) := by
  decide

/-- V-MODE-2, V-MODE-3: the first two blocks of CBC. -/
theorem test_cbc :
    encryptChain .cbc (encrypt (loaded .des keyD).cipher) (fun _ => []) ivD 8 msg16
    = [0xE5, 0xC7, 0xCD, 0xDE, 0x87, 0x2B, 0xF2, 0x7C, 0x43, 0xE9, 0x34, 0x00, 0x8C, 0x38, 0x9C, 0x0F] := by decide +kernel

/-- V-MODE-3: the first two blocks of PCBC, decrypted. -/
theorem test_pcbc :
    decryptChain .pcbc (decrypt (loaded .des keyD).cipher) (fun _ => []) ivD 8
      [0xE5, 0xC7, 0xCD, 0xDE, 0x87, 0x2B, 0xF2, 0x7C, 0xCB, 0x70, 0xB7, 0x8C, 0x59, 0x49, 0x42, 0x28] = msg16 := by
  decide +kernel

/-- V-MODE-4: the first two blocks of RDELTA with `DELTA_STREAM_test`. -/
theorem test_rdelta :
    encryptChain .rdelta (encrypt (loaded .des keyD).cipher) (deltaMask (fun j => BitVec.ofNat 8 (37 * j + 11)) 8) (rep 0 8) 8
      msg16
    = [0xA6, 0x22, 0x0C, 0xC1, 0x09, 0xDD, 0xDB, 0x51, 0x7F, 0x89, 0x12, 0x2F, 0xAD, 0xF7, 0xFD, 0x73] := by decide +kernel

/-- V-MODE-5: CFB decryption of the first 11 bytes, a block and a shorter segment. -/
theorem test_cfb :
    reports (configured .des keyD (.stream .cfb) none ivD) 0x00000032
      [0xF3, 0x09, 0x62, 0x49, 0xC7, 0xF4, 0x6E, 0x51, 0xA6, 0x9E, 0x83] = some (.ok, 11, msg16.take 11) := by decide +kernel

/-- V-MODE-6: OFB encryption of the first 11 bytes. -/
theorem test_ofb :
    reports (configured .des keyD (.stream .ofb) none ivD) 0x00000031 (msg16.take 11)
    = some (.ok, 11, [0xF3, 0x09, 0x62, 0x49, 0xC7, 0xF4, 0x6E, 0x51, 0x35, 0xF2, 0x4A]) := by decide +kernel

/-- V-MODE-8: the CTR counter wraps. -/
theorem test_ctr :
    reports (configured .des keyD (.stream .ctr) none (rep 0xFF 8)) 0x00000031 (rep 0 16)
    = some (.ok, 16, [0x59, 0x73, 0x23, 0x56, 0xF3, 0x6F, 0xDE, 0x06, 0xD5, 0xD4, 0x4F, 0xF7, 0x20, 0x68, 0x3D, 0x0D]) := by
  decide +kernel

/-- V-MODE-8 (45_modes.md R160): the prefix of a 16-byte counter block is carried unchanged. -/
theorem test_ctrBlock :
    ctrBlock ([0x00, 0x11, 0x22, 0x33, 0x44, 0x55, 0x66, 0x77] ++ rep 0xFF 8) 16 1
    = [0x00, 0x11, 0x22, 0x33, 0x44, 0x55, 0x66, 0x77] ++ rep 0 8 := by decide

/-! ### Witnesses

For each statement with hypotheses, a concrete state and operands that meet all of them, for each clause. -/

theorem identity_table : FrogRecord.reset.TableIsPermutation := by
  have h : FrogRecord.reset.st.toList = List.ofFn fun i : Fin 256 => BitVec.ofNat 8 i.val := Vector.toList_ofFn
  rw [FrogRecord.TableIsPermutation, h, List.nodup_ofFn]
  intro i j hij
  have := congrArg BitVec.toNat hij
  simp only [BitVec.toNat_ofNat] at this
  omega

theorem reset_tables : CipherContext.reset.TablesPermute := by
  intro r
  simp only [CipherContext.reset, Vector.get_replicate]
  exact ⟨identity_table, identity_table⟩

/-- A context loaded with a key of legal length meets the invariant. -/
theorem loaded_inv {sel : CipherSel} {key : ByteSeq} (h : keyLenOk sel key.length = true) : (loaded sel key).cipher.Inv := by
  have ht := reset_tables
  cases sel with
  | des => exact ⟨ht, fun _ => ⟨h, rfl⟩⟩
  | tdes => exact ⟨ht, fun _ => ⟨h, rfl, rfl, rfl⟩⟩
  | feistel6 => exact ⟨ht, fun _ => ⟨h, rfl⟩⟩
  | frog =>
    have hf : ∀ r : Fin 8, ((frogForward (frogBuffer key)).get r).TableIsPermutation := fun r => by
      rw [frogForward, Vector.get_ofFn]
      exact makePerm_nodup _
    refine ⟨fun r => ⟨hf r, ?_⟩, fun _ => ⟨h, rfl, rfl⟩⟩
    change ((frogInverse (frogForward (frogBuffer key))).get r).TableIsPermutation
    rw [frogInverse, Vector.get_ofFn]
    exact invertTable_nodup (hf _)

/-- A configured mode over such a context meets the invariant. -/
theorem configured_inv {sel : CipherSel} {key iv : ByteSeq} {m : ModeSel} {pad : Option PadScheme}
    (h : keyLenOk sel key.length = true) (hp : ModeSel.needsPadding m = true → pad ≠ none)
    (hiv : iv.length = blockSize sel) : (configured sel key m pad iv).mode.Inv :=
  ⟨loaded_inv h, fun _ => ⟨loadedContext_valid .., hp, by simpa [configured, modeBlock] using hiv, fun _ => rfl⟩⟩

/-- Any cipher under any mode, with a key of the nominal size. -/
def modeState (sel : CipherSel) (m : ModeSel) (pad : Option PadScheme) (a : ByteSeq) : State :=
  { configured sel (rep 1 (keySize sel)) m pad (rep 2 (blockSize sel)) with operand := a }

theorem modeState_inv (sel : CipherSel) {m : ModeSel} {pad : Option PadScheme} (hp : ModeSel.needsPadding m = true → pad ≠ none)
    (a : ByteSeq) : (modeState sel m pad a).mode.Inv :=
  configured_inv (by rw [rep_length]; cases sel <;> decide) hp (rep_length ..)

/-- DES under CBC with PKCS7, the state of V-MODE-2. -/
def cbcState (a : ByteSeq) : State := { configured .des keyD (.padded .cbc) (some .pkcs7) ivD with operand := a }

/-- FEISTEL6 under CTR. -/
def ctrState (a : ByteSeq) : State := { configured .feistel6 keyF (.stream .ctr) none count16 with operand := a }

theorem cbcState_inv (a : ByteSeq) : (cbcState a).mode.Inv :=
  configured_inv (by decide) (by decide) (by decide)

theorem ctrState_inv (a : ByteSeq) : (ctrState a).mode.Inv :=
  configured_inv (by decide) (by decide) (by decide)

/-- An operand as long as the guaranteed minimum of `MAX_LEN` fits. -/
theorem fits (a : ByteSeq) (h : a.length ≤ 65536 := by decide) : a.length ≤ Config.maxLen := h.trans minimum_le_maxLen

theorem exists_longer (n : Nat) : ∃ a : ByteSeq, n < a.length := ⟨List.replicate (n + 1) 0, by simp⟩
theorem exists_maxLen_lt : ∃ a : ByteSeq, Config.maxLen < a.length := exists_longer _

theorem witness_DecodeInvertsEncode :
    (Instr.padAddPkcs7 255).wellFormed = true ∧ (Instr.padRemoveZero 0).wellFormed = true
    ∧ (Instr.modeConfigCbc none).wellFormed = true := by decide

theorem witness_LegalWordsEncodeBack :
    decode 0x00FF0120 = .ok (.padAddPkcs7 255) ∧ decode 0x00004630 = .ok (.modeConfigRdelta (some .zero)) := by decide

theorem witness_LegalWordsMatchOneRow :
    (∃ i, decode 0x00004630 = .ok i) ∧ auxRow 0x00000630 .modeConfigRdelta ∈ opcodeMap
    ∧ 0x0000F630#32 &&& (auxRow 0x00000630 .modeConfigRdelta).mask = (auxRow 0x00000630 .modeConfigRdelta).value :=
  ⟨⟨.modeConfigRdelta (some .zero), by decide⟩, by simp [opcodeMap, modeRows], by decide⟩

/-- One word for each line of R68, at boundary values of the fields. -/
theorem witness_ReservedWordsRaiseIllegalCommand :
    ReservedWord 0x00000000 ∧ ReservedWord 0x000000FF ∧ ReservedWord 0x00000410 ∧ ReservedWord 0x00000020
    ∧ ReservedWord 0x00000521 ∧ ReservedWord 0x00000730 ∧ ReservedWord 0x00005030 ∧ ReservedWord 0x00000131
    ∧ ReservedWord 0x00001010 ∧ ReservedWord 0x00010013 ∧ ReservedWord 0x01000031 ∧ ReservedWord 0x80000001 := by
  refine ⟨?_, ?_, ?_, ?_, ?_, ?_, ?_, ?_, ?_, ?_, ?_, ?_⟩ <;> unfold ReservedWord <;> decide

theorem witness_IllegalWordsChangeNoContext :
    (cbcState []).pending = [] ∧ ({ cbcState [] with pending := [⟨0x01000031, [1]⟩] } : State).pending = ⟨0x01000031, [1]⟩ :: []
    ∧ decode 0x01000031 = .error .noRow ∧ decode 0x00005030 = .error .reservedAux := by decide

theorem witness_StepRunsTheDecodedCommand :
    ({ cbcState [] with pending := [⟨0x31, [1]⟩, ⟨0x32, []⟩] } : State).pending = ⟨0x31, [1]⟩ :: [⟨0x32, []⟩]
    ∧ decode 0x31 = .ok .modeEncrypt := by decide

theorem witness_WaitingEngineKeepsEveryRegister : (cbcState []).pending = [] := rfl

theorem cbcState_state_inv (a : ByteSeq) (cs : List Command) : ({ cbcState a with pending := cs } : State).Inv :=
  ⟨loaded_inv (by decide), cbcState_inv a, Nat.zero_le _, fun h => absurd rfl h⟩

theorem witness_StepKeepsTheInvariant :
    ∃ s t : State, s.Inv ∧ step s = .next t ∧ s.pending ≠ [] :=
  ⟨_, _, cbcState_state_inv [] [⟨0x00000001, []⟩], rfl, by simp⟩

theorem witness_ReachableStatesAreSafe : Reachable { State.reset with pending := [⟨0x00000010, keyD⟩] } :=
  Reachable.host [⟨0x00000010, keyD⟩] Reachable.reset

theorem witness_GetBlockSizeReportsTheBlockSize :
    (loaded .des keyD).cipher.valid = true ∧ frogIdentity.cipher.valid = true ∧ State.reset.cipher.valid = false := by decide

theorem witness_GetKeySizeReportsTheNominalKeySize :
    (loaded .tdes (rep 0 24)).cipher.valid = true ∧ frogIdentity.cipher.valid = true ∧ State.reset.cipher.valid = false := by
  decide

/-- The legal lengths, both bounds of FROG's, and the illegal ones beside them. -/
theorem witness_LoadKeyDerivesAndStoresTheRoundKeys :
    (∀ n ∈ [8, 24, 16, 5, 125, 7, 25, 17, 4, 126], ({ State.reset with operand := rep 1 n } : State).operand.length = n)
    ∧ (∀ n ∈ [8, 24, 16, 5, 125, 7, 25, 17, 4, 126],
      ({ State.reset with operand := rep 1 n } : State).operand.length ≤ Config.maxLen)
    ∧ ∃ a, Config.maxLen < (cbcState a).operand.length := by
  refine ⟨fun n _ => by simp, fun n hn => ?_, exists_maxLen_lt⟩
  have : n ≤ 65536 := by simp at hn; omega
  simpa using this.trans minimum_le_maxLen

theorem witness_LoadKeyReplacesTheOldKeyInFull (sel : CipherSel) :
    ∃ s s' t t' : State, s.operand = s'.operand ∧ s.cipher ≠ s'.cipher ∧ exec (loadKeyInstr sel) s = .next t
      ∧ exec (loadKeyInstr sel) s' = .next t' ∧ t.status = .ok := by
  refine ⟨{ State.reset with operand := rep 1 (keySize sel) }, { loaded .tdes (rep 2 24) with operand := rep 1 (keySize sel) },
    finish [] 0 { State.reset with
      operand := rep 1 (keySize sel), cipher := loadedContext sel (rep 1 (keySize sel)) },
    finish [] 0 { loaded .tdes (rep 2 24) with
      operand := rep 1 (keySize sel)
      cipher := loadedContext sel (rep 1 (keySize sel)) },
    rfl, fun h => Bool.false_ne_true (congrArg CipherContext.valid h), ?_, ?_, rfl⟩ <;> cases sel <;> rfl

theorem witness_BlockCommandsTransformOneBlock :
    ((loaded .des keyD).cipher.valid = true ∧ keyD.length = blockSize (loaded .des keyD).cipher.sel)
    ∧ (frogIdentity.cipher.valid = true ∧ count16.length = blockSize frogIdentity.cipher.sel)
    ∧ State.reset.cipher.valid = false ∧ keyD.length ≠ blockSize frogIdentity.cipher.sel
    ∧ keyD.length ≤ Config.maxLen := ⟨by decide, by decide, by decide, by decide, fits keyD⟩

/-- One loaded context of each cipher; for FROG the shortest and the longest key. -/
theorem witness_LoadedCiphersInvert :
    (∀ c ∈ [(loaded .des keyD).cipher, (loaded .tdes (rep 7 24)).cipher, (loaded .feistel6 keyF).cipher,
      (loaded .frog (rep 7 5)).cipher, (loaded .frog (rep 7 125)).cipher], c.Inv ∧ c.valid = true)
    ∧ keyD.length = blockSize (loaded .des keyD).cipher.sel ∧ count16.length = blockSize (loaded .frog (rep 7 5)).cipher.sel := by
  refine ⟨fun c hc => ?_, rfl, rfl⟩
  simp only [List.mem_cons, List.not_mem_nil, or_false] at hc
  obtain rfl | rfl | rfl | rfl | rfl := hc <;> exact ⟨loaded_inv (by decide), rfl⟩

theorem witness_DesScheduleClosesAndIgnoresParity :
    keyD.length = 8 ∧ (keyD.map (· ^^^ 1)).length = 8 ∧ keyD ≠ keyD.map (· ^^^ 1)
    ∧ ∀ j : Fin 8, (keyD.getD j 0) >>> 1 = ((keyD.map (· ^^^ 1)).getD j 0) >>> 1 := by decide

theorem witness_DesDecryptInvertsEncrypt : keyD.length = 8 := rfl

theorem witness_DesComplementation : keyD.length = 8 ∧ ivD.length = 8 := ⟨rfl, rfl⟩

theorem witness_DesEqualSubkeysMakeAnInvolution :
    (∀ i, (Vector.replicate 16 (0x1B02EFFC7072#48)).get i = 0x1B02EFFC7072) ∧ keyD.length = 8 := by decide

theorem witness_TdesInvertsAndCollapses : keyD.length = 8 ∧ ivD.length = 8 := ⟨rfl, rfl⟩

theorem witness_Feistel6DecryptInvertsEncrypt : count16.length = 16 := rfl

/-- A table with a value that appears twice and one that does not, and a permutation. -/
theorem witness_MakePermReplacesDuplicatesByTheLowestUnused :
    (Vector.replicate 256 (5 : Byte)).get 1 ∈ (makePerm (Vector.replicate 256 5)).toList.take 1
    ∧ (Vector.replicate 256 (5 : Byte)).get 0 ∉ (makePerm (Vector.replicate 256 5)).toList.take 0
    ∧ FrogRecord.reset.st.toList.Nodup := by
  have key : ∀ n, (5 : Byte) ∈ (makePermFrom [] (List.replicate (n + 1) 5)).take 1 := fun n => by
    simp [List.replicate_succ, makePermFrom]
  have hl : (makePerm (Vector.replicate 256 5)).toList = makePermFrom [] (List.replicate (255 + 1) 5) := by
    rw [← Vector.toList_replicate]; rfl
  refine ⟨?_, by simp only [List.take_zero, List.not_mem_nil, not_false_eq_true], identity_table⟩
  rw [hl, Vector.get_replicate]
  exact key 255

theorem witness_InvertTableInverts : FrogRecord.reset.st.toList.Nodup := identity_table

theorem witness_UndiffuseInvertsDiffuse : count16.length = 16 := rfl

theorem witness_FrogDecryptInvertsEncrypt : count16.length = 16 := rfl

/-- The smallest and the largest block size. -/
theorem witness_PadAddAppendsThePad :
    ∀ bs ∈ [1, 8, 255], bs ≠ 0 ∧ bs ≤ 255 ∧ count16.length + (bs - count16.length % bs) ≤ Config.maxLen
      ∧ count16.length + (bs - count16.length % bs) % bs ≤ Config.maxLen := by
  have h : ∀ bs ∈ [1, 8, 255], bs ≠ 0 ∧ bs ≤ 255 ∧ count16.length + (bs - count16.length % bs) ≤ 65536
      ∧ count16.length + (bs - count16.length % bs) % bs ≤ 65536 := by decide
  exact fun bs hbs => ⟨(h bs hbs).1, (h bs hbs).2.1, (h bs hbs).2.2.1.trans minimum_le_maxLen,
    (h bs hbs).2.2.2.trans minimum_le_maxLen⟩

theorem witness_PaddingCommandsRejectBlockSizeZero : (cbcState keyD).operand.length ≤ Config.maxLen := fits keyD

/-- MODE_ENCRYPT in the state `cbcState a` computes a result longer than `a`. -/
theorem cbcState_longer (a : ByteSeq) :
    ∃ y, modeEncryptBytes (cbcState a).mode (entropyDraw (cbcState a)) a = .ok y ∧ a.length < y.length := by
  refine ⟨_, rfl, ?_⟩
  have h := padLength_pos (b := 8) (by decide) a
  have hk := keepsLengths_encStep (b := 8) (m := .cbc) (enc := encrypt (loaded .des keyD).cipher)
    (mask := modeMask (cbcState []).mode) (s := padAddBytes .pkcs7 (entropyDraw (cbcState a)) a 8) (by decide)
    (fun x hx => encrypt_length hx) (fun i => deltaMask_length ..) (dvd_padAddBytes_length (by decide))
  have hl := blockChain_segments_length (by decide) hk 0 (v := ivD) rfl
  refine lt_of_lt_of_eq ?_ hl.symm
  rw [padAddBytes_length (by decide)]
  simp only [reduceCtorEq, if_false]
  omega

theorem exists_length (n : Nat) : ∃ a : ByteSeq, a.length = n := ⟨List.replicate n 0, by simp⟩

/-- An operand of `MAX_LEN` bytes fits, and gets longer by a pad of any block size: in PAD_ADD and in MODE_ENCRYPT. -/
theorem witness_OutputsOverMaxLenAreRefused :
    ∃ a : ByteSeq, a.length ≤ Config.maxLen ∧ (cbcState a).mode.valid = true
      ∧ Config.maxLen < (padAddBytes .pkcs7 (entropyDraw (cbcState a)) a 8).length
      ∧ ∃ y, modeEncryptBytes (cbcState a).mode (entropyDraw (cbcState a)) a = .ok y ∧ Config.maxLen < y.length := by
  obtain ⟨a, ha⟩ := exists_length Config.maxLen
  obtain ⟨y, hy, hlt⟩ := cbcState_longer a
  have h := padLength_pos (b := 8) (by decide) a
  refine ⟨a, ha.le, rfl, ?_, y, hy, ha ▸ hlt⟩
  rw [padAddBytes_length (by decide), if_neg (by decide), ← ha]
  omega

/-- A full pad, a pad of one byte, and a buffer with no pad at all. -/
theorem witness_PadRemoveAcceptsExactlyThePads :
    (rep 8 8 : ByteSeq) = [] ++ List.replicate 8 (BitVec.ofNat 8 8)
    ∧ ([0x41, 1] : ByteSeq) = [0x41] ++ (List.replicate (1 - 1) 0 ++ [BitVec.ofNat 8 1])
    ∧ ([0x41, 1] : ByteSeq) = [0x41] ++ List.replicate 1 (BitVec.ofNat 8 1)
    ∧ ¬∃ (body q : ByteSeq) (n : Nat),
      ([] : ByteSeq) = body ++ q ∧ q = List.replicate n (BitVec.ofNat 8 n) ∧ 1 ≤ n ∧ n ≤ 8 := by
  refine ⟨by decide, by decide, by decide, ?_⟩
  rintro ⟨body, q, n, h, rfl, h1, -⟩
  have := congrArg List.length h
  simp at this
  omega

theorem witness_PadRemoveZeroStripsAllTrailingZeros :
    (([0x41] ++ rep 0 9 : ByteSeq) = [0x41] ++ List.replicate 9 0 ∧ ([0x41] : ByteSeq).getLast? ≠ some 0)
    ∧ (rep 0 3 : ByteSeq) = [] ++ List.replicate 3 0 ∧ ([] : ByteSeq).getLast? ≠ some 0 := by decide

theorem witness_PaddingLaws :
    (1 ≠ 0 ∧ 1 ≤ 255) ∧ (255 ≠ 0 ∧ 255 ≤ 255)
    ∧ ([0x41, 0] : ByteSeq) = [0x41] ++ List.replicate 1 0 ∧ ([0x41] : ByteSeq).getLast? ≠ some 0 := by decide

/-- Each clause: a mode configured with an IV and without, a seed of 4 bytes, no cipher, no scheme, a wrong IV. -/
theorem witness_ModeConfigBindsTheMode :
    (loaded .des keyD).cipher.valid = true ∧ ivD.length = blockSize (loaded .des keyD).cipher.sel
    ∧ 4 ≤ ([1, 2, 3, 4] : ByteSeq).length ∧ State.reset.cipher.valid = false
    ∧ ModeSel.padded .rdelta ∈ [ModeSel.padded .ecb, .padded .cbc, .padded .pcbc, .padded .rdelta]
    ∧ ¬4 ≤ ([1, 2, 3] : ByteSeq).length ∧ count16.length ≠ blockSize (loaded .des keyD).cipher.sel
    ∧ ivD.length ≤ Config.maxLen := ⟨by decide, by decide, by decide, by decide, by decide, by decide, by decide, fits ivD⟩

/-- Every cipher, mode and scheme, on the empty message and on one of two blocks of 8 bytes. -/
theorem witness_PaddedEncryptChainsTheBlocks (sel : CipherSel) (m : PaddedMode) (p : PadScheme) :
    ∀ a ∈ [[], msg16], let s := modeState sel (.padded m) (some p) a
      s.mode.Inv ∧ s.mode.valid = true ∧ s.mode.sel = .padded m ∧ s.mode.pad = some p ∧ s.operand.length ≤ Config.maxLen
      ∧ s.operand.length + (if p = .zero then (blockSize s.mode.cipher.sel - s.operand.length % blockSize s.mode.cipher.sel)
        % blockSize s.mode.cipher.sel else blockSize s.mode.cipher.sel - s.operand.length % blockSize s.mode.cipher.sel)
        ≤ Config.maxLen := by
  intro a ha s
  have hs : s.operand.length ≤ 16 := by
    simp only [List.mem_cons, List.not_mem_nil, or_false] at ha
    obtain rfl | rfl := ha
    · exact Nat.zero_le 16
    · exact (by decide : msg16.length ≤ 16)
  have hb : blockSize s.mode.cipher.sel ≤ 16 := by cases s.mode.cipher.sel <;> decide
  have hz := Nat.mod_le (blockSize s.mode.cipher.sel - s.operand.length % blockSize s.mode.cipher.sel)
    (blockSize s.mode.cipher.sel)
  have hm := minimum_le_maxLen
  refine ⟨modeState_inv sel (fun _ => by simp) a, rfl, rfl, rfl, by omega, ?_⟩
  split <;> omega

/-- Every cipher, mode and scheme, an aligned ciphertext and a misaligned one. -/
theorem witness_PaddedDecryptChainsTheBlocks (sel : CipherSel) (m : PaddedMode) (p : PadScheme) :
    (∀ a ∈ [msg16, [1]], let s := modeState sel (.padded m) (some p) a
      s.mode.Inv ∧ s.mode.valid = true ∧ s.mode.sel = .padded m ∧ s.mode.pad = some p ∧ s.operand.length ≤ Config.maxLen)
    ∧ msg16.length % blockSize sel = 0 ∧ ([1] : ByteSeq).length % blockSize sel ≠ 0 := by
  refine ⟨fun a ha => ⟨modeState_inv sel (fun _ => by simp) a, rfl, rfl, rfl, ?_⟩, by cases sel <;> rfl, by cases sel <;> decide⟩
  simp only [List.mem_cons, List.not_mem_nil, or_false] at ha
  obtain rfl | rfl := ha
  · exact fits msg16
  · exact fits [1]

/-- Every cipher and mode, on the empty message and on one that ends in a shorter segment. -/
theorem witness_StreamModesXorTheKeystream (sel : CipherSel) (m : StreamMode) :
    ∀ a ∈ [[], rep 1 17], let s := modeState sel (.stream m) none a
      s.mode.Inv ∧ s.mode.valid = true ∧ s.mode.sel = .stream m ∧ s.operand.length ≤ Config.maxLen := by
  refine fun a ha => ⟨modeState_inv sel (fun h => by cases h) a, rfl, rfl, ?_⟩
  simp only [List.mem_cons, List.not_mem_nil, or_false] at ha
  obtain rfl | rfl := ha
  · exact fits []
  · exact fits (rep 1 17)

theorem ctrState_modeEncrypt :
    ∃ t, exec .modeEncrypt (ctrState []) = .next t ∧ t.status = .ok := ⟨_, rfl, rfl⟩

/-- No mode; a MODE_ENCRYPT that fails, its message `MAX_LEN` bytes long; a MODE_DECRYPT that fails. -/
theorem witness_ModeCommandsFailOnlyAsListed :
    State.reset.mode.valid = false ∧ (cbcState [1]).mode.Inv ∧ (cbcState [1]).mode.valid = true
    ∧ (cbcState [1]).operand.length ≤ Config.maxLen
    ∧ (∃ t, exec .modeDecrypt (cbcState [1]) = .next t ∧ t.status ≠ .ok)
    ∧ ∃ a t, (cbcState a).operand.length ≤ Config.maxLen ∧ exec .modeEncrypt (cbcState a) = .next t ∧ t.status ≠ .ok := by
  refine ⟨rfl, cbcState_inv _, rfl, fits [1], ⟨_, rfl, by decide⟩, ?_⟩
  obtain ⟨a, ha, hv, -, y, hy, hlt⟩ := witness_OutputsOverMaxLenAreRefused
  refine ⟨a, raise .overMaxLen (cbcState a), ha, ?_, by simp [Cause.status]⟩
  have he : modeEncryptBytes (cbcState a).mode (entropyDraw (cbcState a)) (cbcState a).operand = .ok y := hy
  rw [exec, execModeEncrypt, withOperand_of_le ha, withMode_of_valid hv, he, withResult, succeedBounded_of_gt hlt]

/-- DES under ECB with ZERO. -/
def zeroState (a : ByteSeq) : State := { configured .des keyD (.padded .ecb) (some .zero) ivD with operand := a }

theorem zeroState_inv (a : ByteSeq) : (zeroState a).mode.Inv :=
  configured_inv (by decide) (by decide) (by decide)

theorem zeroState_modeEncrypt : ∃ t, exec .modeEncrypt (zeroState [0x41, 0]) = .next t ∧ t.status = .ok := ⟨_, rfl, rfl⟩

/-- A stream mode, and ZERO padding of a message that ends in a zero. -/
theorem witness_MessagesSurviveEncryptionAndDecryption :
    ((ctrState []).mode.Inv ∧ (ctrState []).mode.valid = true
      ∧ (∃ t, exec .modeEncrypt (ctrState []) = .next t ∧ t.status = .ok)
      ∧ ModeSel.needsPadding (ctrState []).mode.sel = false)
    ∧ (zeroState [0x41, 0]).mode.Inv ∧ (zeroState [0x41, 0]).mode.valid = true
    ∧ (∃ t, exec .modeEncrypt (zeroState [0x41, 0]) = .next t ∧ t.status = .ok)
    ∧ ModeSel.needsPadding (zeroState [0x41, 0]).mode.sel = true ∧ (zeroState [0x41, 0]).mode.pad = some .zero
    ∧ (zeroState [0x41, 0]).operand = [0x41] ++ List.replicate 1 0 ∧ ([0x41] : ByteSeq).getLast? ≠ some 0 :=
  ⟨⟨ctrState_inv _, rfl, ctrState_modeEncrypt, rfl⟩, zeroState_inv _, rfl, zeroState_modeEncrypt, rfl, rfl, rfl, by decide⟩

theorem cbcState_modeEncrypt : ∃ t, exec .modeEncrypt (cbcState [0x41]) = .next t ∧ t.status = .ok := ⟨_, rfl, rfl⟩

/-- A stream mode, a length-byte scheme, and ZERO. -/
theorem witness_CiphertextSizes :
    ((ctrState []).mode.Inv ∧ (ctrState []).mode.valid = true
      ∧ ∃ t, exec .modeEncrypt (ctrState []) = .next t ∧ t.status = .ok)
    ∧ ((cbcState [0x41]).mode.Inv ∧ (cbcState [0x41]).mode.valid = true ∧ (cbcState [0x41]).mode.pad ≠ some .zero
      ∧ ∃ t, exec .modeEncrypt (cbcState [0x41]) = .next t ∧ t.status = .ok)
    ∧ (zeroState [0x41, 0]).mode.Inv ∧ (zeroState [0x41, 0]).mode.pad = some .zero
    ∧ ∃ t, exec .modeEncrypt (zeroState [0x41, 0]) = .next t ∧ t.status = .ok :=
  ⟨⟨ctrState_inv _, rfl, ctrState_modeEncrypt⟩, ⟨cbcState_inv _, rfl, by decide, cbcState_modeEncrypt⟩, zeroState_inv _, rfl,
    zeroState_modeEncrypt⟩

theorem witness_OfbAndCtrAreSymmetric : (ctrState [1]).mode.sel = .stream .ctr := rfl

theorem witness_RdeltaWithAZeroStreamIsEcb : (8 : Nat) ≠ 0 ∧ ∀ y : ByteSeq, (desEncrypt (Vector.replicate 16 0) y).length ≤ 8 :=
  ⟨by decide, fun y => by simp⟩

theorem witness_FailedCommandsWriteOnlyTheResultRegisters :
    ∃ t, exec .modeDecrypt (cbcState [1]) = .next t ∧ t.status ≠ .ok := ⟨_, rfl, by decide⟩

theorem witness_CommandsRaiseOnlyTheirStatuses :
    (cbcState [1]).mode.Inv ∧ ∃ t, exec .modeDecrypt (cbcState [1]) = .next t ∧ t.status ≠ .ok :=
  ⟨cbcState_inv _, _, rfl, by decide⟩

theorem witness_OverlongOperandsAreRefusedFirst :
    (readsOperand .modeEncrypt = true ∧ ∃ a, Config.maxLen < (cbcState a).operand.length)
    ∧ readsOperand .getConfig = false ∧ ∃ t, exec .getConfig (cbcState []) = .next t :=
  ⟨⟨rfl, exists_maxLen_lt⟩, rfl, _, rfl⟩

theorem witness_AnsweringCommandsKeepTheContexts :
    (∃ t, exec .getConfig (cbcState []) = .next t) ∧ Instr.padAddRandom 8 = padAddInstr .random 8
    ∧ Instr.padRemoveAnsi 8 = padRemoveInstr .ansi 8 ∧ (∃ t, exec (.padRemoveAnsi 8) (cbcState []) = .next t)
    ∧ ∀ bs, Instr.getConfig ≠ .padAddRandom bs :=
  ⟨⟨_, rfl⟩, rfl, rfl, ⟨_, rfl⟩, fun _ => by simp⟩

theorem witness_LoadKeyKeepsEverythingElse (sel : CipherSel) : ∃ t, exec (loadKeyInstr sel) (cbcState (rep 1 16)) = .next t := by
  cases sel <;> exact ⟨_, rfl⟩

theorem witness_ModeConfigAndSoftResetKeepEverythingElse :
    (∃ t, exec (modeConfigInstr (.stream .ctr) none) (cbcState ivD) = .next t) ∧ ∃ t, exec .softReset (cbcState ivD) = .next t :=
  ⟨⟨_, rfl⟩, _, rfl⟩

theorem witness_LoadKeyDoesNotReachTheConfiguredMode :
    (∃ t, exec (modeConfigInstr (.stream .ctr) none) (cbcState ivD) = .next t ∧ t.status = .ok)
    ∧ (∃ t, exec (loadKeyInstr .des) (cbcState keyD) = .next t ∧ t.status = .ok
      ∧ (∃ u, exec .modeDecrypt { cbcState keyD with operand := [1] } = .next u)
      ∧ ∃ v, exec .modeDecrypt { t with operand := [1] } = .next v) :=
  ⟨⟨_, rfl, rfl⟩, _, rfl, rfl, ⟨_, rfl⟩, _, rfl⟩

theorem witness_CommandsDependOnContextsAndOperandAlone :
    ∃ s s' t t' : State, s ≠ s' ∧ s.cipher = s'.cipher ∧ s.mode = s'.mode ∧ s.operand = s'.operand
      ∧ exec .modeDecrypt s = .next t ∧ exec .modeDecrypt s' = .next t' :=
  ⟨cbcState [1], { cbcState [1] with result := 7 }, _, _, fun h => absurd (congrArg State.result h) (by decide), rfl, rfl, rfl,
    rfl, rfl⟩

theorem witness_StoredKeysAreNeverReadBack :
    ∃ t t' : State, exec .getConfig (cbcState [1]) = .next t
      ∧ exec .getConfig { cbcState [1] with cipher := { (cbcState [1]).cipher with key := [9] } } = .next t' :=
  ⟨_, _, rfl, rfl⟩

end Sys2Proof.Tests
end

/-! PROOFS. The state layer: what every step keeps, what every command answers, and the registers that no answer shows. -/

namespace Sys2Proof.Machine

open Host (Outcome)

section Families

/-! ### The commands by family -/

/-- To speak of every command it is enough to speak of each family of commands once. -/
theorem instr_familyInduction {motive : Instr → Prop} (softReset : motive .softReset)
    (getConfig : motive .getConfig) (loadKey : ∀ sel, motive (loadKeyInstr sel)) (getBlockSize : motive .getBlockSize)
    (getKeySize : motive .getKeySize) (encryptBlock : motive .encryptBlock) (decryptBlock : motive .decryptBlock)
    (padAdd : ∀ p bs, motive (padAddInstr p bs)) (padRemove : ∀ p bs, motive (padRemoveInstr p bs))
    (modeConfig : ∀ m pad, motive (modeConfigInstr m pad)) (modeEncrypt : motive .modeEncrypt)
    (modeDecrypt : motive .modeDecrypt) : ∀ i, motive i
  | .softReset => softReset
  | .getConfig => getConfig
  | .loadKeyDes => loadKey .des
  | .loadKeyTdes => loadKey .tdes
  | .loadKeyFeistel6 => loadKey .feistel6
  | .loadKeyFrog => loadKey .frog
  | .getBlockSize => getBlockSize
  | .getKeySize => getKeySize
  | .encryptBlock => encryptBlock
  | .decryptBlock => decryptBlock
  | .padAddPkcs7 bs => padAdd .pkcs7 bs
  | .padAddAnsi bs => padAdd .ansi bs
  | .padAddRandom bs => padAdd .random bs
  | .padAddZero bs => padAdd .zero bs
  | .padRemovePkcs7 bs => padRemove .pkcs7 bs
  | .padRemoveAnsi bs => padRemove .ansi bs
  | .padRemoveRandom bs => padRemove .random bs
  | .padRemoveZero bs => padRemove .zero bs
  | .modeConfigEcb pad => modeConfig (.padded .ecb) pad
  | .modeConfigCbc pad => modeConfig (.padded .cbc) pad
  | .modeConfigCfb pad => modeConfig (.stream .cfb) pad
  | .modeConfigOfb pad => modeConfig (.stream .ofb) pad
  | .modeConfigCtr pad => modeConfig (.stream .ctr) pad
  | .modeConfigPcbc pad => modeConfig (.padded .pcbc) pad
  | .modeConfigRdelta pad => modeConfig (.padded .rdelta) pad
  | .modeEncrypt => modeEncrypt
  | .modeDecrypt => modeDecrypt

@[simp] theorem exec_loadKeyInstr (sel : CipherSel) (s : State) : exec (loadKeyInstr sel) s = loadKey sel s := by
  cases sel <;> rfl

@[simp] theorem exec_padAddInstr (p : PadScheme) (bs : Nat) (s : State) :
    exec (padAddInstr p bs) s = padAdd p bs s := by
  cases p <;> rfl

@[simp] theorem exec_padRemoveInstr (p : PadScheme) (bs : Nat) (s : State) :
    exec (padRemoveInstr p bs) s = padRemove p bs s := by
  cases p <;> rfl

@[simp] theorem exec_modeConfigInstr (m : ModeSel) (pad : Option PadScheme) (s : State) :
    exec (modeConfigInstr m pad) s = modeConfig m pad s := by
  obtain m | m := m <;> cases m <;> rfl

end Families

section Contexts

/-! ### The invariant of the contexts -/

theorem FrogRecord.tableIsPermutation_reset : FrogRecord.reset.TableIsPermutation := by
  have hl : FrogRecord.reset.st.toList = List.ofFn fun i : Fin 256 => BitVec.ofNat 8 i.val := Vector.toList_ofFn
  rw [FrogRecord.TableIsPermutation, hl, List.nodup_ofFn]
  intro i j hij
  have hval := congrArg BitVec.toNat hij
  simp only [BitVec.toNat_ofNat] at hval
  omega

theorem CipherContext.tablesPermute_reset : CipherContext.reset.TablesPermute := by
  intro r
  simp only [CipherContext.reset, Vector.get_replicate]
  exact ⟨FrogRecord.tableIsPermutation_reset, FrogRecord.tableIsPermutation_reset⟩

theorem CipherContext.inv_reset : CipherContext.reset.Inv := ⟨tablesPermute_reset, fun h => nomatch h⟩

theorem ModeContext.inv_reset : ModeContext.reset.Inv := ⟨CipherContext.inv_reset, fun h => nomatch h⟩

theorem tableIsPermutation_frogForward (buf : Nat → Byte) (r : Fin 8) :
    ((frogForward buf).get r).TableIsPermutation := by
  rw [frogForward, Vector.get_ofFn]
  exact makePerm_nodup _

theorem tableIsPermutation_frogInverse (buf : Nat → Byte) (r : Fin 8) :
    ((frogInverse (frogForward buf)).get r).TableIsPermutation := by
  rw [frogInverse, Vector.get_ofFn]
  exact invertTable_nodup (tableIsPermutation_frogForward buf r.rev)

theorem loadedContext_tablesPermute (sel : CipherSel) (k : ByteSeq) : (loadedContext sel k).TablesPermute := by
  intro r
  by_cases hs : sel = .frog
  · subst hs
    rw [loadedContext_frog_frogRk, loadedContext_frog_frogIrk]
    exact ⟨tableIsPermutation_frogForward _ r, tableIsPermutation_frogInverse _ r⟩
  · rw [loadedContext_frogRk_of_ne hs, loadedContext_frogIrk_of_ne hs]
    exact CipherContext.tablesPermute_reset r

theorem loadedContext_keysDerived (sel : CipherSel) (k : ByteSeq) : (loadedContext sel k).KeysDerived := by
  cases sel with
  | des => rfl
  | tdes => exact ⟨rfl, rfl, rfl⟩
  | feistel6 => rfl
  | frog => exact ⟨rfl, rfl⟩

/-- A key of legal length loads a context that meets the invariant (10_state.md R26). -/
theorem loadedContext_inv {sel : CipherSel} {k : ByteSeq} (hk : keyLenOk sel k.length = true) :
    (loadedContext sel k).Inv :=
  ⟨loadedContext_tablesPermute sel k, fun _ => ⟨by simpa using hk, loadedContext_keysDerived sel k⟩⟩

/-- The IV template has the block size, and only RDELTA takes a seed (10_state.md R30, R31). -/
theorem ivAndSeed_some {m : ModeSel} {b : Nat} {a iv : ByteSeq} {seed : BitVec 32}
    (h : ivAndSeed m b a = some (iv, seed)) : iv.length = b ∧ (m ≠ .padded .rdelta → seed = 0) := by
  unfold ivAndSeed at h
  split at h
  next hm =>
    split at h
    · cases h
    · cases h
      exact ⟨rep_length .., fun hne => absurd hm hne⟩
  next =>
    split at h
    · cases h
    next hlen =>
      cases h
      refine ⟨?_, fun _ => rfl⟩
      split
      · exact rep_length ..
      next hne => exact not_not.mp fun hb => hlen ⟨hne, hb⟩

end Contexts

section Lengths

/-! ### How long a decrypted message is -/

theorem decryptChain_length {c : ModeContext} {m : PaddedMode} {a : ByteSeq} (hiv : c.iv.length = modeBlock c)
    (ha : modeBlock c ∣ a.length) :
    (decryptChain m (decrypt c.cipher) (modeMask c) c.iv (modeBlock c) a).length = a.length :=
  have hb := modeBlock_ne_zero c
  blockChain_segments_length hb
    (keepsLengths_decStep hb (fun _ => decrypt_length) (deltaMask_length _ _) ha) 0 hiv

theorem streamCrypt_length {c : ModeContext} {m : StreamMode} {dir : Direction} (hiv : c.iv.length = modeBlock c)
    (a : ByteSeq) : (streamCrypt m dir (encrypt c.cipher) c.iv (modeBlock c) a).length = a.length := by
  rw [streamCrypt, streamChain_eq_blockChain]
  exact blockChain_segments_length (modeBlock_ne_zero c)
    (keepsLengths_streamStep (eight_le_modeBlock c) hiv fun _ => encrypt_length) 0 hiv

/-- A padded message decrypts to the front of what the block loop gives. -/
theorem paddedDecrypt_ok {c : ModeContext} {m : PaddedMode} {p : PadScheme} {a y : ByteSeq}
    (h : paddedDecrypt c m p a = .ok y) :
    modeBlock c ∣ a.length
    ∧ ∃ n, y = (decryptChain m (decrypt c.cipher) (modeMask c) c.iv (modeBlock c) a).take n := by
  unfold paddedDecrypt at h
  split at h
  · cases h
  next ha =>
    dsimp only at h
    split at h
    · cases h
    · cases h
      exact ⟨Nat.dvd_of_mod_eq_zero (not_not.mp ha), _, rfl⟩

/-- MODE_DECRYPT never answers more bytes than it read. -/
theorem modeDecryptBytes_length_le {c : ModeContext} {a y : ByteSeq} (hiv : c.iv.length = modeBlock c)
    (h : modeDecryptBytes c a = .ok y) : y.length ≤ a.length := by
  unfold modeDecryptBytes at h
  split at h
  · split at h
    · cases h
    · obtain ⟨ha, n, rfl⟩ := paddedDecrypt_ok h
      exact (List.length_take_le' ..).trans (decryptChain_length hiv ha).le
  · cases h
    exact (streamCrypt_length hiv a).le

theorem blockSize_le_maxLen (sel : CipherSel) : blockSize sel ≤ Config.maxLen :=
  le_trans (by cases sel <;> decide) minimum_le_maxLen

end Lengths

section Invariant

/-! ### Every command keeps the invariant -/

theorem State.inv_reset : State.reset.Inv :=
  ⟨CipherContext.inv_reset, ModeContext.inv_reset, Nat.zero_le _, fun h => absurd rfl h⟩

/-- A failed command keeps the invariant: it leaves `OUT` empty and both contexts alone. -/
theorem State.Inv.raise {s : State} (hs : s.Inv) (c : Cause) : (Machine.raise c s).Inv := by
  obtain ⟨hc, hm, -, -⟩ := hs
  exact ⟨hc, hm, Nat.zero_le _, fun _ => rfl⟩

/-- A successful command keeps the invariant when the contexts it leaves do and its output fits. -/
theorem State.inv_finish {y : ByteSeq} {r : Word} {s : State} (hc : s.cipher.Inv) (hm : s.mode.Inv)
    (hy : y.length ≤ Config.maxLen) : (finish y r s).Inv :=
  ⟨hc, hm, hy, fun h => absurd rfl h⟩

variable {s t : State} (hs : s.Inv)
include hs

theorem loadKey_keeps_inv {sel : CipherSel} (h : loadKey sel s = .next t) : t.Inv := by
  obtain ⟨-, hk, rfl⟩ | ⟨-, -, rfl⟩ | ⟨-, rfl⟩ := loadKey_cases h
  · obtain ⟨-, hm, -, -⟩ := hs
    exact State.inv_finish (loadedContext_inv hk) hm (Nat.zero_le _)
  · exact hs.raise _
  · exact hs.raise _

theorem blockCommand_keeps_inv {f : CipherContext → ByteSeq → ByteSeq}
    (hf : ∀ c x, x.length = blockSize c.sel → (f c x).length = blockSize c.sel) (h : blockCommand f s = .next t) :
    t.Inv := by
  obtain ⟨-, -, hb, rfl⟩ | ⟨-, -, -, rfl⟩ | ⟨-, -, rfl⟩ | ⟨-, rfl⟩ := blockCommand_cases h
  · obtain ⟨hc, hm, -, -⟩ := hs
    exact State.inv_finish hc hm ((hf _ _ hb).trans_le (blockSize_le_maxLen _))
  · exact hs.raise _
  · exact hs.raise _
  · exact hs.raise _

theorem padAdd_keeps_inv {p : PadScheme} {bs : Nat} (h : padAdd p bs s = .next t) : t.Inv := by
  obtain ⟨-, -, hy, rfl⟩ | ⟨-, -, -, rfl⟩ | ⟨-, -, rfl⟩ | ⟨-, rfl⟩ := padAdd_cases h
  · obtain ⟨hc, hm, -, -⟩ := hs
    exact State.inv_finish hc hm hy
  · exact hs.raise _
  · exact hs.raise _
  · exact hs.raise _

theorem padRemove_keeps_inv {p : PadScheme} {bs : Nat} (h : padRemove p bs s = .next t) : t.Inv := by
  obtain ⟨n, hl, -, -, rfl⟩ | ⟨c, -, -, -, rfl⟩ | ⟨-, -, rfl⟩ | ⟨-, rfl⟩ := padRemove_cases h
  · obtain ⟨hc, hm, -, -⟩ := hs
    exact State.inv_finish hc hm ((List.length_take_le' ..).trans hl)
  · exact hs.raise _
  · exact hs.raise _
  · exact hs.raise _

/-- A configured mode meets the invariant: the checks of MODE_CONFIG give each of its clauses (45_modes.md R144). -/
theorem modeConfig_keeps_inv {m : ModeSel} {pad : Option PadScheme} (h : modeConfig m pad s = .next t) : t.Inv := by
  obtain ⟨iv, seed, -, hv, hp, hi, rfl⟩ | ⟨-, -, -, -, rfl⟩ | ⟨-, -, -, rfl⟩ | ⟨-, -, rfl⟩ | ⟨-, rfl⟩ :=
    modeConfig_cases h
  · obtain ⟨hc, -, -, -⟩ := hs
    obtain ⟨hiv, hseed⟩ := ivAndSeed_some hi
    have hpad : ModeSel.needsPadding m = true → pad ≠ none := by rintro hn rfl; simp [hn] at hp
    exact State.inv_finish hc ⟨hc, fun _ => ⟨hv, hpad, hiv, hseed⟩⟩ (Nat.zero_le _)
  · exact hs.raise _
  · exact hs.raise _
  · exact hs.raise _
  · exact hs.raise _

theorem modeEncrypt_keeps_inv (h : execModeEncrypt s = .next t) : t.Inv := by
  obtain ⟨y, -, -, -, hy, rfl⟩ | ⟨y, -, -, -, -, rfl⟩ | ⟨c, -, -, -, rfl⟩ | ⟨-, -, rfl⟩ | ⟨-, rfl⟩ :=
    modeEncrypt_cases h
  · obtain ⟨hc, hm, -, -⟩ := hs
    exact State.inv_finish hc hm hy
  · exact hs.raise _
  · exact hs.raise _
  · exact hs.raise _
  · exact hs.raise _

/-- MODE_DECRYPT does not check its output's length: the IV template's length bounds it (10_state.md R30). -/
theorem modeDecrypt_keeps_inv (h : execModeDecrypt s = .next t) : t.Inv := by
  obtain ⟨y, hl, hv, hy, rfl⟩ | ⟨c, -, -, -, rfl⟩ | ⟨-, -, rfl⟩ | ⟨-, rfl⟩ := modeDecrypt_cases h
  · obtain ⟨hc, hm, -, -⟩ := hs
    obtain ⟨-, -, hiv, -⟩ := hm.2 hv
    exact State.inv_finish hc hm ((modeDecryptBytes_length_le hiv hy).trans hl)
  · exact hs.raise _
  · exact hs.raise _
  · exact hs.raise _

/-- The two queries succeed with no output when a cipher is loaded. -/
theorem query_keeps_inv {q : CipherContext → Word} (h : (withCipher s fun c => succeed [] (q c) s) = .next t) : t.Inv := by
  obtain ⟨-, h⟩ | ⟨-, rfl⟩ := withCipher_cases h
  · obtain ⟨hc, hm, -, -⟩ := hs
    obtain rfl := Outcome.next.inj h
    exact State.inv_finish hc hm (Nat.zero_le _)
  · exact hs.raise _

theorem exec_keeps_inv {i : Instr} (h : exec i s = .next t) : t.Inv := by
  induction i using instr_familyInduction with
  | softReset =>
    obtain rfl := Outcome.next.inj h
    exact State.inv_finish CipherContext.inv_reset ModeContext.inv_reset (Nat.zero_le _)
  | getConfig =>
    obtain ⟨hc, hm, -, -⟩ := hs
    obtain rfl := Outcome.next.inj h
    exact State.inv_finish hc hm (Nat.zero_le _)
  | loadKey sel => exact loadKey_keeps_inv hs (exec_loadKeyInstr sel s ▸ h)
  | getBlockSize => exact query_keeps_inv hs (q := fun c => BitVec.ofNat 32 (blockSize c.sel)) h
  | getKeySize => exact query_keeps_inv hs (q := fun c => BitVec.ofNat 32 (keySize c.sel)) h
  | encryptBlock => exact blockCommand_keeps_inv hs (fun _ _ => encrypt_length) h
  | decryptBlock => exact blockCommand_keeps_inv hs (fun _ _ => decrypt_length) h
  | padAdd p bs => exact padAdd_keeps_inv hs (exec_padAddInstr p bs s ▸ h)
  | padRemove p bs => exact padRemove_keeps_inv hs (exec_padRemoveInstr p bs s ▸ h)
  | modeConfig m pad => exact modeConfig_keeps_inv hs (exec_modeConfigInstr m pad s ▸ h)
  | modeEncrypt => exact modeEncrypt_keeps_inv hs h
  | modeDecrypt => exact modeDecrypt_keeps_inv hs h

/-- Accepting a command touches neither the contexts nor the result registers, so the invariant passes to the command. -/
theorem step_keeps_inv (h : step s = .next t) : t.Inv := by
  obtain ⟨-, rfl⟩ | ⟨c, rest, i, -, -, h⟩ | ⟨c, rest, e, -, -, rfl⟩ := step_cases h
  · exact hs
  · have hacc : (accept c rest s).Inv := hs
    exact exec_keeps_inv hacc h
  · have hacc : (accept c rest s).Inv := hs
    exact hacc.raise _

end Invariant

/-- Settles O10: the case of an accepted command is the invariant lemma of its family. -/
theorem stepKeepsTheInvariant : Obligations.StepKeepsTheInvariant := by
  unfold Obligations.StepKeepsTheInvariant
  exact fun _ _ hs h => step_keeps_inv hs h

/-- Settles O7: accepting the command is the record update of the statement. -/
theorem stepRunsTheDecodedCommand : Obligations.StepRunsTheDecodedCommand := by
  unfold Obligations.StepRunsTheDecodedCommand
  intro s w a rest i hp hd
  rw [step_of_pending hp, issue_of_ok hd]
  rfl

section ConfigurationWord

/-! ### The configuration word -/

/-- Each field of a word laid out as in 10_state.md R38 is read back: the fields below it are dropped, those above it cut. -/
theorem extractLsb'_configLayout (bound pad mode cipher : BitVec 4) (modeValid cipherValid : BitVec 1) :
    let w : BitVec (8 + 4 + 4 + 4 + 3 + 1 + 4 + 3 + 1) :=
      0#8 ++ bound ++ pad ++ mode ++ 0#3 ++ modeValid ++ cipher ++ 0#3 ++ cipherValid
    w.extractLsb' 0 1 = cipherValid ∧ w.extractLsb' 1 3 = 0 ∧ w.extractLsb' 4 4 = cipher
    ∧ w.extractLsb' 8 1 = modeValid ∧ w.extractLsb' 9 3 = 0 ∧ w.extractLsb' 12 4 = mode
    ∧ w.extractLsb' 16 4 = pad ∧ w.extractLsb' 20 4 = bound ∧ w.extractLsb' 24 8 = 0 := by
  simp (disch := decide) only [BitVec.extractLsb'_append_eq_of_le, BitVec.extractLsb'_append_eq_of_add_le,
    Nat.reduceSub, BitVec.extractLsb'_eq_self]
  decide

end ConfigurationWord

/-- Settles O14: the word is `configWord`, whose layout is that of the statement. -/
theorem getConfigReportsTheConfigurationWord : Obligations.GetConfigReportsTheConfigurationWord := by
  unfold Obligations.GetConfigReportsTheConfigurationWord
  exact ⟨by decide, fun s => ⟨configWord s, rfl, extractLsb'_configLayout ..⟩⟩

section Answers

/-! ### What a command answers -/

/-- Both commands complete, with the same status, result and output. -/
def AnswerAlike (o o' : Out) : Prop :=
  ∃ t t', o = .next t ∧ o' = .next t' ∧ t.status = t'.status ∧ t.result = t'.result ∧ t.out = t'.out

variable {s s' : State}

theorem AnswerAlike.fail (c : Cause) : AnswerAlike (fail c s) (fail c s') := ⟨_, _, rfl, rfl, rfl, rfl, rfl⟩

theorem AnswerAlike.succeed (y : ByteSeq) (r : Word) : AnswerAlike (succeed y r s) (succeed y r s') :=
  ⟨_, _, rfl, rfl, rfl, rfl, rfl⟩

theorem AnswerAlike.succeedBounded (y : ByteSeq) (n : Nat) :
    AnswerAlike (succeedBounded y n s) (succeedBounded y n s') := by
  unfold Machine.succeedBounded
  split
  · exact .succeed ..
  · exact .fail _

theorem AnswerAlike.withOperand {k k' : ByteSeq → Out} (hk : AnswerAlike (k s'.operand) (k' s'.operand))
    (h : s.operand = s'.operand := by rfl) : AnswerAlike (withOperand s k) (withOperand s' k') := by
  unfold Machine.withOperand
  rw [h]
  split
  · exact hk
  · exact .fail _

theorem AnswerAlike.withCipher {k k' : CipherContext → Out} (hk : AnswerAlike (k s.cipher) (k' s'.cipher))
    (h : s.cipher.valid = s'.cipher.valid := by rfl) : AnswerAlike (withCipher s k) (withCipher s' k') := by
  unfold Machine.withCipher
  rw [h]
  split
  · exact hk
  · exact .fail _

theorem AnswerAlike.withMode {k k' : ModeContext → Out} (hk : AnswerAlike (k s.mode) (k' s'.mode))
    (h : s.mode.valid = s'.mode.valid := by rfl) : AnswerAlike (withMode s k) (withMode s' k') := by
  unfold Machine.withMode
  rw [h]
  split
  · exact hk
  · exact .fail _

theorem AnswerAlike.withBlockSize (bs : Nat) {k k' : Nat → Out} (hk : AnswerAlike (k bs) (k' bs)) :
    AnswerAlike (withBlockSize bs s k) (withBlockSize bs s' k') := by
  unfold Machine.withBlockSize
  split
  · exact .fail _
  · exact hk

theorem AnswerAlike.withBlock (b : Nat) (a : ByteSeq) {k k' : ByteSeq → Out} (hk : AnswerAlike (k a) (k' a)) :
    AnswerAlike (withBlock b a s k) (withBlock b a s' k') := by
  unfold Machine.withBlock
  split
  · exact hk
  · exact .fail _

theorem AnswerAlike.withResult {α : Type} (r : Except Cause α) {k k' : α → Out} (hk : ∀ y, AnswerAlike (k y) (k' y)) :
    AnswerAlike (withResult r s k) (withResult r s' k') := by
  cases r with
  | ok y => exact hk y
  | error c => exact .fail c

end Answers

section StoredKeys

/-! ### The stored keys -/

/-- `s` with other bytes in `C_KEY` and in `M_CIPHER`'s copy of it, every other register the same. -/
def State.withStoredKeys (s : State) (k k' : ByteSeq) : State :=
  { s with
    cipher := { s.cipher with key := k }
    mode := { s.mode with cipher := { s.mode.cipher with key := k' } } }

variable (s : State) (k k' : ByteSeq)

/-! What the commands read of the registers: the round keys, not the key they were derived from. -/

@[simp] theorem withStoredKeys_cipher_sel : (s.withStoredKeys k k').cipher.sel = s.cipher.sel := rfl

@[simp] theorem configWord_withStoredKeys : configWord (s.withStoredKeys k k') = configWord s := rfl

@[simp] theorem encrypt_withStoredKeys : encrypt (s.withStoredKeys k k').cipher = encrypt s.cipher := rfl

@[simp] theorem decrypt_withStoredKeys : decrypt (s.withStoredKeys k k').cipher = decrypt s.cipher := rfl

@[simp] theorem entropyDraw_withStoredKeys : entropyDraw (s.withStoredKeys k k') = entropyDraw s := rfl

@[simp] theorem modeEncryptBytes_withStoredKeys :
    modeEncryptBytes (s.withStoredKeys k k').mode = modeEncryptBytes s.mode := rfl

@[simp] theorem modeBytesDrawn_withStoredKeys :
    modeBytesDrawn (s.withStoredKeys k k').mode = modeBytesDrawn s.mode := rfl

@[simp] theorem modeDecryptBytes_withStoredKeys :
    modeDecryptBytes (s.withStoredKeys k k').mode = modeDecryptBytes s.mode := rfl

theorem getConfig_ignores_storedKeys : AnswerAlike (execGetConfig s) (execGetConfig (s.withStoredKeys k k')) := by
  rw [execGetConfig, execGetConfig, configWord_withStoredKeys]
  exact .succeed ..

theorem loadKey_ignores_storedKeys (sel : CipherSel) :
    AnswerAlike (loadKey sel s) (loadKey sel (s.withStoredKeys k k')) := by
  refine .withOperand ?_
  split
  · exact .succeed ..
  · exact .fail _

theorem getBlockSize_ignores_storedKeys :
    AnswerAlike (execGetBlockSize s) (execGetBlockSize (s.withStoredKeys k k')) := by
  refine .withCipher ?_
  rw [withStoredKeys_cipher_sel]
  exact .succeed ..

theorem getKeySize_ignores_storedKeys :
    AnswerAlike (execGetKeySize s) (execGetKeySize (s.withStoredKeys k k')) := by
  refine .withCipher ?_
  rw [withStoredKeys_cipher_sel]
  exact .succeed ..

theorem blockCommand_ignores_storedKeys {f : CipherContext → ByteSeq → ByteSeq}
    (hf : f (s.withStoredKeys k k').cipher = f s.cipher) :
    AnswerAlike (blockCommand f s) (blockCommand f (s.withStoredKeys k k')) := by
  refine .withOperand (.withCipher ?_)
  rw [withStoredKeys_cipher_sel, hf]
  exact .withBlock _ _ (.succeed ..)

theorem padAdd_ignores_storedKeys (p : PadScheme) (bs : Nat) :
    AnswerAlike (padAdd p bs s) (padAdd p bs (s.withStoredKeys k k')) := by
  refine .withOperand (.withBlockSize bs ?_)
  rw [entropyDraw_withStoredKeys]
  exact .succeedBounded ..

theorem padRemove_ignores_storedKeys (p : PadScheme) (bs : Nat) :
    AnswerAlike (padRemove p bs s) (padRemove p bs (s.withStoredKeys k k')) :=
  .withOperand (.withBlockSize bs (.withResult _ fun _ => .succeed ..))

theorem modeConfig_ignores_storedKeys (m : ModeSel) (pad : Option PadScheme) :
    AnswerAlike (modeConfig m pad s) (modeConfig m pad (s.withStoredKeys k k')) := by
  refine .withOperand (.withCipher ?_)
  rw [withStoredKeys_cipher_sel]
  split
  · exact .fail _
  · split
    · exact .fail _
    · exact .succeed ..

theorem modeEncrypt_ignores_storedKeys :
    AnswerAlike (execModeEncrypt s) (execModeEncrypt (s.withStoredKeys k k')) := by
  refine .withOperand (.withMode ?_)
  rw [modeEncryptBytes_withStoredKeys, entropyDraw_withStoredKeys, modeBytesDrawn_withStoredKeys]
  exact .withResult _ fun _ => .succeedBounded ..

theorem modeDecrypt_ignores_storedKeys :
    AnswerAlike (execModeDecrypt s) (execModeDecrypt (s.withStoredKeys k k')) := by
  refine .withOperand (.withMode ?_)
  rw [modeDecryptBytes_withStoredKeys]
  exact .withResult _ fun _ => .succeed ..

theorem exec_ignores_storedKeys (i : Instr) : AnswerAlike (exec i s) (exec i (s.withStoredKeys k k')) := by
  induction i using instr_familyInduction with
  | softReset => exact .succeed ..
  | getConfig => exact getConfig_ignores_storedKeys s k k'
  | loadKey sel => simpa using loadKey_ignores_storedKeys s k k' sel
  | getBlockSize => exact getBlockSize_ignores_storedKeys s k k'
  | getKeySize => exact getKeySize_ignores_storedKeys s k k'
  | encryptBlock => exact blockCommand_ignores_storedKeys s k k' (encrypt_withStoredKeys ..)
  | decryptBlock => exact blockCommand_ignores_storedKeys s k k' (decrypt_withStoredKeys ..)
  | padAdd p bs => simpa using padAdd_ignores_storedKeys s k k' p bs
  | padRemove p bs => simpa using padRemove_ignores_storedKeys s k k' p bs
  | modeConfig m pad => simpa using modeConfig_ignores_storedKeys s k k' m pad
  | modeEncrypt => exact modeEncrypt_ignores_storedKeys s k k'
  | modeDecrypt => exact modeDecrypt_ignores_storedKeys s k k'

end StoredKeys

/-- Settles O59: both runs are the ones that answer alike. -/
theorem storedKeysAreNeverReadBack : Obligations.StoredKeysAreNeverReadBack := by
  unfold Obligations.StoredKeysAreNeverReadBack
  intro i s t t' k k' s' h h'
  obtain ⟨u, u', hu, hu', hanswer⟩ := exec_ignores_storedKeys s k k' i
  obtain rfl := Outcome.next.inj (h.symm.trans hu)
  obtain rfl := Outcome.next.inj (h'.symm.trans hu')
  exact hanswer

section Runs

/-! ### Runs from reset -/

/-- Answering alike says that both commands complete, whatever the stored keys are replaced by. -/
theorem exec_completes (i : Instr) (s : State) : ∃ t, exec i s = .next t :=
  have ⟨t, _, h, _⟩ := exec_ignores_storedKeys s [] [] i
  ⟨t, h⟩

theorem step_completes (s : State) : ∃ t, step s = .next t := by
  cases hp : s.pending with
  | nil => exact ⟨s, by simp [step, hp]⟩
  | cons c rest =>
    rw [step_of_pending hp]
    cases hd : decode c.word with
    | ok i => exact issue_of_ok hd exec _ ▸ exec_completes i _
    | error e => exact ⟨_, issue_of_error hd exec _⟩

/-- What a run keeps: reset meets the invariant, the host touches no register, and every step keeps it. -/
theorem Reachable.inv {s : State} (h : Reachable s) : s.Inv := by
  induction h with
  | reset => exact State.inv_reset
  | host cs _ ih => exact ih
  | engine _ hstep ih => exact step_keeps_inv ih hstep

end Runs

/-- Settles O12: the invariant along the run, and a step from any state at all. -/
theorem reachableStatesAreSafe : Obligations.ReachableStatesAreSafe := by
  unfold Obligations.ReachableStatesAreSafe
  exact fun s h => ⟨h.inv, step_completes s⟩

end Sys2Proof.Machine

/-! PROOFS. The data spaces: the bounds on the operand and the output, and the registers that a command's answer and the
contexts it leaves depend on. -/

namespace Sys2Proof.Machine

open Host (Outcome)

section Bounds

/-! ### Outputs and operands longer than `MAX_LEN` -/

variable {s t : State}

/-- R43 for PAD_ADD: a padded buffer that does not fit is refused. -/
theorem padAdd_of_overlong_output {p : PadScheme} {bs : Nat} (ha : s.operand.length ≤ Config.maxLen) (hb : bs ≠ 0)
    (hy : Config.maxLen < (padAddBytes p (entropyDraw s) s.operand bs).length) :
    padAdd p bs s = .next (raise .overMaxLen s) := by
  rw [padAdd, withOperand_of_le ha, withBlockSize_of_ne hb, succeedBounded_of_gt hy]

/-- R43 for MODE_ENCRYPT: a ciphertext that does not fit is refused. -/
theorem modeEncrypt_of_overlong_output {y : ByteSeq} (ha : s.operand.length ≤ Config.maxLen)
    (hv : s.mode.valid = true) (he : modeEncryptBytes s.mode (entropyDraw s) s.operand = .ok y)
    (hy : Config.maxLen < y.length) : execModeEncrypt s = .next (raise .overMaxLen s) := by
  rw [execModeEncrypt, withOperand_of_le ha, withMode_of_valid hv, he, withResult, succeedBounded_of_gt hy]

/-- A command that reads `A` begins with the check of its length (60_exceptions.md R166 step 2). -/
theorem exec_eq_withOperand {i : Instr} (hr : readsOperand i = true) (s : State) :
    ∃ k, exec i s = withOperand s k := by
  induction i using instr_familyInduction with
  | softReset => cases hr
  | getConfig => cases hr
  | loadKey sel => exact ⟨_, exec_loadKeyInstr sel s⟩
  | getBlockSize => cases hr
  | getKeySize => cases hr
  | encryptBlock => exact ⟨_, show blockCommand encrypt s = _ from rfl⟩
  | decryptBlock => exact ⟨_, show blockCommand decrypt s = _ from rfl⟩
  | padAdd p bs => exact ⟨_, exec_padAddInstr p bs s⟩
  | padRemove p bs => exact ⟨_, exec_padRemoveInstr p bs s⟩
  | modeConfig m pad => exact ⟨_, exec_modeConfigInstr m pad s⟩
  | modeEncrypt => exact ⟨_, show execModeEncrypt s = _ from rfl⟩
  | modeDecrypt => exact ⟨_, show execModeDecrypt s = _ from rfl⟩

theorem exec_of_overlong_operand {i : Instr} (hr : readsOperand i = true) (ha : Config.maxLen < s.operand.length) :
    exec i s = .next (raise .overMaxLen s) := by
  obtain ⟨k, hk⟩ := exec_eq_withOperand hr s
  rw [hk, withOperand_of_gt ha]

/-- The two queries answer from the cipher context, whatever the operand. -/
theorem query_ignores_operand {q : CipherContext → Word} (a : ByteSeq)
    (h : (withCipher s fun c => succeed [] (q c) s) = .next t) :
    (withCipher { s with operand := a } fun c => succeed [] (q c) { s with operand := a })
      = .next { t with operand := a } := by
  obtain ⟨hv, h⟩ | ⟨hv, rfl⟩ := withCipher_cases h
  · obtain rfl := Outcome.next.inj h
    exact withCipher_of_valid (s := { s with operand := a }) hv _
  · exact withCipher_of_invalid (s := { s with operand := a }) hv _

/-- A command with no operand does the same with any `A`, and leaves it (30_encoding.md R67). -/
theorem exec_ignores_operand {i : Instr} (hr : readsOperand i = false) (a : ByteSeq) (h : exec i s = .next t) :
    exec i { s with operand := a } = .next { t with operand := a } := by
  cases i with
  | softReset =>
    obtain rfl := Outcome.next.inj h
    rfl
  | getConfig =>
    obtain rfl := Outcome.next.inj h
    rfl
  | getBlockSize => exact query_ignores_operand (q := fun c => BitVec.ofNat 32 (blockSize c.sel)) a h
  | getKeySize => exact query_ignores_operand (q := fun c => BitVec.ofNat 32 (keySize c.sel)) a h
  | _ => cases hr

end Bounds

/-- Settles O37: once the checks before it pass, the bound on the output decides. -/
theorem outputsOverMaxLenAreRefused : Obligations.OutputsOverMaxLenAreRefused := by
  unfold Obligations.OutputsOverMaxLenAreRefused
  intro s ha
  refine ⟨fun p bs hb hy => ?_, fun y hv he hy => modeEncrypt_of_overlong_output ha hv he hy⟩
  rw [exec_padAddInstr]
  exact padAdd_of_overlong_output ha hb hy

/-- Settles O53: every command that reads `A` is `withOperand`, and the other four do not look at it. -/
theorem overlongOperandsAreRefusedFirst : Obligations.OverlongOperandsAreRefusedFirst := by
  unfold Obligations.OverlongOperandsAreRefusedFirst
  exact fun i s => ⟨exec_of_overlong_operand, fun hr a t => exec_ignores_operand hr a⟩

section Entropy

/-! ### Without RANDOM padding no byte of the entropy source is seen (45_modes.md R162 (c), (d)) -/

theorem padAddBytes_ignores_draw {p : PadScheme} (hp : p ≠ .random) (d d' : Nat → Byte) (a : ByteSeq) (b : Nat) :
    padAddBytes p d a b = padAddBytes p d' a b := by
  cases p with
  | random => exact absurd rfl hp
  | _ => rfl

theorem modeEncryptBytes_ignores_draw {c : ModeContext}
    (hc : ¬(ModeSel.needsPadding c.sel = true ∧ c.pad = some .random)) (d d' : Nat → Byte) (a : ByteSeq) :
    modeEncryptBytes c d a = modeEncryptBytes c d' a := by
  obtain ⟨valid, sel, pad, iv, seed, cipher⟩ := c
  cases sel with
  | stream m => rfl
  | padded m =>
    cases pad with
    | none => rfl
    | some p =>
      have hp : p ≠ .random := by rintro rfl; exact hc ⟨rfl, rfl⟩
      simp only [modeEncryptBytes, boundScheme, padAddBytes_ignores_draw hp d d']

end Entropy

section Dependence

/-! ### Two states with the same contexts and operand answer alike -/

variable {s s' : State} (hc : s.cipher = s'.cipher) (hm : s.mode = s'.mode) (ha : s.operand = s'.operand)

include hc hm in
theorem getConfig_answersAlike : AnswerAlike (execGetConfig s) (execGetConfig s') := by
  have hw : configWord s = configWord s' := by rw [configWord, configWord, hc, hm]
  rw [execGetConfig, execGetConfig, hw]
  exact .succeed ..

include ha in
theorem loadKey_answersAlike (sel : CipherSel) : AnswerAlike (loadKey sel s) (loadKey sel s') := by
  refine .withOperand ?_ ha
  split
  · exact .succeed ..
  · exact .fail _

include hc in
theorem query_answersAlike (q : CipherContext → Word) :
    AnswerAlike (withCipher s fun c => succeed [] (q c) s) (withCipher s' fun c => succeed [] (q c) s') := by
  refine .withCipher ?_ (by rw [hc])
  rw [hc]
  exact .succeed ..

include hc ha in
theorem blockCommand_answersAlike (f : CipherContext → ByteSeq → ByteSeq) :
    AnswerAlike (blockCommand f s) (blockCommand f s') := by
  refine .withOperand (.withCipher ?_ (by rw [hc])) ha
  rw [hc]
  exact .withBlock _ _ (.succeed ..)

include ha in
theorem padAdd_answersAlike {p : PadScheme} (hp : p ≠ .random) (bs : Nat) :
    AnswerAlike (padAdd p bs s) (padAdd p bs s') := by
  refine .withOperand (.withBlockSize bs ?_) ha
  rw [padAddBytes_ignores_draw hp (entropyDraw s) (entropyDraw s')]
  exact .succeedBounded ..

include ha in
theorem padRemove_answersAlike (p : PadScheme) (bs : Nat) : AnswerAlike (padRemove p bs s) (padRemove p bs s') :=
  .withOperand (.withBlockSize bs (.withResult _ fun _ => .succeed ..)) ha

include hc ha in
theorem modeConfig_answersAlike (m : ModeSel) (pad : Option PadScheme) :
    AnswerAlike (modeConfig m pad s) (modeConfig m pad s') := by
  refine .withOperand (.withCipher ?_ (by rw [hc])) ha
  rw [hc]
  split
  · exact .fail _
  · split
    · exact .fail _
    · exact .succeed ..

include hm ha in
theorem modeEncrypt_answersAlike (hr : ¬(ModeSel.needsPadding s.mode.sel = true ∧ s.mode.pad = some .random)) :
    AnswerAlike (execModeEncrypt s) (execModeEncrypt s') := by
  refine .withOperand (.withMode ?_ (by rw [hm])) ha
  rw [modeEncryptBytes_ignores_draw hr (entropyDraw s) (entropyDraw s'), hm]
  exact .withResult _ fun _ => .succeedBounded ..

include hm ha in
theorem modeDecrypt_answersAlike : AnswerAlike (execModeDecrypt s) (execModeDecrypt s') := by
  refine .withOperand (.withMode ?_ (by rw [hm])) ha
  rw [hm]
  exact .withResult _ fun _ => .succeed ..

include hc hm ha in
theorem exec_answersAlike {i : Instr} (hp : ∀ bs, i ≠ .padAddRandom bs)
    (hr : ¬(i = .modeEncrypt ∧ ModeSel.needsPadding s.mode.sel = true ∧ s.mode.pad = some .random)) :
    AnswerAlike (exec i s) (exec i s') := by
  induction i using instr_familyInduction with
  | softReset => exact .succeed ..
  | getConfig => exact getConfig_answersAlike hc hm
  | loadKey sel => simpa using loadKey_answersAlike ha sel
  | getBlockSize => exact query_answersAlike hc fun c => BitVec.ofNat 32 (blockSize c.sel)
  | getKeySize => exact query_answersAlike hc fun c => BitVec.ofNat 32 (keySize c.sel)
  | encryptBlock => exact blockCommand_answersAlike hc ha encrypt
  | decryptBlock => exact blockCommand_answersAlike hc ha decrypt
  | padAdd p bs =>
    have hne : p ≠ .random := by rintro rfl; exact hp bs rfl
    simpa using padAdd_answersAlike ha hne bs
  | padRemove p bs => simpa using padRemove_answersAlike ha p bs
  | modeConfig m pad => simpa using modeConfig_answersAlike hc ha m pad
  | modeEncrypt => exact modeEncrypt_answersAlike hm ha fun h => hr ⟨rfl, h⟩
  | modeDecrypt => exact modeDecrypt_answersAlike hm ha

end Dependence

section ContextsLeft

/-! ### The contexts that a command leaves -/

/-- Both contexts of `t` are those of `s`. -/
def KeepsContexts (s t : State) : Prop := t.cipher = s.cipher ∧ t.mode = s.mode

/-- The mode context that a successful MODE_CONFIG leaves (45_modes.md R144). -/
def configuredMode (m : ModeSel) (pad : Option PadScheme) (c : CipherContext) (a : ByteSeq) : ModeContext :=
  let template := (ivAndSeed m (blockSize c.sel) a).getD ([], 0)
  { valid := true, sel := m, pad := pad, iv := template.1, seed := template.2, cipher := c }

section OneRun

variable {s t : State}

theorem KeepsContexts.raise (c : Cause) (s : State) : KeepsContexts s (raise c s) := ⟨rfl, rfl⟩

theorem query_keepsContexts {q : CipherContext → Word} (h : (withCipher s fun c => succeed [] (q c) s) = .next t) :
    KeepsContexts s t := by
  obtain ⟨-, h⟩ | ⟨-, rfl⟩ := withCipher_cases h
  · obtain rfl := Outcome.next.inj h
    exact ⟨rfl, rfl⟩
  · exact .raise ..

theorem blockCommand_keepsContexts {f : CipherContext → ByteSeq → ByteSeq} (h : blockCommand f s = .next t) :
    KeepsContexts s t := by
  obtain ⟨-, -, -, rfl⟩ | ⟨-, -, -, rfl⟩ | ⟨-, -, rfl⟩ | ⟨-, rfl⟩ := blockCommand_cases h
  · exact ⟨rfl, rfl⟩
  · exact .raise ..
  · exact .raise ..
  · exact .raise ..

theorem padAdd_keepsContexts {p : PadScheme} {bs : Nat} (h : padAdd p bs s = .next t) : KeepsContexts s t := by
  obtain ⟨-, -, -, rfl⟩ | ⟨-, -, -, rfl⟩ | ⟨-, -, rfl⟩ | ⟨-, rfl⟩ := padAdd_cases h
  · exact ⟨rfl, rfl⟩
  · exact .raise ..
  · exact .raise ..
  · exact .raise ..

theorem padRemove_keepsContexts {p : PadScheme} {bs : Nat} (h : padRemove p bs s = .next t) : KeepsContexts s t := by
  obtain ⟨n, -, -, -, rfl⟩ | ⟨c, -, -, -, rfl⟩ | ⟨-, -, rfl⟩ | ⟨-, rfl⟩ := padRemove_cases h
  · exact ⟨rfl, rfl⟩
  · exact .raise ..
  · exact .raise ..
  · exact .raise ..

theorem modeEncrypt_keepsContexts (h : execModeEncrypt s = .next t) : KeepsContexts s t := by
  obtain ⟨y, -, -, -, -, rfl⟩ | ⟨y, -, -, -, -, rfl⟩ | ⟨c, -, -, -, rfl⟩ | ⟨-, -, rfl⟩ | ⟨-, rfl⟩ :=
    modeEncrypt_cases h
  · exact ⟨rfl, rfl⟩
  · exact .raise ..
  · exact .raise ..
  · exact .raise ..
  · exact .raise ..

theorem modeDecrypt_keepsContexts (h : execModeDecrypt s = .next t) : KeepsContexts s t := by
  obtain ⟨y, -, -, -, rfl⟩ | ⟨c, -, -, -, rfl⟩ | ⟨-, -, rfl⟩ | ⟨-, rfl⟩ := modeDecrypt_cases h
  · exact ⟨rfl, rfl⟩
  · exact .raise ..
  · exact .raise ..
  · exact .raise ..

/-- LOAD_KEY writes the cipher context when it succeeds and only then (40_interface.md R77, R79). -/
theorem loadKey_contexts {sel : CipherSel} (h : loadKey sel s = .next t) :
    t.cipher = (if t.status = .ok then loadedContext sel s.operand else s.cipher) ∧ t.mode = s.mode := by
  obtain ⟨-, -, rfl⟩ | ⟨-, -, rfl⟩ | ⟨-, rfl⟩ := loadKey_cases h
  · exact ⟨rfl, rfl⟩
  · exact ⟨rfl, rfl⟩
  · exact ⟨rfl, rfl⟩

/-- MODE_CONFIG writes the mode context when it succeeds and only then (45_modes.md R144). -/
theorem modeConfig_contexts {m : ModeSel} {pad : Option PadScheme} (h : modeConfig m pad s = .next t) :
    t.cipher = s.cipher
    ∧ t.mode = if t.status = .ok then configuredMode m pad s.cipher s.operand else s.mode := by
  obtain ⟨iv, seed, -, -, -, hi, rfl⟩ | ⟨-, -, -, -, rfl⟩ | ⟨-, -, -, rfl⟩ | ⟨-, -, rfl⟩ | ⟨-, rfl⟩ :=
    modeConfig_cases h
  · exact ⟨rfl, by simp [configuredMode, hi]⟩
  · exact ⟨rfl, rfl⟩
  · exact ⟨rfl, rfl⟩
  · exact ⟨rfl, rfl⟩
  · exact ⟨rfl, rfl⟩

end OneRun

/-- Two commands that keep the same contexts leave the same contexts. -/
theorem KeepsContexts.agree {s s' t t' : State} (h : KeepsContexts s t) (h' : KeepsContexts s' t')
    (hc : s.cipher = s'.cipher) (hm : s.mode = s'.mode) : t.cipher = t'.cipher ∧ t.mode = t'.mode := by
  obtain ⟨hcipher, hmode⟩ := h
  obtain ⟨hcipher', hmode'⟩ := h'
  exact ⟨by rw [hcipher, hcipher', hc], by rw [hmode, hmode', hm]⟩

/-- The contexts a command leaves follow from those it finds, the operand, and whether it succeeds. -/
theorem exec_contexts_agree {i : Instr} {s s' t t' : State} (hc : s.cipher = s'.cipher) (hm : s.mode = s'.mode)
    (ha : s.operand = s'.operand) (hs : t.status = t'.status) (h : exec i s = .next t) (h' : exec i s' = .next t') :
    t.cipher = t'.cipher ∧ t.mode = t'.mode := by
  induction i using instr_familyInduction with
  | softReset =>
    obtain rfl := Outcome.next.inj h
    obtain rfl := Outcome.next.inj h'
    exact ⟨rfl, rfl⟩
  | getConfig =>
    obtain rfl := Outcome.next.inj h
    obtain rfl := Outcome.next.inj h'
    exact ⟨hc, hm⟩
  | loadKey sel =>
    rw [exec_loadKeyInstr] at h h'
    obtain ⟨hcipher, hmode⟩ := loadKey_contexts h
    obtain ⟨hcipher', hmode'⟩ := loadKey_contexts h'
    exact ⟨by rw [hcipher, hcipher', hs, hc, ha], by rw [hmode, hmode', hm]⟩
  | getBlockSize =>
    exact (query_keepsContexts (q := fun c => BitVec.ofNat 32 (blockSize c.sel)) h).agree
      (query_keepsContexts (q := fun c => BitVec.ofNat 32 (blockSize c.sel)) h') hc hm
  | getKeySize =>
    exact (query_keepsContexts (q := fun c => BitVec.ofNat 32 (keySize c.sel)) h).agree
      (query_keepsContexts (q := fun c => BitVec.ofNat 32 (keySize c.sel)) h') hc hm
  | encryptBlock => exact (blockCommand_keepsContexts h).agree (blockCommand_keepsContexts h') hc hm
  | decryptBlock => exact (blockCommand_keepsContexts h).agree (blockCommand_keepsContexts h') hc hm
  | padAdd p bs =>
    rw [exec_padAddInstr] at h h'
    exact (padAdd_keepsContexts h).agree (padAdd_keepsContexts h') hc hm
  | padRemove p bs =>
    rw [exec_padRemoveInstr] at h h'
    exact (padRemove_keepsContexts h).agree (padRemove_keepsContexts h') hc hm
  | modeConfig m pad =>
    rw [exec_modeConfigInstr] at h h'
    obtain ⟨hcipher, hmode⟩ := modeConfig_contexts h
    obtain ⟨hcipher', hmode'⟩ := modeConfig_contexts h'
    exact ⟨by rw [hcipher, hcipher', hc], by rw [hmode, hmode', hs, hc, hm, ha]⟩
  | modeEncrypt => exact (modeEncrypt_keepsContexts h).agree (modeEncrypt_keepsContexts h') hc hm
  | modeDecrypt => exact (modeDecrypt_keepsContexts h).agree (modeDecrypt_keepsContexts h') hc hm

end ContextsLeft

/-- Settles O58: the two runs answer alike, and so, having the same status, leave the same contexts. -/
theorem commandsDependOnContextsAndOperandAlone : Obligations.CommandsDependOnContextsAndOperandAlone := by
  unfold Obligations.CommandsDependOnContextsAndOperandAlone
  intro i s s' t t' hc hm ha hp hr h h'
  obtain ⟨u, u', hu, hu', hstatus, hresult, hout⟩ := exec_answersAlike hc hm ha hp hr
  obtain rfl := Outcome.next.inj (h.symm.trans hu)
  obtain rfl := Outcome.next.inj (h'.symm.trans hu')
  exact ⟨hstatus, hresult, hout, exec_contexts_agree hc hm ha hstatus h h'⟩

end Sys2Proof.Machine

/-! PROOFS. The encoding: the fields of a word, the rows of the opcode map by family, the decoder's two round trips, and
the reserved words. -/

namespace Sys2Proof

open Sys2Proof.Machine
open Sys2Proof.Laws.ReservedBits (rsvField_assemble)

section Fields

/-! ### The fields of a word (30_encoding.md R57) -/

variable {op : BitVec 8} {sel aux : BitVec 4} {imm : BitVec 8} {w : Word}

@[simp] theorem opField_assemble : opField (assemble op sel aux imm) = op := by
  simp (disch := decide) only [opField, assemble, BitVec.extractLsb'_append_eq_of_add_le, BitVec.extractLsb'_eq_self]

@[simp] theorem selField_assemble : selField (assemble op sel aux imm) = sel := by
  simp (disch := decide) only [selField, assemble, BitVec.extractLsb'_append_eq_of_add_le,
    BitVec.extractLsb'_append_eq_of_le, Nat.reduceSub, BitVec.extractLsb'_eq_self]

@[simp] theorem auxField_assemble : auxField (assemble op sel aux imm) = aux := by
  simp (disch := decide) only [auxField, assemble, BitVec.extractLsb'_append_eq_of_add_le,
    BitVec.extractLsb'_append_eq_of_le, Nat.reduceSub, BitVec.extractLsb'_eq_self]

@[simp] theorem immField_assemble : immField (assemble op sel aux imm) = imm := by
  simp (disch := decide) only [immField, assemble, BitVec.extractLsb'_append_eq_of_add_le,
    BitVec.extractLsb'_append_eq_of_le, Nat.reduceSub, BitVec.extractLsb'_eq_self]

theorem assemble_fields (h : rsvField w = 0#8) :
    assemble (opField w) (selField w) (auxField w) (immField w) = w := by
  rw [assemble, ← h, rsvField, immField, auxField, selField, opField]
  simp (disch := decide) only [BitVec.extractLsb'_append_extractLsb'_eq_extractLsb', BitVec.extractLsb'_eq_self]

/-- A word without reserved bits is its five fields. -/
theorem eq_assemble_iff : w = assemble op sel aux imm ↔
    opField w = op ∧ selField w = sel ∧ auxField w = aux ∧ immField w = imm ∧ rsvField w = 0 := by
  constructor
  · rintro rfl
    exact ⟨opField_assemble, selField_assemble, auxField_assemble, immField_assemble, rsvField_assemble ..⟩
  · rintro ⟨rfl, rfl, rfl, rfl, hrsv⟩
    exact (assemble_fields hrsv).symm

/-- Masking a word masks each field. -/
theorem and_eq_assemble_iff {mask : Word} : w &&& mask = assemble op sel aux imm ↔
    opField w &&& opField mask = op ∧ selField w &&& selField mask = sel ∧ auxField w &&& auxField mask = aux
    ∧ immField w &&& immField mask = imm ∧ rsvField w &&& rsvField mask = 0 := by
  rw [eq_assemble_iff]
  simp only [opField, selField, auxField, immField, rsvField, BitVec.extractLsb'_and]

/-- The mask of a row that leaves `IMM` free fixes the four other fields. -/
theorem and_immMask_eq_iff : w &&& 0xFF00FFFF#32 = assemble op sel 0 0 ↔ ∃ imm, w = assemble op sel 0 imm := by
  have hop : opField 0xFF00FFFF#32 = BitVec.allOnes 8 := rfl
  have hsel : selField 0xFF00FFFF#32 = BitVec.allOnes 4 := rfl
  have haux : auxField 0xFF00FFFF#32 = BitVec.allOnes 4 := rfl
  have himm : immField 0xFF00FFFF#32 = 0#8 := rfl
  have hrsv : rsvField 0xFF00FFFF#32 = BitVec.allOnes 8 := rfl
  rw [and_eq_assemble_iff, hop, hsel, haux, himm, hrsv]
  simp only [BitVec.and_allOnes, BitVec.and_zero, eq_assemble_iff]
  simp

/-- The mask of a row that leaves `AUX` free fixes the four other fields. -/
theorem and_auxMask_eq_iff : w &&& 0xFFFF0FFF#32 = assemble op sel 0 0 ↔ ∃ aux, w = assemble op sel aux 0 := by
  have hop : opField 0xFFFF0FFF#32 = BitVec.allOnes 8 := rfl
  have hsel : selField 0xFFFF0FFF#32 = BitVec.allOnes 4 := rfl
  have haux : auxField 0xFFFF0FFF#32 = 0#4 := rfl
  have himm : immField 0xFFFF0FFF#32 = BitVec.allOnes 8 := rfl
  have hrsv : rsvField 0xFFFF0FFF#32 = BitVec.allOnes 8 := rfl
  rw [and_eq_assemble_iff, hop, hsel, haux, himm, hrsv]
  simp only [BitVec.and_allOnes, BitVec.and_zero, eq_assemble_iff]
  simp

end Fields

section Codes

/-! ### The select codes (30_encoding.md R60 to R62) -/

/-- The padding schemes, in the order of their codes (R61). -/
def padSchemes : List PadScheme := [.pkcs7, .ansi, .random, .zero]

/-- The modes, in the order of their codes (R62). -/
def modeSels : List ModeSel :=
  [.padded .ecb, .padded .cbc, .stream .cfb, .stream .ofb, .stream .ctr, .padded .pcbc, .padded .rdelta]

@[simp] theorem mem_padSchemes (p : PadScheme) : p ∈ padSchemes := by
  cases p <;> decide

@[simp] theorem mem_modeSels (m : ModeSel) : m ∈ modeSels := by
  obtain m | m := m <;> cases m <;> decide

/-- The legal values of `AUX`: the codes of R61, read back to what they stand for. -/
theorem padOfCode_eq_some_iff {c : BitVec 4} {pad : Option PadScheme} : padOfCode c = some pad ↔
    c = padCode pad := by
  constructor
  · have hcodes : ∀ c, ∀ q ∈ padOfCode c, c = padCode q := by decide
    exact hcodes c pad
  · rintro rfl
    obtain _ | p := pad
    · rfl
    · cases p <;> rfl

theorem exists_padOfCode_iff {c : BitVec 4} : (∃ pad, padOfCode c = some pad) ↔ c.toNat ≤ 4 := by
  rw [← Option.isSome_iff_exists]
  revert c
  decide

theorem exists_cipherCode_iff {c : BitVec 4} : (∃ sel : CipherSel, sel.code = c) ↔ c.toNat < 4 := by
  constructor
  · rintro ⟨sel, rfl⟩
    cases sel <;> decide
  · have hcodes : ∀ c : BitVec 4, c.toNat < 4 → ∃ sel ∈ [CipherSel.des, .tdes, .feistel6, .frog], sel.code = c := by
      decide
    exact fun h => have ⟨sel, _, hsel⟩ := hcodes c h; ⟨sel, hsel⟩

theorem exists_modeCode_iff {c : BitVec 4} : (∃ m : ModeSel, m.code = c) ↔ c.toNat < 7 := by
  constructor
  · rintro ⟨m, rfl⟩
    obtain m | m := m <;> cases m <;> decide
  · have hcodes : ∀ c : BitVec 4, c.toNat < 7 → ∃ m ∈ modeSels, m.code = c := by decide
    exact fun h => have ⟨m, _, hm⟩ := hcodes c h; ⟨m, hm⟩

theorem exists_schemeCode_iff {c : BitVec 4} :
    (∃ p : PadScheme, padCode (some p) = c) ↔ c.toNat ≠ 0 ∧ c.toNat < 5 := by
  constructor
  · rintro ⟨p, rfl⟩
    cases p <;> decide
  · have hcodes : ∀ c : BitVec 4, c.toNat ≠ 0 ∧ c.toNat < 5 → ∃ p ∈ padSchemes, padCode (some p) = c := by
      decide
    exact fun h => have ⟨p, _, hp⟩ := hcodes c h; ⟨p, hp⟩

theorem exists_auxCode_iff {c : BitVec 4} : (∃ pad, padCode pad = c) ↔ c.toNat < 5 := by
  rw [Nat.lt_succ_iff, ← exists_padOfCode_iff]
  exact exists_congr fun pad => eq_comm.trans padOfCode_eq_some_iff.symm

end Codes

section Families

/-! ### The families of commands -/

@[simp] theorem encode_loadKeyInstr (sel : CipherSel) : encode (loadKeyInstr sel) = assemble 0x10 sel.code 0 0 := by
  cases sel <;> rfl

@[simp] theorem encode_padAddInstr (p : PadScheme) (bs : Nat) :
    encode (padAddInstr p bs) = assemble 0x20 (padCode (some p)) 0 (BitVec.ofNat 8 bs) := by
  cases p <;> rfl

@[simp] theorem encode_padRemoveInstr (p : PadScheme) (bs : Nat) :
    encode (padRemoveInstr p bs) = assemble 0x21 (padCode (some p)) 0 (BitVec.ofNat 8 bs) := by
  cases p <;> rfl

@[simp] theorem encode_modeConfigInstr (m : ModeSel) (pad : Option PadScheme) :
    encode (modeConfigInstr m pad) = assemble 0x30 m.code (padCode pad) 0 := by
  obtain m | m := m <;> cases m <;> rfl

@[simp] theorem wellFormed_loadKeyInstr (sel : CipherSel) : (loadKeyInstr sel).wellFormed = true := by
  cases sel <;> rfl

@[simp] theorem wellFormed_padAddInstr (p : PadScheme) (bs : Nat) :
    (padAddInstr p bs).wellFormed = decide (immFits bs) := by
  cases p <;> rfl

@[simp] theorem wellFormed_padRemoveInstr (p : PadScheme) (bs : Nat) :
    (padRemoveInstr p bs).wellFormed = decide (immFits bs) := by
  cases p <;> rfl

@[simp] theorem wellFormed_modeConfigInstr (m : ModeSel) (pad : Option PadScheme) :
    (modeConfigInstr m pad).wellFormed = true := by
  obtain m | m := m <;> cases m <;> rfl

/-- `IMM` holds every block size of a well-formed command. -/
theorem toNat_ofNat_of_immFits {bs : Nat} (h : immFits bs) : (BitVec.ofNat 8 bs).toNat = bs :=
  Nat.mod_eq_of_lt (Nat.lt_succ_of_le h)

end Families

section Rows

/-! ### The rows of the opcode map (30_encoding.md R66) -/

/-- The commands of the control and cipher rows. -/
def cipherCommands : List Instr :=
  [.softReset, .getConfig, .loadKeyDes, .loadKeyTdes, .loadKeyFeistel6, .loadKeyFrog, .getBlockSize, .getKeySize,
    .encryptBlock, .decryptBlock]

/-- The commands of the mode rows that leave no field free. -/
def messageCommands : List Instr := [.modeEncrypt, .modeDecrypt]

/-- The commands whose row leaves no field free. -/
def fixedCommands : List Instr := cipherCommands ++ messageCommands

theorem wellFormed_of_mem_fixedCommands : ∀ i ∈ fixedCommands, i.wellFormed = true := by decide

/-- The row of a command with no free field. -/
def commandRow (i : Instr) : Row := fixedRow (encode i) i

/-- The row of PAD_ADD with a scheme. -/
def padAddRow (p : PadScheme) : Row := immRow (assemble 0x20 (padCode (some p)) 0 0) (padAddInstr p)

/-- The row of PAD_REMOVE with a scheme. -/
def padRemoveRow (p : PadScheme) : Row := immRow (assemble 0x21 (padCode (some p)) 0 0) (padRemoveInstr p)

/-- The row of MODE_CONFIG with a mode. -/
def modeConfigRow (m : ModeSel) : Row := auxRow (assemble 0x30 m.code 0 0) (modeConfigInstr m)

/-- The map lists the rows family by family. -/
theorem opcodeMap_eq : opcodeMap =
    cipherCommands.map commandRow ++ (padSchemes.map padAddRow ++ padSchemes.map padRemoveRow)
    ++ (modeSels.map modeConfigRow ++ messageCommands.map commandRow) := rfl

/-- The rows are those of the commands with no free field, and one for each scheme and each mode. -/
theorem mem_opcodeMap_iff {r : Row} : r ∈ opcodeMap ↔
    (∃ i ∈ fixedCommands, commandRow i = r) ∨ (∃ p, padAddRow p = r) ∨ (∃ p, padRemoveRow p = r)
    ∨ ∃ m, modeConfigRow m = r := by
  simp only [opcodeMap_eq, fixedCommands, List.mem_append, List.mem_map, mem_padSchemes, mem_modeSels, true_and,
    or_and_right, exists_or, or_assoc, or_comm, or_left_comm]

/-- `w` is a word of the row `r` and names the command `i`. -/
def Row.Names (r : Row) (w : Word) (i : Instr) : Prop := w &&& r.mask = r.value ∧ r.read w = .ok i

variable {w : Word} {i j : Instr}

theorem commandRow_names_iff : (commandRow i).Names w j ↔ i = j ∧ encode i = w := by
  have hmask : w &&& 0xFFFFFFFF#32 = w := BitVec.and_allOnes
  simp only [Row.Names, commandRow, fixedRow, Row.read, hmask, Except.ok.injEq]
  tauto

theorem immRow_names_iff {op : BitVec 8} {sel : BitVec 4} {build : Nat → Instr} :
    (immRow (assemble op sel 0 0) build).Names w i ↔ ∃ imm, w = assemble op sel 0 imm ∧ build imm.toNat = i := by
  simp only [Row.Names, immRow, Row.read, and_immMask_eq_iff, Except.ok.injEq]
  constructor
  · rintro ⟨⟨imm, rfl⟩, rfl⟩
    exact ⟨imm, rfl, by rw [immField_assemble]⟩
  · rintro ⟨imm, rfl, rfl⟩
    exact ⟨⟨imm, rfl⟩, by rw [immField_assemble]⟩

theorem auxRow_read_eq_ok_iff {value : Word} {build : Option PadScheme → Instr} :
    (auxRow value build).read w = .ok i ↔ ∃ pad, padOfCode (auxField w) = some pad ∧ build pad = i := by
  simp only [auxRow, Row.read]
  cases padOfCode (auxField w) <;> simp

theorem auxRow_names_iff {op : BitVec 8} {sel : BitVec 4} {build : Option PadScheme → Instr} :
    (auxRow (assemble op sel 0 0) build).Names w i ↔
      ∃ pad, w = assemble op sel (padCode pad) 0 ∧ build pad = i := by
  simp only [Row.Names, auxRow_read_eq_ok_iff, padOfCode_eq_some_iff]
  simp only [auxRow, and_auxMask_eq_iff]
  constructor
  · rintro ⟨⟨aux, rfl⟩, pad, haux, rfl⟩
    rw [auxField_assemble] at haux
    exact ⟨pad, by rw [haux], rfl⟩
  · rintro ⟨pad, rfl, rfl⟩
    exact ⟨⟨_, rfl⟩, pad, auxField_assemble, rfl⟩

end Rows

section Decoder

/-! ### The decoder (30_encoding.md R64) -/

variable {w : Word} {i : Instr} {r r' : Row}

/-- What tells the rows apart: the value of `OP` and `SEL`. -/
def Row.key (r : Row) : BitVec 12 := r.value.extractLsb' 0 12

theorem opcodeMap_keys_nodup : (opcodeMap.map Row.key).Nodup := by decide

/-- Every row fixes `OP` and `SEL`. -/
theorem opcodeMap_masks_keep_key : ∀ r ∈ opcodeMap, r.mask.extractLsb' 0 12 = BitVec.allOnes 12 := by decide

theorem key_of_match (hr : r ∈ opcodeMap) (h : w &&& r.mask = r.value) : r.key = w.extractLsb' 0 12 := by
  rw [Row.key, ← h, BitVec.extractLsb'_and, opcodeMap_masks_keep_key r hr, BitVec.and_allOnes]

/-- No two rows match the same word. -/
theorem matching_row_unique (hr : r ∈ opcodeMap) (hr' : r' ∈ opcodeMap) (h : w &&& r.mask = r.value)
    (h' : w &&& r'.mask = r'.value) : r = r' :=
  List.inj_on_of_nodup_map opcodeMap_keys_nodup hr hr' ((key_of_match hr h).trans (key_of_match hr' h').symm)

theorem Row.matches_eq_true_iff : r.matches w = true ↔ w &&& r.mask = r.value := beq_iff_eq

/-- Everything the decoder can do: read a row that matches, or find none. -/
theorem decode_cases (w : Word) :
    (∃ r ∈ opcodeMap, w &&& r.mask = r.value ∧ decode w = r.read w)
    ∨ ((∀ r ∈ opcodeMap, w &&& r.mask ≠ r.value) ∧ decode w = .error .noRow) := by
  unfold decode
  split
  next r hfind =>
    have h := List.find?_some hfind
    exact .inl ⟨r, List.mem_of_find?_eq_some hfind, Row.matches_eq_true_iff.mp h, rfl⟩
  next hfind =>
    exact .inr ⟨fun (r : Row) hr h => List.find?_eq_none.mp hfind r hr (Row.matches_eq_true_iff.mpr h), rfl⟩

/-- The decoder reads the one row that matches. -/
theorem decode_of_match (hr : r ∈ opcodeMap) (h : w &&& r.mask = r.value) : decode w = r.read w := by
  obtain ⟨r', hr', h', hd⟩ | ⟨hnone, -⟩ := decode_cases w
  · rw [hd, matching_row_unique hr' hr h' h]
  · exact absurd h (hnone r hr)

theorem decode_eq_ok_iff : decode w = .ok i ↔ ∃ r ∈ opcodeMap, r.Names w i := by
  constructor
  · intro hi
    obtain ⟨r, hr, h, hd⟩ | ⟨-, hd⟩ := decode_cases w
    · exact ⟨r, hr, h, hd ▸ hi⟩
    · rw [hd] at hi
      cases hi
  · rintro ⟨r, hr, h, hread⟩
    rw [decode_of_match hr h, hread]

/-- The legal words, family by family, with the commands they name. -/
theorem decode_eq_ok_iff_family : decode w = .ok i ↔
    (i ∈ fixedCommands ∧ encode i = w)
    ∨ (∃ p imm, w = assemble 0x20 (padCode (some p)) 0 imm ∧ padAddInstr p imm.toNat = i)
    ∨ (∃ p imm, w = assemble 0x21 (padCode (some p)) 0 imm ∧ padRemoveInstr p imm.toNat = i)
    ∨ ∃ m pad, w = assemble 0x30 m.code (padCode pad) 0 ∧ modeConfigInstr m pad = i := by
  simp only [decode_eq_ok_iff, mem_opcodeMap_iff, or_and_right, exists_or, exists_exists_eq_and,
    exists_exists_and_eq_and, commandRow_names_iff, padAddRow, padRemoveRow, modeConfigRow, immRow_names_iff,
    auxRow_names_iff]
  simp

/-- The legal words are those of the well-formed commands, and each names the command it encodes. -/
theorem decode_eq_ok_iff_encode : decode w = .ok i ↔ i.wellFormed = true ∧ encode i = w := by
  rw [decode_eq_ok_iff_family]
  constructor
  · rintro (⟨hi, henc⟩ | ⟨p, imm, rfl, rfl⟩ | ⟨p, imm, rfl, rfl⟩ | ⟨m, pad, rfl, rfl⟩)
    · exact ⟨wellFormed_of_mem_fixedCommands i hi, henc⟩
    · have himm : imm.toNat ≤ 255 := Nat.le_of_lt_succ imm.isLt
      simp [himm]
    · have himm : imm.toNat ≤ 255 := Nat.le_of_lt_succ imm.isLt
      simp [himm]
    · simp
  · rintro ⟨hwf, rfl⟩
    induction i using instr_familyInduction with
    | loadKey sel => exact .inl ⟨by cases sel <;> decide, rfl⟩
    | padAdd p bs =>
      rw [wellFormed_padAddInstr, decide_eq_true_eq] at hwf
      exact .inr (.inl ⟨p, _, encode_padAddInstr p bs, by rw [toNat_ofNat_of_immFits hwf]⟩)
    | padRemove p bs =>
      rw [wellFormed_padRemoveInstr, decide_eq_true_eq] at hwf
      exact .inr (.inr (.inl ⟨p, _, encode_padRemoveInstr p bs, by rw [toNat_ofNat_of_immFits hwf]⟩))
    | modeConfig m pad => exact .inr (.inr (.inr ⟨m, pad, encode_modeConfigInstr m pad, rfl⟩))
    | _ => exact .inl ⟨by decide, rfl⟩

theorem rsvField_encode (i : Instr) : rsvField (encode i) = 0 := by
  induction i using instr_familyInduction with
  | loadKey | padAdd | padRemove | modeConfig => simp [rsvField_assemble]
  | _ => exact rsvField_assemble ..

theorem exists_read_iff : (∃ i, r.read w = .ok i) ↔ ∀ f, r.form = .aux f → (auxField w).toNat ≤ 4 := by
  rw [← exists_padOfCode_iff]
  obtain ⟨value, mask, i | build | build⟩ := r
  · simp [Row.read]
  · simp [Row.read]
  · simp only [Row.read, RowForm.aux.injEq, forall_eq']
    cases padOfCode (auxField w) <;> simp

/-- R64: legal words match a row and, on a MODE_CONFIG row, have `AUX` at most 4. -/
theorem exists_decode_iff : (∃ i, decode w = .ok i) ↔
    ∃ r ∈ opcodeMap, w &&& r.mask = r.value ∧ ∀ f, r.form = .aux f → (auxField w).toNat ≤ 4 := by
  simp only [decode_eq_ok_iff, Row.Names, ← exists_read_iff]
  tauto

/-- Rows at different positions of the map do not match the same word. -/
theorem matching_position_unique {j k : Fin opcodeMap.length}
    (hj : w &&& (opcodeMap.get j).mask = (opcodeMap.get j).value)
    (hk : w &&& (opcodeMap.get k).mask = (opcodeMap.get k).value) : j = k :=
  List.nodup_iff_injective_get.mp opcodeMap_keys_nodup.of_map
    (matching_row_unique (List.get_mem ..) (List.get_mem ..) hj hk)

end Decoder

section Reserved

/-! ### The reserved words (30_encoding.md R68) -/

variable {w : Word}

theorem not_reservedWord_encode (i : Instr) : ¬ReservedWord (encode i) := by
  induction i using instr_familyInduction with
  | loadKey sel =>
    have hsel := exists_cipherCode_iff.mp ⟨sel, rfl⟩
    simp [ReservedWord, operationCodes, rsvField_assemble, hsel]
  | padAdd p bs =>
    have hsel := exists_schemeCode_iff.mp ⟨p, rfl⟩
    simp [ReservedWord, operationCodes, rsvField_assemble, hsel]
  | padRemove p bs =>
    have hsel := exists_schemeCode_iff.mp ⟨p, rfl⟩
    simp [ReservedWord, operationCodes, rsvField_assemble, hsel]
  | modeConfig m pad =>
    have hsel := exists_modeCode_iff.mp ⟨m, rfl⟩
    have haux := exists_auxCode_iff.mp ⟨pad, rfl⟩
    simp [ReservedWord, operationCodes, rsvField_assemble, hsel, haux]
  | _ => simp [ReservedWord, operationCodes, rsvField_assemble, encode]

/-- The operation codes without a variant are those of the commands with `SEL` = 0. -/
theorem exists_command_of_code : ∀ n ∈ operationCodes, n ∉ [0x10, 0x20, 0x21, 0x30] →
    ∃ i ∈ fixedCommands, encode i = assemble (BitVec.ofNat 8 n) 0 0 0 := by decide

theorem rsvField_of_not_reservedWord (h : ¬ReservedWord w) : rsvField w = 0 := by
  simp only [ReservedWord, not_or, not_not] at h
  obtain ⟨-, -, -, -, -, -, -, hrsv⟩ := h
  exact hrsv

/-- Fields of which none is on the list of R68 spell a command. -/
theorem exists_decode_assemble {op : BitVec 8} {sel aux : BitVec 4} {imm : BitVec 8}
    (h : ¬ReservedWord (assemble op sel aux imm)) : ∃ i, decode (assemble op sel aux imm) = .ok i := by
  simp only [ReservedWord, opField_assemble, selField_assemble, auxField_assemble, immField_assemble, not_or,
    not_and_or, not_not, Nat.not_le] at h
  obtain ⟨hop, hcipher, hscheme, hmode, hsel, haux, himm, -⟩ := h
  by_cases hv : op.toNat ∈ [0x10, 0x20, 0x21, 0x30]
  · replace hv : op = 0x10 ∨ op = 0x20 ∨ op = 0x21 ∨ op = 0x30 := by simpa [← BitVec.toNat_inj] using hv
    obtain rfl | rfl | rfl | rfl := hv
    · obtain ⟨c, rfl⟩ := exists_cipherCode_iff.mpr (by simpa using hcipher)
      obtain rfl : aux = 0 := by simpa using haux
      obtain rfl : imm = 0 := by simpa using himm
      exact ⟨_, decode_eq_ok_iff_encode.mpr ⟨wellFormed_loadKeyInstr c, encode_loadKeyInstr c⟩⟩
    · obtain ⟨p, rfl⟩ := exists_schemeCode_iff.mpr (by simpa using hscheme)
      obtain rfl : aux = 0 := by simpa using haux
      exact ⟨_, decode_eq_ok_iff_family.mpr (.inr (.inl ⟨p, imm, rfl, rfl⟩))⟩
    · obtain ⟨p, rfl⟩ := exists_schemeCode_iff.mpr (by simpa using hscheme)
      obtain rfl : aux = 0 := by simpa using haux
      exact ⟨_, decode_eq_ok_iff_family.mpr (.inr (.inr (.inl ⟨p, imm, rfl, rfl⟩)))⟩
    · obtain ⟨⟨m, rfl⟩, pad, rfl⟩ : (∃ m : ModeSel, m.code = sel) ∧ ∃ pad, padCode pad = aux := by
        rw [exists_modeCode_iff, exists_auxCode_iff]
        simpa using hmode
      obtain rfl : imm = 0 := by simpa using himm
      exact ⟨_, decode_eq_ok_iff_encode.mpr ⟨wellFormed_modeConfigInstr m pad, encode_modeConfigInstr m pad⟩⟩
  · obtain rfl : sel = 0 := hsel.resolve_left hv
    obtain ⟨i, hi, henc⟩ := exists_command_of_code _ hop hv
    simp only [List.mem_cons, List.not_mem_nil, or_false, not_or] at hv
    obtain ⟨-, h20, h21, h30⟩ := hv
    obtain rfl : aux = 0 := haux.resolve_left h30
    obtain rfl : imm = 0 := by simpa [h20, h21] using himm
    rw [BitVec.ofNat_toNat, BitVec.setWidth_eq] at henc
    exact ⟨i, decode_eq_ok_iff_family.mpr (.inl ⟨hi, henc⟩)⟩

/-- The list of R68 leaves out exactly the legal words. -/
theorem reservedWord_iff : ReservedWord w ↔ ¬∃ i, decode w = .ok i := by
  constructor
  · rintro hres ⟨i, hi⟩
    obtain ⟨-, rfl⟩ := decode_eq_ok_iff_encode.mp hi
    exact not_reservedWord_encode i hres
  · intro hill
    by_contra hres
    have hw := assemble_fields (rsvField_of_not_reservedWord hres)
    rw [← hw] at hill
    exact hill (exists_decode_assemble (hw.symm ▸ hres))

end Reserved

section Steps

/-! ### The step on an illegal word (30_encoding.md R65) -/

variable {s : State} {w : Word} {a : ByteSeq} {rest : List Command}

/-- R65: accepting an illegal word reports it and leaves every other register. -/
theorem step_of_illegal_word {e : Illegal} (hp : s.pending = ⟨w, a⟩ :: rest) (hd : decode w = .error e) :
    step s = .next { s with pending := rest, operand := a, status := .illegalCommand, result := w, out := [] } := by
  rw [step_of_pending hp, issue_of_error hd]
  rfl

theorem step_of_reservedWord (hres : ReservedWord w) (hp : s.pending = ⟨w, a⟩ :: rest) :
    step s = .next { s with pending := rest, operand := a, status := .illegalCommand, result := w, out := [] } := by
  cases hd : decode w with
  | ok i => exact absurd ⟨i, hd⟩ (reservedWord_iff.mp hres)
  | error e => exact step_of_illegal_word hp hd

end Steps

/-- Settles O1: a legal word is the word of a well-formed command, and of that one alone. -/
theorem decodeInvertsEncode : Obligations.DecodeInvertsEncode := by
  unfold Obligations.DecodeInvertsEncode
  exact fun i hwf => decode_eq_ok_iff_encode.mpr ⟨hwf, rfl⟩

/-- Settles O2: the other direction of the same equivalence. -/
theorem legalWordsEncodeBack : Obligations.LegalWordsEncodeBack := by
  unfold Obligations.LegalWordsEncodeBack
  exact fun w i h => decode_eq_ok_iff_encode.mp h

/-- Settles O3: rows differ in `OP` or `SEL`, and only a MODE_CONFIG row can fail to be read. -/
theorem legalWordsMatchOneRow : Obligations.LegalWordsMatchOneRow := by
  unfold Obligations.LegalWordsMatchOneRow
  intro w
  refine ⟨exists_decode_iff, ?_, fun r hr h => decode_of_match hr h, fun j k => matching_position_unique⟩
  rintro ⟨i, hi⟩
  obtain ⟨-, rfl⟩ := decode_eq_ok_iff_encode.mp hi
  exact rsvField_encode i

/-- Settles O4: the list of R68 leaves out exactly the legal words, and the step on any other is that of O6. -/
theorem reservedWordsRaiseIllegalCommand : Obligations.ReservedWordsRaiseIllegalCommand := by
  unfold Obligations.ReservedWordsRaiseIllegalCommand
  exact fun w => ⟨reservedWord_iff, fun s a rest hres hp => step_of_reservedWord hres hp⟩

/-- Settles O6: the word is refused before anything else is looked at. -/
theorem illegalWordsChangeNoContext : Obligations.IllegalWordsChangeNoContext := by
  unfold Obligations.IllegalWordsChangeNoContext
  exact fun s w a rest e hp hd => step_of_illegal_word hp hd

end Sys2Proof

/-! PROOFS. The ciphers: each transform of the DES core, of the composite ciphers and of FROG undoes the other. -/

namespace Sys2Proof.Machine

section Undoing

/-! ### Rounds undone in reverse order -/

/-- Rounds are undone by running their inverses in reverse order. `view` is how the undoing rounds see the value: a Feistel
network sees its halves swapped. -/
theorem foldl_reverse_undoes {β γ κ : Type} {P : β → Prop} {round : β → κ → β} {undo : γ → κ → γ} {view : β → γ}
    {ks : List κ} (hkeep : ∀ x k, P x → P (round x k))
    (hundo : ∀ k ∈ ks, ∀ x, P x → undo (view (round x k)) k = view x) {x : β} (hx : P x) :
    ks.reverse.foldl undo (view (ks.foldl round x)) = view x := by
  induction ks generalizing x with
  | nil => rfl
  | cons k ks ih =>
    have hrest : ks.reverse.foldl undo (view (ks.foldl round (round x k))) = view (round x k) :=
      ih (fun k' hk' => hundo k' (List.mem_cons_of_mem _ hk')) (hkeep x k hx)
    rw [List.reverse_cons, List.foldl_concat, List.foldl_cons, hrest]
    exact hundo k List.mem_cons_self x hx

/-- A bytewise map with a second operand is undone bytewise. -/
theorem zipWith_zipWith_cancel {α β : Type} {f g : α → β → α} (h : ∀ a b, g (f a b) b = a) {s : List α} {t : List β}
    (hl : s.length ≤ t.length) : List.zipWith g (List.zipWith f s t) t = s := by
  induction s generalizing t with
  | nil => simp
  | cons a s ih =>
    cases t with
    | nil => simp at hl
    | cons b t => simp [h, ih (by simpa using hl)]

end Undoing

section Des

/-! ### The DES core (41_des.md R91, R92, R108) -/

/-- A table whose entries send every position back through another table undoes that table. -/
theorem permute_permute_cancel {n : Nat} {T U : List Nat} (hT : T.length = n) (hU : U.length = n)
    (h : ∀ j : Fin n, U.getD j 0 - 1 < n ∧ T.getD (U.getD j 0 - 1) 0 - 1 = j) (v : BitVec n) :
    permute n U (permute n T v) = v := by
  refine BitVec.eq_of_getMsbD_eq fun j hj => ?_
  obtain ⟨hlt, hback⟩ := h ⟨j, hj⟩
  rw [getMsbD_permute hU _ hj, getMsbD_permute hT _ hlt, hback]

theorem permute_FP_permute_IP (v : BitVec 64) : permute 64 tableFP (permute 64 tableIP v) = v :=
  permute_permute_cancel (by decide) (by decide) (by decide) v

theorem permute_IP_permute_FP (v : BitVec 64) : permute 64 tableIP (permute 64 tableFP v) = v :=
  permute_permute_cancel (by decide) (by decide) (by decide) v

/-- The round step applied to the swapped result takes the round back (R102). -/
theorem desRound_swap_desRound (lr : BitVec 32 × BitVec 32) (k : BitVec 48) :
    desRound (desRound lr k).swap k = lr.swap := by
  simp [desRound, Prod.swap]

theorem foldl_desRound_reverse (keys : List (BitVec 48)) (lr : BitVec 32 × BitVec 32) :
    keys.reverse.foldl desRound (keys.foldl desRound lr).swap = lr.swap :=
  foldl_reverse_undoes (P := fun _ => True) (view := Prod.swap) (fun _ _ _ => trivial)
    (fun k _ lr _ => desRound_swap_desRound lr k) trivial

/-- The halves `L` (bits 63:32) and `R` (bits 31:0) of a 64-bit value (R103). -/
def wordHalves (v : BitVec 64) : BitVec 32 × BitVec 32 := (v.extractLsb' 32 32, v.extractLsb' 0 32)

/-- `{L, R}` (R103). -/
def joinWords (lr : BitVec 32 × BitVec 32) : BitVec 64 := lr.1 ++ lr.2

@[simp] theorem joinWords_wordHalves (v : BitVec 64) : joinWords (wordHalves v) = v := by
  simp (disch := decide) only [joinWords, wordHalves, BitVec.extractLsb'_append_extractLsb'_eq_extractLsb',
    BitVec.extractLsb'_eq_self]

@[simp] theorem wordHalves_joinWords (lr : BitVec 32 × BitVec 32) : wordHalves (joinWords lr) = lr := by
  simp (disch := decide) only [joinWords, wordHalves, BitVec.extractLsb'_append_eq_of_le,
    BitVec.extractLsb'_append_eq_of_add_le, Nat.reduceSub, BitVec.extractLsb'_eq_self]

theorem desDatapath_eq (keys : List (BitVec 48)) (x : BitVec 64) :
    desDatapath keys x
      = permute 64 tableFP (joinWords (keys.foldl desRound (wordHalves (permute 64 tableIP x))).swap) := rfl

/-- The datapath with the subkeys in reverse order undoes the datapath: between the two runs FP and IP cancel. -/
theorem desDatapath_reverse (keys : List (BitVec 48)) (x : BitVec 64) :
    desDatapath keys.reverse (desDatapath keys x) = x := by
  rw [desDatapath_eq, desDatapath_eq, permute_IP_permute_FP, wordHalves_joinWords, foldl_desRound_reverse,
    Prod.swap_swap, joinWords_wordHalves, permute_FP_permute_IP]

theorem desCore_reverse (ks : DesSchedule) (order : List (Fin 16)) {x : ByteSeq} (hx : x.length = 8) :
    desCore ks (desCore ks x order) order.reverse = x := by
  rw [desCore, desCore, be64_bytesBe64, List.map_reverse, desDatapath_reverse, bytesBe64_be64 hx]

/-- DES decryption undoes encryption for every schedule, derived from a key or not (R108). -/
theorem desDecrypt_desEncrypt (ks : DesSchedule) {x : ByteSeq} (hx : x.length = 8) :
    desDecrypt ks (desEncrypt ks x) = x := desCore_reverse ks _ hx

theorem desEncrypt_desDecrypt (ks : DesSchedule) {x : ByteSeq} (hx : x.length = 8) :
    desEncrypt ks (desDecrypt ks x) = x := by
  have h := desCore_reverse ks (List.finRange 16).reverse hx
  rwa [List.reverse_reverse] at h

end Des

section Composite

/-! ### The composite ciphers (42_composite.md R114, R118) -/

theorem tdesDecrypt_tdesEncrypt (ks : DesFile) {x : ByteSeq} (hx : x.length = 8) :
    tdesDecrypt ks (tdesEncrypt ks x) = x := by
  simp [tdesDecrypt, tdesEncrypt, desDecrypt_desEncrypt, desEncrypt_desDecrypt, hx]

theorem tdesEncrypt_tdesDecrypt (ks : DesFile) {x : ByteSeq} (hx : x.length = 8) :
    tdesEncrypt ks (tdesDecrypt ks x) = x := by
  simp [tdesDecrypt, tdesEncrypt, desDecrypt_desEncrypt, desEncrypt_desDecrypt, hx]

/-- Both halves of a FEISTEL6 block have 8 bytes. -/
def HalfBlocks (lr : ByteSeq × ByteSeq) : Prop := lr.1.length = 8 ∧ lr.2.length = 8

theorem halfBlocks_f6Round {lr : ByteSeq × ByteSeq} (h : HalfBlocks lr) (ks : DesSchedule) :
    HalfBlocks (f6Round lr ks) :=
  f6Rounds_length [ks] h.1 h.2

/-- The halves `L` and `R` of a FEISTEL6 block (R116). -/
def blockHalves (x : ByteSeq) : ByteSeq × ByteSeq := (x.take 8, x.drop 8)

theorem halfBlocks_blockHalves {x : ByteSeq} (hx : x.length = 16) : HalfBlocks (blockHalves x) := by
  simp [HalfBlocks, blockHalves, hx]

theorem blockHalves_append {lr : ByteSeq × ByteSeq} (h : HalfBlocks lr) : blockHalves (lr.1 ++ lr.2) = lr := by
  rw [blockHalves, List.take_left' h.1, List.drop_left' h.1]

theorem f6Round_swap_f6Round {lr : ByteSeq × ByteSeq} (h : HalfBlocks lr) (ks : DesSchedule) :
    f6Round (f6Round lr ks).swap ks = lr.swap := by
  obtain ⟨hl, -⟩ := h
  have hcancel : xorBytes (xorBytes lr.1 (desEncrypt ks lr.2)) (desEncrypt ks lr.2) = lr.1 :=
    xorBytes_cancel (by simp [hl])
  simp [f6Round, Prod.swap, hcancel]

theorem f6Datapath_eq (kss : List DesSchedule) (x : ByteSeq) :
    f6Datapath kss x = (kss.foldl f6Round (blockHalves x)).swap.1 ++ (kss.foldl f6Round (blockHalves x)).swap.2 := rfl

/-- The datapath with the schedules in reverse order undoes the datapath (R117, R118). -/
theorem f6Datapath_reverse (kss : List DesSchedule) {x : ByteSeq} (hx : x.length = 16) :
    f6Datapath kss.reverse (f6Datapath kss x) = x := by
  have hsplit := halfBlocks_blockHalves hx
  have hrounds : kss.reverse.foldl f6Round (kss.foldl f6Round (blockHalves x)).swap = (blockHalves x).swap :=
    foldl_reverse_undoes (fun _ ks h => halfBlocks_f6Round h ks) (fun ks _ _ h => f6Round_swap_f6Round h ks) hsplit
  have hout : HalfBlocks (kss.foldl f6Round (blockHalves x)).swap := (f6Rounds_length kss hsplit.1 hsplit.2).symm
  rw [f6Datapath_eq, f6Datapath_eq, blockHalves_append hout, hrounds]
  exact List.take_append_drop 8 x

theorem f6Decrypt_f6Encrypt (ks : DesFile) {x : ByteSeq} (hx : x.length = 16) : f6Decrypt ks (f6Encrypt ks x) = x := by
  rw [f6Decrypt, f6Encrypt, List.map_reverse, f6Datapath_reverse _ hx]

theorem f6Encrypt_f6Decrypt (ks : DesFile) {x : ByteSeq} (hx : x.length = 16) : f6Encrypt ks (f6Decrypt ks x) = x := by
  have h := f6Datapath_reverse ((List.finRange 6).map ks.get).reverse hx
  rwa [List.reverse_reverse, ← List.map_reverse] at h

end Composite

section Frog

/-! ### FROG (43_frog.md R125, R126, R129) -/

/-- What the inverse table holds for a byte: the position of the byte in the table (R125). -/
theorem toNat_lookup_invertTable {t : Vector Byte 256} (h : t.toList.Nodup) (v : Byte) :
    (lookup (invertTable t) v).toNat = t.toList.idxOf v := by
  have hlt := List.idxOf_lt_length_of_mem (mem_of_nodup h v)
  rw [Vector.length_toList] at hlt
  simp only [lookup, invertTable, Vector.get_ofFn, BitVec.val_toFin, BitVec.ofNat_toNat, BitVec.setWidth_eq,
    BitVec.toNat_ofNat]
  exact Nat.mod_eq_of_lt hlt

theorem lookup_eq_getElem_toList (t : Vector Byte 256) (v : Byte) :
    lookup t v = t.toList[v.toNat]'(by simpa using v.isLt) := rfl

theorem lookup_invertTable_lookup {t : Vector Byte 256} (h : t.toList.Nodup) (v : Byte) :
    lookup (invertTable t) (lookup t v) = v := by
  apply BitVec.eq_of_toNat_eq
  rw [toNat_lookup_invertTable h, lookup_eq_getElem_toList, h.idxOf_getElem]

theorem lookup_lookup_invertTable {t : Vector Byte 256} (h : t.toList.Nodup) (v : Byte) :
    lookup t (lookup (invertTable t) v) = v := by
  simp only [lookup_eq_getElem_toList t, toNat_lookup_invertTable h, List.getElem_idxOf]

theorem zipWith_xor_absorbFrom (p : Byte) (x : ByteSeq) :
    List.zipWith (· ^^^ ·) (absorbFrom p x) (p :: absorbFrom p x) = x := by
  induction x generalizing p with
  | nil => rfl
  | cons x rest ih => simp [absorbFrom, ih]

theorem absorbFrom_zipWith_xor (p : Byte) (x : ByteSeq) : absorbFrom p (List.zipWith (· ^^^ ·) x (p :: x)) = x := by
  induction x generalizing p with
  | nil => rfl
  | cons x rest ih => simp [absorbFrom, ih]

/-- `Undiffuse` undoes `Diffuse` (R126). On one byte it does not: there the wraparound XORs the byte with itself. -/
theorem undiffuse_diffuse {x : ByteSeq} (hx : 1 < x.length) : undiffuse (diffuse x) = x := by
  cases x with
  | nil => simp at hx
  | cons a rest =>
    have hne : absorbFrom a rest ≠ [] := List.ne_nil_of_length_pos (by simpa [absorbFrom_length] using hx)
    simp [diffuse, undiffuse, List.getLast_cons hne, zipWith_xor_absorbFrom]

theorem diffuse_undiffuse {x : ByteSeq} (hx : 1 < x.length) : diffuse (undiffuse x) = x := by
  cases x with
  | nil => simp at hx
  | cons a rest =>
    have hne : rest ≠ [] := List.ne_nil_of_length_pos (by simpa using hx)
    simp [diffuse, undiffuse, List.getLast_cons hne, absorbFrom_zipWith_xor]

/-- A decryption round with the inverse record (R122, R128). -/
theorem frogDecRound_invertRecord (x : ByteSeq) (k : FrogRecord) :
    frogDecRound x (invertRecord k)
      = List.zipWith (fun v key => lookup (invertTable k.st) v ^^^ key) (undiffuse x) k.xv.toList := by
  rw [frogDecRound, invertRecord]

theorem frogDecRound_frogEncRound {k : FrogRecord} (hk : k.TableIsPermutation) {x : ByteSeq} (hx : x.length = 16) :
    frogDecRound (frogEncRound x k) (invertRecord k) = x := by
  rw [frogDecRound_invertRecord, frogEncRound, undiffuse_diffuse (by simp [hx])]
  exact zipWith_zipWith_cancel (fun v key => by simp [lookup_invertTable_lookup hk]) (by simp [hx])

theorem frogEncRound_frogDecRound {k : FrogRecord} (hk : k.TableIsPermutation) {x : ByteSeq} (hx : x.length = 16) :
    frogEncRound (frogDecRound x (invertRecord k)) k = x := by
  rw [frogDecRound_invertRecord, frogEncRound, zipWith_zipWith_cancel, diffuse_undiffuse (by simp [hx])]
  · exact fun v key => by simp [lookup_lookup_invertTable hk]
  · simp [hx]

/-- The inverse records are the forward ones inverted, in reverse order (R122). -/
theorem toList_frogInverse (rk : FrogFile) : (frogInverse rk).toList = rk.toList.reverse.map invertRecord := by
  refine List.ext_getElem (by simp) fun i h₁ h₂ => ?_
  simp [frogInverse, Vector.get_eq_getElem, Fin.rev]

theorem frogDecrypt_frogInverse (rk : FrogFile) (x : ByteSeq) :
    frogDecrypt (frogInverse rk) x = rk.toList.reverse.foldl (fun x k => frogDecRound x (invertRecord k)) x := by
  rw [frogDecrypt, toList_frogInverse, List.foldl_map]

theorem tableIsPermutation_of_mem {rk : FrogFile} (hrk : ∀ r : Fin 8, (rk.get r).TableIsPermutation) {k : FrogRecord}
    (hk : k ∈ rk.toList) : k.TableIsPermutation := by
  obtain ⟨r, hr, rfl⟩ := List.getElem_of_mem hk
  exact hrk ⟨r, by simpa using hr⟩

variable {rk : FrogFile} (hrk : ∀ r : Fin 8, (rk.get r).TableIsPermutation) {x : ByteSeq} (hx : x.length = 16)
include hrk hx

/-- FROG decryption with the inverted records undoes encryption, whenever the tables are permutations (R129). -/
theorem frogDecrypt_frogEncrypt : frogDecrypt (frogInverse rk) (frogEncrypt rk x) = x := by
  rw [frogDecrypt_frogInverse, frogEncrypt]
  refine foldl_reverse_undoes (view := fun x => x) (P := fun x => x.length = 16) ?_ ?_ hx
  · exact fun _ k h => frogEncRound_length h k
  · exact fun k hk _ h => frogDecRound_frogEncRound (tableIsPermutation_of_mem hrk hk) h

theorem frogEncrypt_frogDecrypt : frogEncrypt rk (frogDecrypt (frogInverse rk) x) = x := by
  rw [frogDecrypt_frogInverse, frogEncrypt]
  have h := foldl_reverse_undoes (view := fun x => x) (P := fun x => x.length = 16) (ks := rk.toList.reverse)
    (round := fun x k => frogDecRound x (invertRecord k)) (undo := frogEncRound)
    (fun _ k h => frogDecRound_length h (invertRecord k))
    (fun k hk _ h => frogEncRound_frogDecRound (tableIsPermutation_of_mem hrk (List.mem_reverse.mp hk)) h) hx
  rwa [List.reverse_reverse] at h

end Frog

section Dispatcher

/-! ### The dispatcher (40_interface.md R84, R87) -/

/-- The FROG files of a loaded context: the inverse file inverts the forward one, whose tables are permutations
(10_state.md R24, R26). -/
theorem CipherContext.KeysDerived.frogFiles {c : CipherContext} (hk : c.KeysDerived) (hs : c.sel = .frog) :
    c.frogIrk = frogInverse c.frogRk ∧ ∀ r : Fin 8, (c.frogRk.get r).TableIsPermutation := by
  simp only [KeysDerived, hs] at hk
  obtain ⟨hrk, hirk⟩ := hk
  rw [hirk, hrk]
  exact ⟨rfl, tableIsPermutation_frogForward _⟩

variable {c : CipherContext} {x : ByteSeq} (hk : c.KeysDerived) (hx : x.length = blockSize c.sel)
include hk hx

theorem decrypt_encrypt : decrypt c (encrypt c x) = x := by
  rw [decrypt, encrypt]
  cases hs : c.sel with
  | des => exact desDecrypt_desEncrypt _ (by rw [hx, hs, blockSize])
  | tdes => exact tdesDecrypt_tdesEncrypt _ (by rw [hx, hs, blockSize])
  | feistel6 => exact f6Decrypt_f6Encrypt _ (by rw [hx, hs, blockSize])
  | frog =>
    obtain ⟨hirk, hrk⟩ := hk.frogFiles hs
    rw [hirk]
    exact frogDecrypt_frogEncrypt hrk (by rw [hx, hs, blockSize])

theorem encrypt_decrypt : encrypt c (decrypt c x) = x := by
  rw [decrypt, encrypt]
  cases hs : c.sel with
  | des => exact desEncrypt_desDecrypt _ (by rw [hx, hs, blockSize])
  | tdes => exact tdesEncrypt_tdesDecrypt _ (by rw [hx, hs, blockSize])
  | feistel6 => exact f6Encrypt_f6Decrypt _ (by rw [hx, hs, blockSize])
  | frog =>
    obtain ⟨hirk, hrk⟩ := hk.frogFiles hs
    rw [hirk]
    exact frogEncrypt_frogDecrypt hrk (by rw [hx, hs, blockSize])

end Dispatcher

/-- Settles O20: the round keys of a loaded context are the derived ones, and then each cipher's two transforms undo each
other. -/
theorem loadedCiphersInvert : Obligations.LoadedCiphersInvert := by
  unfold Obligations.LoadedCiphersInvert
  rintro c x ⟨-, hloaded⟩ hv hx
  obtain ⟨-, hk⟩ := hloaded hv
  exact ⟨decrypt_encrypt hk hx, encrypt_decrypt hk hx⟩

end Sys2Proof.Machine

/-! PROOFS. The cipher interface: what LOAD_KEY, the two queries and the block commands answer, and the frame of the
commands. -/

namespace Sys2Proof.Machine

open Host (Outcome)

section LoadKey

/-! ### LOAD_KEY (40_interface.md R77 to R79) -/

theorem keyLenOk_le {sel : CipherSel} {n : Nat} (h : keyLenOk sel n = true) : n ≤ 125 := by
  cases sel <;> simp [keyLenOk] at h <;> omega

variable {sel : CipherSel} {s : State}

theorem loadKey_of_legal (hk : keyLenOk sel s.operand.length = true) :
    loadKey sel s = .next (finish [] 0 { s with cipher := loadedContext sel s.operand }) := by
  have hle : s.operand.length ≤ Config.maxLen := by
    have hmin := minimum_le_maxLen
    have hlen := keyLenOk_le hk
    omega
  rw [loadKey, withOperand_of_le hle, if_pos hk, succeed_eq]

theorem loadKey_of_illegal (ha : s.operand.length ≤ Config.maxLen) (hk : keyLenOk sel s.operand.length = false) :
    loadKey sel s = .next (raise .keyLength s) := by
  rw [loadKey, withOperand_of_le ha, if_neg (by simp [hk]), fail_eq]

theorem loadedContext_tdes_desKs_get {k : ByteSeq} (hk : k.length = 24) :
    (loadedContext .tdes k).desKs.get 0 = desKeySchedule (k.take 8)
    ∧ (loadedContext .tdes k).desKs.get 1 = desKeySchedule ((k.drop 8).take 8)
    ∧ (loadedContext .tdes k).desKs.get 2 = desKeySchedule (k.drop 16) := by
  have hlast : (k.drop 16).take 8 = k.drop 16 := List.take_of_length_le (by simp [hk])
  have hks := loadedContext_keysDerived .tdes k
  rw [← hlast]
  exact hks

theorem loadedContext_feistel6_desKs_get {k : ByteSeq} (hk : k.length = 16) (r : Fin 6) :
    (loadedContext .feistel6 k).desKs.get r = desKeySchedule (if r.val % 2 = 0 then k.take 8 else k.drop 8) := by
  have hlast : (k.drop 8).take 8 = k.drop 8 := List.take_of_length_le (by simp [hk])
  rw [loadedContext_feistel6_desKs, f6KeySchedule, Vector.get_ofFn, hlast]

end LoadKey

/-- Settles O17: `keyLenOk` is the list of legal lengths, and `loadedContext` the context the statement asks for. -/
theorem loadKeyDerivesAndStoresTheRoundKeys : Obligations.LoadKeyDerivesAndStoresTheRoundKeys := by
  unfold Obligations.LoadKeyDerivesAndStoresTheRoundKeys
  intro s loads k
  refine ⟨fun hk => ?_, fun hk => ?_, fun hk => ?_, fun hlo hhi => ?_, fun ha => ?_, fun ha sel => ?_⟩
  · exact ⟨loadedContext .des k, ⟨loadKey_of_legal (by simp [keyLenOk, k, hk]), rfl, rfl⟩, rfl,
      loadedContext_keysDerived .des k⟩
  · exact ⟨loadedContext .tdes k, ⟨loadKey_of_legal (by simp [keyLenOk, k, hk]), rfl, rfl⟩, rfl,
      loadedContext_tdes_desKs_get hk⟩
  · exact ⟨loadedContext .feistel6 k, ⟨loadKey_of_legal (by simp [keyLenOk, k, hk]), rfl, rfl⟩, rfl,
      loadedContext_feistel6_desKs_get hk⟩
  · exact ⟨loadedContext .frog k, ⟨loadKey_of_legal (by simp [keyLenOk, k, hlo, hhi]), rfl, rfl⟩, rfl, rfl, rfl⟩
  · refine ⟨fun hk => ?_, fun hk => ?_, fun hk => ?_, fun hk => ?_⟩
    · exact loadKey_of_illegal (sel := .des) ha (by simpa [keyLenOk] using hk)
    · exact loadKey_of_illegal (sel := .tdes) ha (by simpa [keyLenOk] using hk)
    · exact loadKey_of_illegal (sel := .feistel6) ha (by simpa [keyLenOk] using hk)
    · exact loadKey_of_illegal (sel := .frog) ha (by simpa [keyLenOk, or_iff_not_imp_left] using hk)
  · rw [exec_loadKeyInstr]
    exact withOperand_of_gt ha _

/-- Two commands that complete and answer alike end with the same status, result and output. -/
theorem AnswerAlike.of_next {t t' : State} (h : AnswerAlike (.next t) (.next t')) :
    t.status = t'.status ∧ t.result = t'.result ∧ t.out = t'.out := by
  obtain ⟨u, u', hu, hu', hanswer⟩ := h
  obtain rfl := Outcome.next.inj hu
  obtain rfl := Outcome.next.inj hu'
  exact hanswer

/-- Settles O18: both runs answer alike, and the context a successful one leaves is made from the key alone. -/
theorem loadKeyReplacesTheOldKeyInFull : Obligations.LoadKeyReplacesTheOldKeyInFull := by
  unfold Obligations.LoadKeyReplacesTheOldKeyInFull
  intro sel s s' t t' ha h h'
  rw [exec_loadKeyInstr] at h h'
  have halike := loadKey_answersAlike ha sel
  rw [h, h'] at halike
  obtain ⟨hstatus, -, -⟩ := halike.of_next
  obtain ⟨hc, -⟩ := loadKey_contexts h
  obtain ⟨hc', -⟩ := loadKey_contexts h'
  exact ⟨hstatus, fun hok => by rw [hc, hc', if_pos hok, if_pos (hstatus ▸ hok), ha]⟩

/-- Settles O55: each of the three ends of LOAD_KEY is such an update. -/
theorem loadKeyKeepsEverythingElse : Obligations.LoadKeyKeepsEverythingElse := by
  unfold Obligations.LoadKeyKeepsEverythingElse
  intro sel s t h
  rw [exec_loadKeyInstr] at h
  obtain ⟨-, -, rfl⟩ | ⟨-, -, rfl⟩ | ⟨-, rfl⟩ := loadKey_cases h
  · exact ⟨rfl, fun hne => absurd rfl hne⟩
  · exact ⟨rfl, fun _ => rfl⟩
  · exact ⟨rfl, fun _ => rfl⟩

section Queries

/-! ### The two queries (R81 to R83) -/

theorem exec_getBlockSize (s : State) :
    exec .getBlockSize s = withCipher s fun c => succeed [] (BitVec.ofNat 32 (blockSize c.sel)) s := rfl

theorem exec_getKeySize (s : State) :
    exec .getKeySize s = withCipher s fun c => succeed [] (BitVec.ofNat 32 (keySize c.sel)) s := rfl

theorem blockSize_word (sel : CipherSel) :
    BitVec.ofNat 32 (blockSize sel) = if sel = .des ∨ sel = .tdes then 8 else 16 := by
  cases sel <;> rfl

theorem keySize_word (sel : CipherSel) :
    BitVec.ofNat 32 (keySize sel) = if sel = .des then 8 else if sel = .tdes then 24 else 16 := by
  cases sel <;> rfl

end Queries

/-- Settles O15: the query answers the size as a word. -/
theorem getBlockSizeReportsTheBlockSize : Obligations.GetBlockSizeReportsTheBlockSize := by
  unfold Obligations.GetBlockSizeReportsTheBlockSize
  refine ⟨by decide, fun s => ⟨fun hv => ?_, fun hv => ?_⟩⟩
  · rw [exec_getBlockSize, withCipher_of_valid hv, succeed_eq, blockSize_word, finish]
  · rw [exec_getBlockSize, withCipher_of_invalid hv, raise, Cause.status, Cause.info]

/-- Settles O16: the query answers the nominal size as a word. -/
theorem getKeySizeReportsTheNominalKeySize : Obligations.GetKeySizeReportsTheNominalKeySize := by
  unfold Obligations.GetKeySizeReportsTheNominalKeySize
  refine ⟨by decide, fun s => ⟨fun hv => ?_, fun hv => ?_⟩⟩
  · rw [exec_getKeySize, withCipher_of_valid hv, succeed_eq, keySize_word, finish]
  · rw [exec_getKeySize, withCipher_of_invalid hv, raise, Cause.status, Cause.info]

section BlockCommands

/-! ### The block commands (R85, R86) -/

variable {f : CipherContext → ByteSeq → ByteSeq} {s : State}

theorem lengthWord_blockSize (sel : CipherSel) : lengthWord (blockSize sel) = BitVec.ofNat 32 (blockSize sel) :=
  lengthWord_of_lt (by cases sel <;> decide)

theorem blockCommand_of_block (hf : (f s.cipher s.operand).length = blockSize s.cipher.sel)
    (hv : s.cipher.valid = true) (hb : s.operand.length = blockSize s.cipher.sel) :
    blockCommand f s
      = .next (finish (f s.cipher s.operand) (BitVec.ofNat 32 (blockSize s.cipher.sel)) s) := by
  have ha : s.operand.length ≤ Config.maxLen := hb.trans_le (blockSize_le_maxLen _)
  rw [blockCommand, withOperand_of_le ha, withCipher_of_valid hv, withBlock_of_eq hb, succeed_eq, hf,
    lengthWord_blockSize]

theorem blockCommand_of_noCipher (ha : s.operand.length ≤ Config.maxLen) (hv : s.cipher.valid = false) :
    blockCommand f s = .next (raise .noCipher s) := by
  rw [blockCommand, withOperand_of_le ha, withCipher_of_invalid hv]

theorem blockCommand_of_wrongLength (ha : s.operand.length ≤ Config.maxLen) (hv : s.cipher.valid = true)
    (hb : s.operand.length ≠ blockSize s.cipher.sel) : blockCommand f s = .next (raise .blockLength s) := by
  rw [blockCommand, withOperand_of_le ha, withCipher_of_valid hv, withBlock_of_ne hb]

/-- ENCRYPT_BLOCK and DECRYPT_BLOCK are one command with the two transforms. -/
theorem exec_eq_blockCommand {i : Instr} (h : i ∈ [Instr.encryptBlock, .decryptBlock]) (s : State) :
    ∃ f, exec i s = blockCommand f s := by
  simp only [List.mem_cons, List.not_mem_nil, or_false] at h
  obtain rfl | rfl := h
  · exact ⟨encrypt, rfl⟩
  · exact ⟨decrypt, rfl⟩

end BlockCommands

/-- Settles O19: the transforms keep the length, and the checks of `blockCommand` are those of the statement. -/
theorem blockCommandsTransformOneBlock : Obligations.BlockCommandsTransformOneBlock := by
  unfold Obligations.BlockCommandsTransformOneBlock
  refine ⟨by decide, by decide, fun s => ⟨fun hv hb => ?_, fun i hi ha => ?_⟩⟩
  · have henc := encrypt_length hb
    have hdec := decrypt_length hb
    exact ⟨blockCommand_of_block henc hv hb, blockCommand_of_block hdec hv hb, henc, hdec⟩
  · obtain ⟨f, hf⟩ := exec_eq_blockCommand hi s
    rw [hf]
    exact ⟨blockCommand_of_noCipher ha, blockCommand_of_wrongLength ha⟩

section Frame

/-! ### The frame of the commands that only answer -/

/-- Besides the result registers only the position in the entropy source may differ, by `n` bytes or not at all. -/
def AnswersDrawing (n : Nat) (s t : State) : Prop :=
  t = { s with status := t.status, result := t.result, out := t.out, entropyPos := t.entropyPos }
  ∧ (t.entropyPos = s.entropyPos ∨ t.entropyPos = s.entropyPos + n)

variable {n : Nat} {s t : State}

theorem AnswersDrawing.raise (n : Nat) (c : Cause) (s : State) : AnswersDrawing n s (raise c s) := ⟨rfl, .inl rfl⟩

theorem AnswersDrawing.finish (n : Nat) (y : ByteSeq) (r : Word) (s : State) : AnswersDrawing n s (finish y r s) :=
  ⟨rfl, .inl rfl⟩

theorem AnswersDrawing.finish_drawn (n : Nat) (y : ByteSeq) (r : Word) (s : State) :
    AnswersDrawing n s (Machine.finish y r { s with entropyPos := s.entropyPos + n }) := ⟨rfl, .inr rfl⟩

theorem AnswersDrawing.entropyPos_eq (h : AnswersDrawing n s t) (hn : n = 0) : t.entropyPos = s.entropyPos := by
  obtain ⟨-, hpos⟩ := h
  omega

theorem query_answersDrawing {q : CipherContext → Word} (h : (withCipher s fun c => succeed [] (q c) s) = .next t) :
    AnswersDrawing 0 s t := by
  obtain ⟨-, h⟩ | ⟨-, rfl⟩ := withCipher_cases h
  · obtain rfl := Outcome.next.inj h
    exact .finish ..
  · exact .raise ..

theorem blockCommand_answersDrawing {f : CipherContext → ByteSeq → ByteSeq} (h : blockCommand f s = .next t) :
    AnswersDrawing 0 s t := by
  obtain ⟨-, -, -, rfl⟩ | ⟨-, -, -, rfl⟩ | ⟨-, -, rfl⟩ | ⟨-, rfl⟩ := blockCommand_cases h
  · exact .finish ..
  · exact .raise ..
  · exact .raise ..
  · exact .raise ..

theorem padAdd_answersDrawing {p : PadScheme} {bs : Nat} (h : padAdd p bs s = .next t) :
    AnswersDrawing (bytesDrawn p s.operand bs) s t := by
  obtain ⟨-, -, -, rfl⟩ | ⟨-, -, -, rfl⟩ | ⟨-, -, rfl⟩ | ⟨-, rfl⟩ := padAdd_cases h
  · exact .finish_drawn ..
  · exact .raise ..
  · exact .raise ..
  · exact .raise ..

theorem padRemove_answersDrawing {p : PadScheme} {bs : Nat} (h : padRemove p bs s = .next t) :
    AnswersDrawing 0 s t := by
  obtain ⟨k, -, -, -, rfl⟩ | ⟨c, -, -, -, rfl⟩ | ⟨-, -, rfl⟩ | ⟨-, rfl⟩ := padRemove_cases h
  · exact .finish ..
  · exact .raise ..
  · exact .raise ..
  · exact .raise ..

theorem modeEncrypt_answersDrawing (h : execModeEncrypt s = .next t) :
    AnswersDrawing (modeBytesDrawn s.mode s.operand) s t := by
  obtain ⟨y, -, -, -, -, rfl⟩ | ⟨y, -, -, -, -, rfl⟩ | ⟨c, -, -, -, rfl⟩ | ⟨-, -, rfl⟩ | ⟨-, rfl⟩ :=
    modeEncrypt_cases h
  · exact .finish_drawn ..
  · exact .raise ..
  · exact .raise ..
  · exact .raise ..
  · exact .raise ..

theorem modeDecrypt_answersDrawing (h : execModeDecrypt s = .next t) : AnswersDrawing 0 s t := by
  obtain ⟨y, -, -, -, rfl⟩ | ⟨c, -, -, -, rfl⟩ | ⟨-, -, rfl⟩ | ⟨-, rfl⟩ := modeDecrypt_cases h
  · exact .finish ..
  · exact .raise ..
  · exact .raise ..
  · exact .raise ..

/-- Only RANDOM draws (44_padding.md R134). -/
theorem bytesDrawn_of_ne {p : PadScheme} (hp : p ≠ .random) (a : ByteSeq) (b : Nat) : bytesDrawn p a b = 0 := by
  cases p with
  | random => exact absurd rfl hp
  | _ => rfl

theorem modeBytesDrawn_of_not_random {c : ModeContext}
    (hc : ¬(ModeSel.needsPadding c.sel = true ∧ c.pad = some .random)) (a : ByteSeq) : modeBytesDrawn c a = 0 := by
  obtain ⟨valid, sel, pad, iv, seed, cipher⟩ := c
  cases sel with
  | stream m => rfl
  | padded m =>
    cases pad with
    | none => rfl
    | some p => exact bytesDrawn_of_ne (by rintro rfl; exact hc ⟨rfl, rfl⟩) ..

/-- The bytes of entropy that a successful command draws (44_padding.md R134, 45_modes.md R148). -/
def drawnBy (i : Instr) (s : State) : Nat :=
  match i with
  | .padAddRandom bs => bytesDrawn .random s.operand bs
  | .modeEncrypt => modeBytesDrawn s.mode s.operand
  | _ => 0

theorem drawnBy_padAddInstr (p : PadScheme) (bs : Nat) (s : State) :
    drawnBy (padAddInstr p bs) s = bytesDrawn p s.operand bs := by
  cases p <;> rfl

theorem drawnBy_padRemoveInstr (p : PadScheme) (bs : Nat) (s : State) : drawnBy (padRemoveInstr p bs) s = 0 := by
  cases p <;> rfl

theorem drawnBy_eq_zero {i : Instr} (hp : ∀ bs, i ≠ .padAddRandom bs)
    (hr : ¬(i = .modeEncrypt ∧ ModeSel.needsPadding s.mode.sel = true ∧ s.mode.pad = some .random)) :
    drawnBy i s = 0 := by
  cases i with
  | padAddRandom bs => exact absurd rfl (hp bs)
  | modeEncrypt => exact modeBytesDrawn_of_not_random (fun h => hr ⟨rfl, h⟩) _
  | _ => rfl

end Frame

/-- Settles O54: the frame of each command, with the entropy that it may draw. -/
theorem answeringCommandsKeepTheContexts : Obligations.AnsweringCommandsKeepTheContexts := by
  unfold Obligations.AnsweringCommandsKeepTheContexts
  intro i s t h hi
  have hanswer : AnswersDrawing (drawnBy i s) s t := by
    simp only [List.mem_cons, List.not_mem_nil, or_false] at hi
    obtain (rfl | rfl | rfl | rfl | rfl | rfl | rfl) | ⟨p, bs, rfl⟩ | ⟨p, bs, rfl⟩ := hi
    · obtain rfl := Outcome.next.inj h
      exact .finish ..
    · exact query_answersDrawing (exec_getBlockSize s ▸ h)
    · exact query_answersDrawing (exec_getKeySize s ▸ h)
    · exact blockCommand_answersDrawing (f := encrypt) h
    · exact blockCommand_answersDrawing (f := decrypt) h
    · exact modeEncrypt_answersDrawing h
    · exact modeDecrypt_answersDrawing h
    · rw [drawnBy_padAddInstr]
      exact padAdd_answersDrawing (exec_padAddInstr p bs s ▸ h)
    · rw [drawnBy_padRemoveInstr]
      exact padRemove_answersDrawing (exec_padRemoveInstr p bs s ▸ h)
  exact ⟨hanswer.1, fun hp hr => hanswer.entropyPos_eq (drawnBy_eq_zero hp hr)⟩

end Sys2Proof.Machine

/-! PROOFS. The DES core beyond its inversion: the key rotations, the bits of a key that do not matter, the complement of key
and block, and equal subkeys. -/

namespace Sys2Proof.Machine

section Selection

/-! ### What a table selects (41_des.md R90) -/

variable {n m : Nat} {table : List Nat}

/-- A table looks at the bits that it names and at no others. -/
theorem permute_congr (hm : table.length = m) {v w : BitVec n}
    (h : ∀ j < m, v.getMsbD (table.getD j 0 - 1) = w.getMsbD (table.getD j 0 - 1)) :
    permute m table v = permute m table w := by
  refine BitVec.eq_of_getMsbD_eq fun j hj => ?_
  rw [getMsbD_permute hm _ hj, getMsbD_permute hm _ hj, h j hj]

/-- Every bit of the result is a bit of the value when no entry points outside it, so complementing commutes. -/
theorem permute_not (hm : table.length = m) (hr : ∀ j : Fin m, table.getD j 0 - 1 < n) (v : BitVec n) :
    permute m table (~~~v) = ~~~permute m table v := by
  refine BitVec.eq_of_getMsbD_eq fun j hj => ?_
  rw [BitVec.getMsbD_not, getMsbD_permute hm _ hj, getMsbD_permute hm _ hj, BitVec.getMsbD_not]
  simp only [hj, hr ⟨j, hj⟩, decide_true, Bool.true_and]

theorem permute_zero (hm : table.length = m) : permute m table (0 : BitVec n) = 0 := by
  refine BitVec.eq_of_getMsbD_eq fun j hj => ?_
  simp [getMsbD_permute hm _ hj]

theorem extractLsb'_not {start len : Nat} (h : start + len ≤ n) (v : BitVec n) :
    (~~~v).extractLsb' start len = ~~~v.extractLsb' start len := by
  refine BitVec.eq_of_getLsbD_eq fun i hi => ?_
  have hin : start + i < n := by omega
  simp [hi, hin]

end Selection

section Rotations

/-! ### The key rotations (R99, R100) -/

/-- `rotl28` is the rotation, for every amount up to the full circle. -/
theorem getMsbD_rotl28 (x : BitVec 28) {s : Nat} (hs : s ≤ 28) {i : Nat} (hi : i < 28) :
    (rotl28 x s).getMsbD i = x.getMsbD ((s + i) % 28) := by
  rw [rotl28, BitVec.getMsbD_or, BitVec.getMsbD_shiftLeft, BitVec.getMsbD_ushiftRight]
  by_cases hwrap : s + i < 28
  · have hlt : i < 28 - s := by omega
    simp [hlt, Nat.mod_eq_of_lt hwrap, Nat.add_comm]
  · have hmod : (s + i) % 28 = i - (28 - s) := by omega
    have hge : ¬i < 28 - s := by omega
    rw [hmod, BitVec.getMsbD_of_ge x (i + s) (by omega)]
    simp [hi, hge]

theorem rotl28_rotl28 (x : BitVec 28) {s t : Nat} (h : s + t ≤ 28) : rotl28 (rotl28 x s) t = rotl28 x (s + t) := by
  refine BitVec.eq_of_getMsbD_eq fun i hi => ?_
  rw [getMsbD_rotl28 _ (by omega) hi, getMsbD_rotl28 _ (by omega) (Nat.mod_lt _ (by omega)), getMsbD_rotl28 _ h hi,
    Nat.add_mod_mod, Nat.add_assoc]

theorem rotl28_not (x : BitVec 28) {s : Nat} (hs : s ≤ 28) : rotl28 (~~~x) s = ~~~rotl28 x s := by
  refine BitVec.eq_of_getMsbD_eq fun i hi => ?_
  have hlt : (s + i) % 28 < 28 := Nat.mod_lt _ (by omega)
  simp [getMsbD_rotl28 _ hs hi, hi, hlt]

@[simp] theorem rotl28_zero (x : BitVec 28) : rotl28 x 0 = x := by
  simp [rotl28, BitVec.ushiftRight_eq_zero]

@[simp] theorem rotl28_full (x : BitVec 28) : rotl28 x 28 = x := by simp [rotl28]

@[simp] theorem zero_rotl28 (s : Nat) : rotl28 0 s = 0 := by simp [rotl28]

/-- Both key halves rotated by the same amount (R100). -/
def rotateHalves (cd : BitVec 28 × BitVec 28) (s : Nat) : BitVec 28 × BitVec 28 := (rotl28 cd.1 s, rotl28 cd.2 s)

theorem foldl_rotateHalves (cd : BitVec 28 × BitVec 28) {shifts : List Nat} (h : shifts.sum ≤ 28) :
    shifts.foldl rotateHalves cd = rotateHalves cd shifts.sum := by
  induction shifts generalizing cd with
  | nil => simp [rotateHalves]
  | cons s shifts ih =>
    rw [List.sum_cons] at h
    rw [List.foldl_cons, ih _ (by omega), List.sum_cons]
    simp [rotateHalves, rotl28_rotl28 _ h]

/-- How far the halves are rotated when subkey `i` is taken: `SH[1] + … + SH[i]` (R99). -/
def keyRotation (i : Nat) : Nat := (shiftSchedule.take i).sum

/-- The whole schedule is one turn of the 28-bit halves, so no part of it is more. -/
theorem keyRotation_le (i : Nat) : keyRotation i ≤ 28 := by
  have hsplit := List.sum_take_add_sum_drop shiftSchedule i
  have htotal : shiftSchedule.sum = 28 := by decide
  rw [keyRotation]
  omega

theorem keyHalves_eq (k : BitVec 64) (i : Nat) : keyHalves k i = rotateHalves (initialHalves k) (keyRotation i) :=
  foldl_rotateHalves _ (keyRotation_le i)

theorem subkey_eq (k : BitVec 64) (i : Nat) :
    subkey k i = permute 48 tablePC2 ((keyHalves k i).1 ++ (keyHalves k i).2 : BitVec (28 + 28)) := rfl

theorem get_desKeySchedule (k : ByteSeq) (i : Fin 16) : (desKeySchedule k).get i = subkey (be64 k) (i.val + 1) := by
  rw [desKeySchedule, Vector.get_ofFn]

/-- The schedule depends on the key through the halves that PC1 selects, and through nothing else. -/
theorem desKeySchedule_congr {k k' : ByteSeq} (h : initialHalves (be64 k) = initialHalves (be64 k')) :
    desKeySchedule k = desKeySchedule k' := by
  simp only [desKeySchedule, subkey_eq, keyHalves_eq, h]

end Rotations

section Parity

/-! ### The parity bits (R97, R100) -/

/-- Bit `i` of `be_64(s)`, from the most significant, is bit `i % 8` of byte `i / 8` (00_scope.md R11). -/
theorem getMsbD_be64 {s : ByteSeq} (hs : s.length = 8) {i : Nat} (hi : i < 64) :
    (be64 s).getMsbD i = (s.getD (i / 8) 0).getMsbD (i % 8) := by
  have hbyte : s.getD (i / 8) 0 = (be64 s).extractLsb' (8 * (7 - i / 8)) 8 := by
    conv_lhs => rw [← bytesBe64_be64 hs]
    have hlt : i / 8 < 8 := by omega
    simp [bytesBe64, List.getD_eq_getElem?_getD, hlt]
  have hpos : 64 - (8 * (7 - i / 8) + 8 - i % 8) = i := by omega
  have hmod : i % 8 < 8 := Nat.mod_lt _ (by omega)
  have hin : 8 * (7 - i / 8) + 8 - i % 8 ≤ 64 := by omega
  rw [hbyte, BitVec.getMsbD_extractLsb', hpos]
  simp [hmod, hin]

/-- Bytes that differ at most in their least significant bit agree on the others. -/
theorem getMsbD_eq_of_ushiftRight_one_eq {x y : Byte} (h : x >>> 1 = y >>> 1) {i : Nat} (hi : i < 7) :
    x.getMsbD i = y.getMsbD i := by
  have hbit := congrArg (·.getMsbD (i + 1)) h
  have hlt : i + 1 < 8 := by omega
  simpa [BitVec.getMsbD_ushiftRight, hlt] using hbit

/-- PC1 names no parity bit: no entry is a multiple of 8 (R97). -/
theorem tablePC1_skips_parity : ∀ j < 56, tablePC1.getD j 0 - 1 < 64 ∧ (tablePC1.getD j 0 - 1) % 8 < 7 := by decide

theorem initialHalves_ignores_parity {k k' : ByteSeq} (hk : k.length = 8) (hk' : k'.length = 8)
    (h : ∀ j : Fin 8, (k.getD j 0) >>> 1 = (k'.getD j 0) >>> 1) : initialHalves (be64 k) = initialHalves (be64 k') := by
  have hselected : permute 56 tablePC1 (be64 k) = permute 56 tablePC1 (be64 k') := by
    refine permute_congr (by decide) fun j hj => ?_
    obtain ⟨hlt, hmod⟩ := tablePC1_skips_parity j hj
    rw [getMsbD_be64 hk hlt, getMsbD_be64 hk' hlt]
    exact getMsbD_eq_of_ushiftRight_one_eq (h ⟨_, by omega⟩) hmod
  simp only [initialHalves, hselected]

end Parity

/-- Settles O21: the shifts add up to one full turn of 28, and PC1 skips the last bit of each byte. -/
theorem desScheduleClosesAndIgnoresParity : Obligations.DesScheduleClosesAndIgnoresParity := by
  unfold Obligations.DesScheduleClosesAndIgnoresParity
  refine ⟨fun k => ?_, fun k k' hk hk' h => desKeySchedule_congr (initialHalves_ignores_parity hk hk' h)⟩
  have hturn : keyRotation 16 = 28 := by decide
  have hstart : keyRotation 0 = 0 := by decide
  rw [keyHalves_eq, keyHalves_eq, hturn, hstart]
  simp [rotateHalves]

/-- Settles O22: entry by entry, FP points back to where IP took each bit from. -/
theorem finalPermutationInvertsTheInitial : Obligations.FinalPermutationInvertsTheInitial := by
  unfold Obligations.FinalPermutationInvertsTheInitial
  exact permute_FP_permute_IP

/-- Settles O23: the reversed subkeys undo the rounds, and FP and IP cancel between the two runs. -/
theorem desDecryptInvertsEncrypt : Obligations.DesDecryptInvertsEncrypt := by
  unfold Obligations.DesDecryptInvertsEncrypt
  exact fun ks x hx => desDecrypt_desEncrypt ks hx

section Complement

/-! ### Complementing key and block (R109 (d)) -/

/-- Both halves with every bit complemented. -/
def flipHalves {n : Nat} (p : BitVec n × BitVec n) : BitVec n × BitVec n := (~~~p.1, ~~~p.2)

theorem bytesBe64_not (v : BitVec 64) : bytesBe64 (~~~v) = (bytesBe64 v).map (~~~ ·) := by
  rw [bytesBe64, bytesBe64, List.map_map]
  refine List.map_congr_left fun i _ => ?_
  exact extractLsb'_not (by omega) v

theorem be64_map_not {s : ByteSeq} (hs : s.length = 8) : be64 (s.map (~~~ ·)) = ~~~be64 s := by
  rw [← be64_bytesBe64 (~~~be64 s), bytesBe64_not, bytesBe64_be64 hs]

theorem initialHalves_not (k : BitVec 64) : initialHalves (~~~k) = flipHalves (initialHalves k) := by
  rw [initialHalves, permute_not (by decide) (by decide)]
  simp (disch := decide) only [initialHalves, flipHalves, extractLsb'_not]

theorem keyHalves_not (k : BitVec 64) (i : Nat) : keyHalves (~~~k) i = flipHalves (keyHalves k i) := by
  have hle := keyRotation_le i
  rw [keyHalves_eq, keyHalves_eq, initialHalves_not]
  simp only [rotateHalves, flipHalves, rotl28_not _ hle]

theorem subkey_not (k : BitVec 64) (i : Nat) : subkey (~~~k) i = ~~~subkey k i := by
  rw [subkey_eq, subkey_eq, keyHalves_not, ← permute_not (by decide) (by decide), BitVec.not_append, flipHalves]

theorem get_desKeySchedule_map_not {k : ByteSeq} (hk : k.length = 8) (i : Fin 16) :
    (desKeySchedule (k.map (~~~ ·))).get i = ~~~(desKeySchedule k).get i := by
  rw [get_desKeySchedule, get_desKeySchedule, be64_map_not hk, subkey_not]

/-- The round function sees the expanded half XOR the subkey, where two complements cancel (R101). -/
theorem desF_not_not (r : BitVec 32) (k : BitVec 48) : desF (~~~r) (~~~k) = desF r k := by
  have hcancel : ~~~permute 48 tableE r ^^^ ~~~k = permute 48 tableE r ^^^ k := by
    rw [← BitVec.not_xor_left, ← BitVec.not_xor_right, BitVec.not_not]
  rw [desF, desF, permute_not (by decide) (by decide), hcancel]

theorem desRound_flipHalves (lr : BitVec 32 × BitVec 32) (k : BitVec 48) :
    desRound (flipHalves lr) (~~~k) = flipHalves (desRound lr k) := by
  simp only [desRound, flipHalves, desF_not_not, BitVec.not_xor_left]

theorem foldl_desRound_flipHalves (keys : List (BitVec 48)) (lr : BitVec 32 × BitVec 32) :
    (keys.map (~~~ ·)).foldl desRound (flipHalves lr) = flipHalves (keys.foldl desRound lr) := by
  rw [List.foldl_map]
  exact List.foldl_hom flipHalves desRound_flipHalves

theorem wordHalves_not (v : BitVec 64) : wordHalves (~~~v) = flipHalves (wordHalves v) := by
  simp (disch := decide) only [wordHalves, flipHalves, extractLsb'_not]

theorem joinWords_flipHalves (lr : BitVec 32 × BitVec 32) : joinWords (flipHalves lr) = ~~~joinWords lr :=
  BitVec.not_append.symm

theorem desDatapath_not (keys : List (BitVec 48)) (x : BitVec 64) :
    desDatapath (keys.map (~~~ ·)) (~~~x) = ~~~desDatapath keys x := by
  have hswap (lr : BitVec 32 × BitVec 32) : (flipHalves lr).swap = flipHalves lr.swap := rfl
  rw [desDatapath_eq, permute_not (by decide) (by decide), wordHalves_not, foldl_desRound_flipHalves, hswap,
    joinWords_flipHalves, permute_not (by decide) (by decide), ← desDatapath_eq]

/-- Complementing the block and every subkey complements the result. -/
theorem desCore_map_not {ks ks' : DesSchedule} (h : ∀ i, ks'.get i = ~~~ks.get i) (order : List (Fin 16)) {x : ByteSeq}
    (hx : x.length = 8) : desCore ks' (x.map (~~~ ·)) order = (desCore ks x order).map (~~~ ·) := by
  have hkeys : order.map ks'.get = (order.map ks.get).map (~~~ ·) := by
    rw [List.map_map]
    exact List.map_congr_left fun i _ => h i
  rw [desCore, desCore, hkeys, be64_map_not hx, desDatapath_not, bytesBe64_not]

end Complement

/-- Settles O24: the complement goes through the key schedule into every subkey, and through every round. -/
theorem desComplementation : Obligations.DesComplementation := by
  unfold Obligations.DesComplementation
  exact fun k x hk hx => desCore_map_not (get_desKeySchedule_map_not hk) _ hx

section EqualSubkeys

/-! ### Equal subkeys (R109 (c)) -/

/-- Where all subkeys are equal, their order does not matter. -/
theorem desEncrypt_eq_desDecrypt {ks : DesSchedule} {k : BitVec 48} (h : ∀ i, ks.get i = k) (x : ByteSeq) :
    desEncrypt ks x = desDecrypt ks x := by
  have hkeys (order : List (Fin 16)) : order.map ks.get = List.replicate order.length k := by
    simp [funext h]
  rw [desEncrypt, desDecrypt, desCore, desCore, hkeys, hkeys, List.length_reverse]

theorem subkey_zero (i : Nat) : subkey 0 i = 0 := by
  have hstart : initialHalves 0 = (0, 0) := by
    rw [initialHalves, permute_zero (by decide)]
    rfl
  rw [subkey_eq, keyHalves_eq, hstart, rotateHalves, zero_rotl28]
  exact permute_zero (by decide)

end EqualSubkeys

/-- Settles O25: decryption is then encryption, which it undoes; the zero key selects and rotates zeros alone. -/
theorem desEqualSubkeysMakeAnInvolution : Obligations.DesEqualSubkeysMakeAnInvolution := by
  unfold Obligations.DesEqualSubkeysMakeAnInvolution
  refine ⟨fun ks k x h hx => ⟨desEncrypt_eq_desDecrypt h x, ?_⟩, fun i => ?_⟩
  · rw [desEncrypt_eq_desDecrypt h (desEncrypt ks x)]
    exact desDecrypt_desEncrypt ks hx
  · have hzero : be64 (List.replicate 8 0) = 0 := by decide
    rw [get_desKeySchedule, hzero, subkey_zero]

end Sys2Proof.Machine

/-! PROOFS. The composite ciphers: the three slices of a TDES key, and what equal slices collapse to. -/

namespace Sys2Proof.Machine

section TdesCollapse

/-! ### Equal slices of a TDES key (42_composite.md R111, R114) -/

/-- With the first two schedules equal, the decryption in the middle undoes the first encryption. -/
theorem tdesEncrypt_of_get_zero_eq_get_one {ks : DesFile} (h : ks.get 0 = ks.get 1) {x : ByteSeq} (hx : x.length = 8) :
    tdesEncrypt ks x = desEncrypt (ks.get 2) x := by
  rw [tdesEncrypt, h, desDecrypt_desEncrypt _ hx]

/-- The schedules of a key written as three slices, whatever the file held before. -/
theorem get_tdesKeySchedule_append {k1 k2 k3 : ByteSeq} (h1 : k1.length = 8) (h2 : k2.length = 8) (h3 : k3.length = 8)
    (ks : DesFile) :
    (tdesKeySchedule (k1 ++ k2 ++ k3) ks).get 0 = desKeySchedule k1
    ∧ (tdesKeySchedule (k1 ++ k2 ++ k3) ks).get 1 = desKeySchedule k2
    ∧ (tdesKeySchedule (k1 ++ k2 ++ k3) ks).get 2 = desKeySchedule k3 := by
  have hfirst : (k1 ++ k2 ++ k3).take 8 = k1 := by rw [List.append_assoc, List.take_left' h1]
  have hsecond : ((k1 ++ k2 ++ k3).drop 8).take 8 = k2 := by
    rw [List.append_assoc, List.drop_left' h1, List.take_left' h2]
  have hthird : ((k1 ++ k2 ++ k3).drop 16).take 8 = k3 := by
    rw [List.drop_left' (by simp [h1, h2]), List.take_of_length_le h3.le]
  rw [tdesKeySchedule, hfirst, hsecond, hthird]
  simp [Vector.get_eq_getElem]

end TdesCollapse

/-- Settles O27: the stages undo each other in mirrored order, and equal first slices give equal first schedules. -/
theorem tdesInvertsAndCollapses : Obligations.TdesInvertsAndCollapses := by
  unfold Obligations.TdesInvertsAndCollapses
  refine ⟨fun ks x hx => tdesDecrypt_tdesEncrypt ks hx, fun k3 k ks x hk hk3 hx => ?_⟩
  obtain ⟨hget0, hget1, hget2⟩ := get_tdesKeySchedule_append hk hk hk3 ks
  rw [tdesEncrypt_of_get_zero_eq_get_one (hget0.trans hget1.symm) hx, hget2]

/-- Settles O28: the rounds with the schedules in reverse order undo the rounds, whatever the schedules are. -/
theorem feistel6DecryptInvertsEncrypt : Obligations.Feistel6DecryptInvertsEncrypt := by
  unfold Obligations.Feistel6DecryptInvertsEncrypt
  exact fun ks x hx => f6Decrypt_f6Encrypt ks hx

end Sys2Proof.Machine

/-! PROOFS. FROG: what the scan of `MakePerm` assigns, the records of the expanded buffer, and the unread mixing vectors. -/

namespace Sys2Proof.Machine

section MakePerm

/-! ### The scan of `MakePerm` (43_frog.md R124) -/

/-- Every value below the replacement value is used. -/
theorem mem_of_toNat_lt_lowestUnused {used : List Byte} {v : Byte} (h : v.toNat < (lowestUnused used).toNat) :
    v ∈ used := by
  rw [lowestUnused, allBytes, List.find?_map] at h
  cases hfind : (List.range 256).find? ((fun v => !used.contains v) ∘ BitVec.ofNat 8) with
  | none =>
    rw [hfind] at h
    exact absurd h (Nat.not_lt_zero _)
  | some n =>
    obtain ⟨-, -, hbelow⟩ := List.find?_range_eq_some.mp hfind
    have hlt : v.toNat < n := by
      rw [hfind] at h
      exact h.trans_le (Nat.mod_le n _)
    simpa using hbelow v.toNat hlt

/-- Entry `i` is the scanned value, replaced if it is in `used` or among the entries before `i`. -/
theorem getElem_makePermFrom {used s : List Byte} {i : Nat} (h : i < s.length) :
    (makePermFrom used s)[i]'(by rwa [makePermFrom_length])
      = if s[i] ∈ ((makePermFrom used s).take i).reverse ++ used
        then lowestUnused (((makePermFrom used s).take i).reverse ++ used) else s[i] := by
  induction s generalizing used i with
  | nil => simp at h
  | cons v rest ih =>
    cases i with
    | zero => simp [makePermFrom]
    | succ i =>
      simp only [makePermFrom, List.getElem_cons_succ, List.take_succ_cons, List.reverse_cons, List.append_assoc,
        List.singleton_append]
      exact ih (by simpa using h)

theorem makePermFrom_eq_self {used s : List Byte} (hs : s.Nodup) (hnew : ∀ v ∈ s, v ∉ used) :
    makePermFrom used s = s := by
  induction s generalizing used with
  | nil => rfl
  | cons v rest ih =>
    obtain ⟨hv, hrest⟩ := List.nodup_cons.mp hs
    have hkeep : (if used.contains v then lowestUnused used else v) = v := by
      simp [hnew v List.mem_cons_self]
    rw [makePermFrom, hkeep, ih hrest]
    rintro w hw (_ | ⟨_, hused⟩)
    · exact hv hw
    · exact hnew w (List.mem_cons_of_mem _ hw) hused

/-- The replacement value depends on which values are used, not on the order they were used in. -/
theorem lowestUnused_reverse (used : List Byte) : lowestUnused used.reverse = lowestUnused used := by
  simp [lowestUnused]

theorem get_makePerm (s : Vector Byte 256) (i : Fin 256) :
    (makePerm s).get i
      = if s.get i ∈ (makePerm s).toList.take i then lowestUnused ((makePerm s).toList.take i) else s.get i := by
  have h := getElem_makePermFrom (used := []) (s := s.toList) (i := i) (by simp)
  simp only [List.append_nil, List.mem_reverse, lowestUnused_reverse] at h
  exact h

/-- A sequence of distinct values is its own permutation. -/
theorem makePerm_eq_self {s : Vector Byte 256} (hs : s.toList.Nodup) : makePerm s = s :=
  Vector.toList_inj.mp ((toList_makePerm s).trans (makePermFrom_eq_self hs (by simp)))

end MakePerm

/-- Settles O29: the scan keeps a value that is new and takes the lowest unused one otherwise, of which there is always one
left. -/
theorem makePermReplacesDuplicatesByTheLowestUnused : Obligations.MakePermReplacesDuplicatesByTheLowestUnused := by
  unfold Obligations.MakePermReplacesDuplicatesByTheLowestUnused
  refine fun s => ⟨fun i => ⟨fun hnew => ?_, fun hused => ?_⟩, makePerm_nodup s, makePerm_eq_self⟩
  · rw [get_makePerm, if_neg hnew]
  · rw [get_makePerm, if_pos hused]
    exact ⟨lowestUnused_notMem (by simp), fun v => mem_of_toNat_lt_lowestUnused⟩

/-- Settles O31: the inverse table holds the position of each byte in the table. -/
theorem invertTableInverts : Obligations.InvertTableInverts := by
  unfold Obligations.InvertTableInverts
  exact fun t ht => ⟨invertTable_nodup ht, lookup_invertTable_lookup ht⟩

/-- Settles O32: the wraparound changes the first byte by the last, which in a block of 16 is another byte and stays. -/
theorem undiffuseInvertsDiffuse : Obligations.UndiffuseInvertsDiffuse := by
  unfold Obligations.UndiffuseInvertsDiffuse
  exact fun x hx => ⟨undiffuse_diffuse (by simp [hx]), diffuse_undiffuse (by simp [hx])⟩

/-- Settles O33: the tables of the forward records are permutations, whatever the buffer is. -/
theorem frogDecryptInvertsEncrypt : Obligations.FrogDecryptInvertsEncrypt := by
  unfold Obligations.FrogDecryptInvertsEncrypt
  exact fun buf x hx => frogDecrypt_frogEncrypt (tableIsPermutation_frogForward buf) hx

section MixingVectors

/-! ### The mixing vectors (43_frog.md R130) -/

theorem frogEncRound_withMv (x : ByteSeq) (k : FrogRecord) (mv : Vector Byte 16) :
    frogEncRound x { k with mv } = frogEncRound x k := rfl

theorem frogDecRound_withMv (x : ByteSeq) (k : FrogRecord) (mv : Vector Byte 16) :
    frogDecRound x { k with mv } = frogDecRound x k := rfl

/-- Rounds that do not read `MV` give the same from files that differ in the mixing vectors alone. -/
theorem foldl_withMv {round : ByteSeq → FrogRecord → ByteSeq}
    (hround : ∀ x (k : FrogRecord) mv, round x { k with mv } = round x k) (rk : FrogFile) (mv : Fin 8 → Vector Byte 16)
    (x : ByteSeq) :
    (Vector.ofFn fun r => { rk.get r with mv := mv r } : FrogFile).toList.foldl round x = rk.toList.foldl round x := by
  have hlist : rk.toList = (List.finRange 8).map rk.get := by
    refine List.ext_getElem (by simp) fun i _ _ => ?_
    simp [Vector.get_eq_getElem]
  rw [hlist, Vector.toList_ofFn, List.ofFn_eq_map, List.foldl_map, List.foldl_map]
  exact List.foldl_ext _ _ _ fun y r _ => hround y _ _

end MixingVectors

/-- Settles O34: no round reads `MV`, so none of the eight does. -/
theorem frogMixingVectorsAreNeverRead : Obligations.FrogMixingVectorsAreNeverRead := by
  unfold Obligations.FrogMixingVectorsAreNeverRead
  exact fun rk mv x => ⟨foldl_withMv frogEncRound_withMv rk mv x, foldl_withMv frogDecRound_withMv rk mv x⟩

section Records

/-! ### The records of the expanded buffer (43_frog.md R121, R122) -/

theorem get_frogForward (buf : Nat → Byte) (r : Fin 8) : (frogForward buf).get r = frogRecord buf r := by
  rw [frogForward, Vector.get_ofFn]

theorem get_frogInverse (rk : FrogFile) (r : Fin 8) : (frogInverse rk).get r = invertRecord (rk.get r.rev) := by
  rw [frogInverse, Vector.get_ofFn]

end Records

/-- Settles O30: each field of a record is read from its own range of the 288 bytes. -/
theorem frogRecordsConsumeTheBuffer : Obligations.FrogRecordsConsumeTheBuffer := by
  unfold Obligations.FrogRecordsConsumeTheBuffer
  intro buf r
  simp only [get_frogInverse, invertRecord, and_true]
  refine ⟨fun i => ?_, ⟨Vector.ofFn fun i => buf (288 * r.val + 16 + i.val), fun i => ?_, ?_⟩⟩
  · simp [get_frogForward, frogRecord, Vector.get_ofFn]
  · exact Vector.get_ofFn ..
  · rw [get_frogForward, frogRecord]

end Sys2Proof.Machine

/-! PROOFS. The padding unit: what the padding commands answer, the one form that the length-byte pads have, the buffers
whose pad PAD_REMOVE accepts, and the trailing zeros that the ZERO scheme strips. -/

namespace Sys2Proof.Machine

section Commands

/-! ### What the padding commands answer (44_padding.md R141, R142) -/

variable {p : PadScheme} {bs : Nat} {s : State}

theorem padAdd_of_zeroBlockSize (ha : s.operand.length ≤ Config.maxLen) :
    padAdd p 0 s = .next (raise .zeroBlockSize s) := by
  rw [padAdd, withOperand_of_le ha, withBlockSize_zero]

theorem padRemove_of_zeroBlockSize (ha : s.operand.length ≤ Config.maxLen) :
    padRemove p 0 s = .next (raise .zeroBlockSize s) := by
  rw [padRemove, withOperand_of_le ha, withBlockSize_zero]

theorem length_le_padAddBytes_length (p : PadScheme) (draw : Nat → Byte) (a : ByteSeq) {b : Nat} (hb : b ≠ 0) :
    a.length ≤ (padAddBytes p draw a b).length := by
  rw [padAddBytes_length hb]
  exact Nat.le_add_right ..

/-- A padded buffer that fits is the answer of PAD_ADD. -/
theorem padAdd_of_fits {m : Nat} (hb : bs ≠ 0) (hm : (padAddBytes p (entropyDraw s) s.operand bs).length = m)
    (hfit : m ≤ Config.maxLen) :
    padAdd p bs s = .next (finish (padAddBytes p (entropyDraw s) s.operand bs) (lengthWord m)
      { s with entropyPos := s.entropyPos + bytesDrawn p s.operand bs }) := by
  subst hm
  have ha := (length_le_padAddBytes_length p (entropyDraw s) s.operand hb).trans hfit
  rw [padAdd, withOperand_of_le ha, withBlockSize_of_ne hb, succeedBounded_of_le hfit]

theorem padRemove_of_ok {body rest : ByteSeq} (hb : bs ≠ 0) (hlen : s.operand.length ≤ Config.maxLen)
    (ha : s.operand = body ++ rest) (hr : padRemoveLength p s.operand bs = .ok body.length) :
    padRemove p bs s = .next (finish body (lengthWord body.length) s) := by
  rw [padRemove, withOperand_of_le hlen, withBlockSize_of_ne hb, hr, withResult, succeed_eq, ha, List.take_left]

theorem padRemove_of_error {c : Cause} (hb : bs ≠ 0) (hlen : s.operand.length ≤ Config.maxLen)
    (hr : padRemoveLength p s.operand bs = .error c) : padRemove p bs s = .next (raise .badPadding s) := by
  rw [padRemove, withOperand_of_le hlen, withBlockSize_of_ne hb, hr, withResult, fail_eq, padRemoveLength_error hr]

end Commands

/-- Settles O36: after the check of the operand's length, the check of the block size is the first. -/
theorem paddingCommandsRejectBlockSizeZero : Obligations.PaddingCommandsRejectBlockSizeZero := by
  unfold Obligations.PaddingCommandsRejectBlockSizeZero
  intro p s ha i hi
  obtain rfl | rfl : i = padAddInstr p 0 ∨ i = padRemoveInstr p 0 := by simpa using hi
  · rw [exec_padAddInstr]
    exact padAdd_of_zeroBlockSize ha
  · rw [exec_padRemoveInstr]
    exact padRemove_of_zeroBlockSize ha

/-- Settles O35: the padded buffer of each scheme is the answer, and its length is that of the operand and the pad. -/
theorem padAddAppendsThePad : Obligations.PadAddAppendsThePad := by
  unfold Obligations.PadAddAppendsThePad
  intro bs s hb _ a n z
  have hlen (p : PadScheme) := padAddBytes_length (p := p) (draw := entropyDraw s) (s := a) hb
  refine ⟨fun hn => ?_, fun hz => ?_⟩
  · exact ⟨lengthWord (a.length + n), (List.range (n - 1)).map (entropyDraw s), lengthWord_of_lt, by simp,
      padAdd_of_fits hb (hlen .pkcs7) hn, padAdd_of_fits hb (hlen .ansi) hn, padAdd_of_fits hb (hlen .random) hn⟩
  · exact ⟨lengthWord (a.length + z), lengthWord_of_lt, padAdd_of_fits hb (hlen .zero) hz⟩

section LengthBytePads

/-! ### The pads that end in their length (R132 to R134, R136 to R139) -/

/-- The pad with the filler `fill`: the filler, then the length of the pad. -/
def lengthBytePad (fill : ByteSeq) : ByteSeq := fill ++ [BitVec.ofNat 8 (fill.length + 1)]

/-- The bytes that a scheme allows before the length byte of a pad of `n` bytes; ZERO has no length byte. -/
def FillByte : PadScheme → Nat → Byte → Prop
  | .pkcs7, n, x => x = BitVec.ofNat 8 n
  | .ansi, _, x => x = 0
  | .random, _, _ => True
  | .zero, _, _ => False

/-- Every byte of the filler is one that the scheme allows. -/
def FillAllowed (p : PadScheme) (fill : ByteSeq) : Prop := ∀ x ∈ fill, FillByte p (fill.length + 1) x

@[simp] theorem length_lengthBytePad (fill : ByteSeq) : (lengthBytePad fill).length = fill.length + 1 := by
  simp [lengthBytePad]

variable {p : PadScheme} {b n : Nat} {a : ByteSeq}

theorem replicate_succ_eq_lengthBytePad (n : Nat) :
    List.replicate (n + 1) (BitVec.ofNat 8 (n + 1)) = lengthBytePad (List.replicate n (BitVec.ofNat 8 (n + 1))) := by
  rw [lengthBytePad, List.length_replicate, List.replicate_succ']

theorem fillAllowed_pkcs7 (n : Nat) : FillAllowed .pkcs7 (List.replicate n (BitVec.ofNat 8 (n + 1))) := by
  intro x hx
  rw [List.length_replicate]
  exact List.eq_of_mem_replicate hx

theorem fillAllowed_ansi (n : Nat) : FillAllowed .ansi (List.replicate n 0) := fun _ hx => List.eq_of_mem_replicate hx

theorem fillAllowed_random (fill : ByteSeq) : FillAllowed .random fill := fun _ _ => trivial

/-- What a length-byte scheme appends is a pad of `N(s, b)` bytes with a filler that it allows. -/
theorem padAddBytes_eq_append_lengthBytePad (hp : p ≠ .zero) (draw : Nat → Byte) (a : ByteSeq) (hb : b ≠ 0) :
    ∃ fill, padAddBytes p draw a b = a ++ lengthBytePad fill ∧ fill.length + 1 ≤ b ∧ FillAllowed p fill := by
  obtain ⟨k, hk⟩ : ∃ k, padLength a b = k + 1 := Nat.exists_eq_succ_of_ne_zero (Nat.ne_of_gt (padLength_pos hb a))
  have hkb : k + 1 ≤ b := hk ▸ Nat.sub_le ..
  cases p with
  | pkcs7 =>
    refine ⟨List.replicate k (BitVec.ofNat 8 (k + 1)), ?_, by simpa using hkb, fillAllowed_pkcs7 k⟩
    rw [padAddBytes, padAddPkcs7, hk, rep, replicate_succ_eq_lengthBytePad]
  | ansi =>
    refine ⟨List.replicate k 0, ?_, by simpa using hkb, fillAllowed_ansi k⟩
    simp [padAddBytes, padAddAnsi, hk, rep, lengthBytePad]
  | random =>
    refine ⟨(List.range k).map draw, ?_, by simpa using hkb, fillAllowed_random _⟩
    simp [padAddBytes, padAddRandom, hk, lengthBytePad]
  | zero => exact absurd rfl hp

theorem toNat_lengthByte {fill : ByteSeq} (h : fill.length + 1 ≤ 255) :
    (BitVec.ofNat 8 (fill.length + 1)).toNat = fill.length + 1 := by
  rw [BitVec.toNat_ofNat]
  omega

/-- `LenByte` of a buffer that ends in a pad is the length of the pad (R136). -/
theorem lenByte_append_lengthBytePad {body fill : ByteSeq} (hfill : fill.length + 1 ≤ b) (hb : b ≤ 255) :
    lenByte (body ++ lengthBytePad fill) b = .ok (fill.length + 1) := by
  have hx := toNat_lengthByte (hfill.trans hb)
  have hlast : (body ++ lengthBytePad fill).getLast? = some (BitVec.ofNat 8 (fill.length + 1)) := by
    simp [lengthBytePad]
  simp only [lenByte, hlast, hx, List.length_append, length_lengthBytePad]
  rw [if_neg (by omega)]

/-- A buffer with a length byte in range is a body and a pad of that length (R136). -/
theorem exists_eq_append_of_lenByte (h : lenByte a b = .ok n) :
    ∃ body fill, a = body ++ lengthBytePad fill ∧ fill.length + 1 = n ∧ n ≤ b := by
  unfold lenByte at h
  split at h
  · cases h
  · next x hlast =>
    obtain ⟨front, rfl⟩ := List.getLast?_eq_some_iff.mp hlast
    split at h
    · cases h
    · next hx =>
      obtain rfl := Except.ok.inj h
      rw [List.length_append, List.length_singleton] at hx
      have hdrop : (front.drop (front.length + 1 - x.toNat)).length + 1 = x.toNat := by
        rw [List.length_drop]
        omega
      refine ⟨front.take (front.length + 1 - x.toNat), front.drop (front.length + 1 - x.toNat), ?_, hdrop, by omega⟩
      rw [lengthBytePad, hdrop, BitVec.ofNat_toNat, BitVec.setWidth_eq, ← List.append_assoc, List.take_append_drop]

theorem padRemoveLength_of_lenByte_error (hp : p ≠ .zero) {c : Cause} (h : lenByte a b = .error c) :
    padRemoveLength p a b = .error c := by
  cases p with
  | zero => exact absurd rfl hp
  | pkcs7 => rw [padRemoveLength, padRemovePkcs7, h]
  | ansi => rw [padRemoveLength, padRemoveAnsi, h]
  | random => rw [padRemoveLength, padRemoveRandom, h]

theorem lastBytes_append_lengthBytePad (body fill : ByteSeq) :
    lastBytes (body ++ lengthBytePad fill) (fill.length + 1) = lengthBytePad fill := by
  rw [lastBytes, List.length_append, length_lengthBytePad, Nat.add_sub_cancel, List.drop_left]

theorem validLength_eq_ok_iff {k m : Nat} {ok : Bool} : validLength a k ok = .ok m ↔ ok = true ∧ a.length - k = m := by
  cases ok <;> simp [validLength]

/-- Once the length byte is in range, the filler alone decides (R137 to R139). -/
theorem padRemoveLength_append_lengthBytePad (hp : p ≠ .zero) {body fill : ByteSeq} (hfill : fill.length + 1 ≤ b)
    (hb : b ≤ 255) {m : Nat} :
    padRemoveLength p (body ++ lengthBytePad fill) b = .ok m ↔ FillAllowed p fill ∧ body.length = m := by
  have hlen := lenByte_append_lengthBytePad (body := body) hfill hb
  have hx := toNat_lengthByte (hfill.trans hb)
  cases p with
  | zero => exact absurd rfl hp
  | pkcs7 =>
    simp only [padRemoveLength, padRemovePkcs7, hlen, lastBytes_append_lengthBytePad, validLength_eq_ok_iff]
    simp [lengthBytePad, FillAllowed, FillByte, ← BitVec.toNat_inj, hx]
  | ansi =>
    simp only [padRemoveLength, padRemoveAnsi, hlen, lastBytes_append_lengthBytePad, validLength_eq_ok_iff]
    simp [lengthBytePad, FillAllowed, FillByte]
  | random =>
    simp only [padRemoveLength, padRemoveRandom, hlen, validLength_eq_ok_iff]
    simp [FillAllowed, FillByte]

/-- The buffers that a length-byte removal accepts are the bodies followed by a pad, and it gives the body's length. -/
theorem padRemoveLength_eq_ok_iff (hp : p ≠ .zero) (hb : b ≤ 255) {m : Nat} :
    padRemoveLength p a b = .ok m
      ↔ ∃ body fill, a = body ++ lengthBytePad fill ∧ fill.length + 1 ≤ b ∧ FillAllowed p fill ∧ body.length = m := by
  constructor
  · intro h
    cases hl : lenByte a b with
    | error c =>
      rw [padRemoveLength_of_lenByte_error hp hl] at h
      cases h
    | ok n =>
      obtain ⟨body, fill, rfl, rfl, hfill⟩ := exists_eq_append_of_lenByte hl
      exact ⟨body, fill, rfl, hfill, (padRemoveLength_append_lengthBytePad hp hfill hb).mp h⟩
  · rintro ⟨body, fill, rfl, hfill, h⟩
    exact (padRemoveLength_append_lengthBytePad hp hfill hb).mpr h

/-- The three forms of a pad that the spec gives are the fillers that the scheme allows, each with its length byte. -/
theorem pad_iff_lengthBytePad {pad : PadScheme → ByteSeq → Nat → Prop}
    (hpkcs7 : ∀ q n, pad .pkcs7 q n ↔ q = List.replicate n (BitVec.ofNat 8 n))
    (hansi : ∀ q n, pad .ansi q n ↔ q = List.replicate (n - 1) 0 ++ [BitVec.ofNat 8 n])
    (hrandom : ∀ q n, pad .random q n ↔ ∃ r : ByteSeq, r.length = n - 1 ∧ q = r ++ [BitVec.ofNat 8 n])
    (hp : p ≠ .zero) {q : ByteSeq} {k : Nat} :
    pad p q (k + 1) ↔ ∃ fill, q = lengthBytePad fill ∧ fill.length = k ∧ FillAllowed p fill := by
  cases p with
  | zero => exact absurd rfl hp
  | pkcs7 =>
    rw [hpkcs7, replicate_succ_eq_lengthBytePad]
    refine ⟨fun h => ⟨_, h, List.length_replicate, fillAllowed_pkcs7 k⟩, ?_⟩
    rintro ⟨fill, rfl, rfl, hfill⟩
    rw [← List.eq_replicate_of_mem hfill]
  | ansi =>
    rw [hansi, Nat.add_sub_cancel]
    refine ⟨fun h => ⟨List.replicate k 0, by simpa [lengthBytePad] using h, List.length_replicate, fillAllowed_ansi k⟩, ?_⟩
    rintro ⟨fill, rfl, rfl, hfill⟩
    rw [← List.eq_replicate_of_mem hfill, lengthBytePad]
  | random =>
    rw [hrandom, Nat.add_sub_cancel]
    constructor
    · rintro ⟨fill, rfl, rfl⟩
      exact ⟨fill, rfl, rfl, fillAllowed_random fill⟩
    · rintro ⟨fill, rfl, rfl, -⟩
      exact ⟨fill, rfl, rfl⟩

end LengthBytePads

/-- Settles O38: each of the three forms of a pad is a filler with its length byte, and removal accepts exactly those. -/
theorem padRemoveAcceptsExactlyThePads : Obligations.PadRemoveAcceptsExactlyThePads := by
  unfold Obligations.PadRemoveAcceptsExactlyThePads
  intro bs s hb hb255 hlen pad hpkcs7 hansi hrandom p hmem
  have hp : p ≠ .zero := by
    rintro rfl
    simp at hmem
  have hpad {q k} := pad_iff_lengthBytePad (q := q) (k := k) hpkcs7 hansi hrandom hp
  rw [exec_padRemoveInstr]
  constructor
  · intro body q n ha hq hn hnb
    obtain ⟨k, rfl⟩ := Nat.exists_eq_add_of_le' hn
    obtain ⟨fill, rfl, rfl, hfill⟩ := hpad.mp hq
    have hr := (padRemoveLength_eq_ok_iff hp hb255).mpr ⟨body, fill, ha, hnb, hfill, rfl⟩
    exact ⟨lengthWord body.length, lengthWord_of_lt, padRemove_of_ok hb hlen ha hr⟩
  · intro hnone
    cases hr : padRemoveLength p s.operand bs with
    | error c => exact padRemove_of_error hb hlen hr
    | ok m =>
      obtain ⟨body, fill, ha, hnb, hfill, -⟩ := (padRemoveLength_eq_ok_iff hp hb255).mp hr
      exact absurd ⟨body, lengthBytePad fill, fill.length + 1, ha, hpad.mpr ⟨fill, rfl, rfl, hfill⟩,
        Nat.le_add_left .., hnb⟩ hnone

section TrailingZeros

/-! ### Stripping the trailing zeros (R140) -/

/-- Mathlib's `rdropWhile` is the strip. -/
theorem stripZeros_eq_rdropWhile (s : ByteSeq) : stripZeros s = s.rdropWhile (· == 0) := rfl

theorem stripZeros_eq_self_iff (s : ByteSeq) : stripZeros s = s ↔ s.getLast? ≠ some 0 := by
  rw [stripZeros_eq_rdropWhile, List.rdropWhile_eq_self_iff]
  cases s using List.reverseRecOn <;> simp

theorem stripZeros_append_zeros (s : ByteSeq) (k : Nat) : stripZeros (s ++ List.replicate k 0) = stripZeros s := by
  induction k with
  | zero => rw [List.replicate_zero, List.append_nil]
  | succ k ih =>
    rw [List.replicate_succ', ← List.append_assoc, stripZeros_eq_rdropWhile, List.rdropWhile_concat_pos _ _ _ rfl]
    exact ih

theorem stripZeros_append_of_getLast? {body : ByteSeq} (h : body.getLast? ≠ some 0) (k : Nat) :
    stripZeros (body ++ List.replicate k 0) = body :=
  (stripZeros_append_zeros body k).trans ((stripZeros_eq_self_iff body).mpr h)

theorem getLast?_stripZeros (s : ByteSeq) : (stripZeros s).getLast? ≠ some 0 :=
  (stripZeros_eq_self_iff _).mp (List.rdropWhile_idempotent _ _)

theorem eq_stripZeros_append (s : ByteSeq) : ∃ k, s = stripZeros s ++ List.replicate k 0 := by
  have hzeros : ∀ x ∈ s.rtakeWhile (· == 0), x = 0 := fun x hx => by
    simpa using List.mem_rtakeWhile_imp hx
  refine ⟨(s.rtakeWhile (· == 0)).length, ?_⟩
  rw [← List.eq_replicate_of_mem hzeros, stripZeros_eq_rdropWhile, List.rdropWhile_append_rtakeWhile]

theorem stripZeros_length_eq_iff (s : ByteSeq) : (stripZeros s).length = s.length ↔ s.getLast? ≠ some 0 := by
  rw [← stripZeros_eq_self_iff]
  refine ⟨fun h => ?_, congrArg List.length⟩
  obtain ⟨k, hk⟩ := eq_stripZeros_append s
  have hlen := congrArg List.length hk
  rw [List.length_append, List.length_replicate, h] at hlen
  obtain rfl : k = 0 := by omega
  simpa using hk.symm

/-- ZERO's own pad goes with the zeros that the buffer ended in. -/
theorem padRemoveLength_zero_padAddBytes (draw : Nat → Byte) (s : ByteSeq) (b : Nat) :
    padRemoveLength .zero (padAddBytes .zero draw s b) b = .ok (stripZeros s).length := by
  rw [padRemoveLength, padAddBytes, padAddZero, rep, padRemoveZero, stripZeros_append_zeros]

end TrailingZeros

/-- Settles O39: such a body exists, and any such body is what the strip leaves. -/
theorem padRemoveZeroStripsAllTrailingZeros : Obligations.PadRemoveZeroStripsAllTrailingZeros := by
  unfold Obligations.PadRemoveZeroStripsAllTrailingZeros
  intro bs s hb hlen
  constructor
  · obtain ⟨k, hk⟩ := eq_stripZeros_append s.operand
    exact ⟨_, k, hk, getLast?_stripZeros _⟩
  · intro body k ha hlast
    have hr : padRemoveLength .zero s.operand bs = .ok body.length := by
      rw [padRemoveLength, padRemoveZero, ha, stripZeros_append_of_getLast? hlast]
    exact ⟨lengthWord body.length, lengthWord_of_lt, padRemove_of_ok hb hlen ha hr⟩

/-- Settles O40: a length-byte pad is removed by its length, a ZERO pad with all the zeros before it. -/
theorem paddingLaws : Obligations.PaddingLaws := by
  unfold Obligations.PaddingLaws
  intro draw s b hb hb255
  refine ⟨fun p hp => ?_, ?_, fun body k hs hlast => ?_,
    fun p => ⟨dvd_padAddBytes_length hb, length_le_padAddBytes_length p draw s hb⟩, fun p hp => ?_⟩
  · obtain ⟨fill, heq, hfill, hallowed⟩ := padAddBytes_eq_append_lengthBytePad hp draw s hb
    exact (padRemoveLength_eq_ok_iff hp hb255).mpr ⟨s, fill, heq, hfill, hallowed, rfl⟩
  · rw [padRemoveLength_zero_padAddBytes, Except.ok.injEq, stripZeros_length_eq_iff]
  · rw [padRemoveLength_zero_padAddBytes, hs, stripZeros_append_of_getLast? hlast]
  · have hpos := padLength_pos hb s
    rw [padAddBytes_length hb, if_neg hp]
    omega

end Sys2Proof.Machine

/-! PROOFS. The mode engine: what MODE_CONFIG binds, what the two mode commands answer, their loops block by block, and
decryption after encryption. -/

namespace Sys2Proof.Machine

open Host (Outcome)

section Config

/-! ### MODE_CONFIG (45_modes.md R144) -/

variable {m : ModeSel} {pad : Option PadScheme} {s : State} {b : Nat} {a : ByteSeq}

theorem needsPadding_iff_mem :
    ModeSel.needsPadding m = true ↔ m ∈ [ModeSel.padded .ecb, .padded .cbc, .padded .pcbc, .padded .rdelta] := by
  obtain m | m := m <;> cases m <;> decide

/-- The words of MODE_CONFIG, with `SEL` and `AUX` as shifts. -/
theorem modeConfig_word (sel aux : BitVec 4) :
    (0x00000030 ||| sel.setWidth 32 <<< 8 ||| aux.setWidth 32 <<< 12 : Word) = assemble 0x30 sel aux 0 := by
  revert sel aux
  decide

theorem decode_modeConfig_word (m : ModeSel) (pad : Option PadScheme) :
    decode (0x00000030 ||| m.code.setWidth 32 <<< 8 ||| (padCode pad).setWidth 32 <<< 12)
      = .ok (modeConfigInstr m pad) := by
  rw [modeConfig_word]
  exact decode_eq_ok_iff_encode.mpr ⟨wellFormed_modeConfigInstr m pad, encode_modeConfigInstr m pad⟩

theorem toNat_append_eq_add {n k : Nat} (x : BitVec n) (y : BitVec k) :
    (x ++ y).toNat = 2 ^ k * x.toNat + y.toNat := by
  rw [BitVec.toNat_append, Nat.shiftLeft_eq, Nat.mul_comm, Nat.two_pow_add_eq_or_of_lt y.isLt]

/-- `le32` of the first 4 bytes is those bytes from the last one down to the first (00_scope.md R11). -/
theorem le32_take_four (h : 4 ≤ a.length) :
    le32 (a.take 4) = (a.getD 3 0 ++ a.getD 2 0 ++ a.getD 1 0 ++ a.getD 0 0 : BitVec (8 + 8 + 8 + 8)) := by
  obtain ⟨x, y, z, u, rest, rfl⟩ : ∃ x y z u rest, a = x :: y :: z :: u :: rest := by
    match a, h with
    | x :: y :: z :: u :: rest, _ => exact ⟨x, y, z, u, rest, rfl⟩
  apply BitVec.eq_of_toNat_eq
  have hx := x.isLt
  have hy := y.isLt
  have hz := z.isLt
  have hu := u.isLt
  simp only [le32, List.take_succ_cons, List.take_zero, List.foldr_cons, List.foldr_nil, List.getD_cons_succ,
    List.getD_cons_zero, toNat_append_eq_add, BitVec.toNat_ofNat]
  omega

/-- The lengths that MODE_CONFIG accepts for its operand. -/
def IvAccepted (m : ModeSel) (b : Nat) (a : ByteSeq) : Prop :=
  a = [] ∨ if m = .padded .rdelta then 4 ≤ a.length else a.length = b

theorem ivAndSeed_of_accepted (h : IvAccepted m b a) :
    ivAndSeed m b a = some (if m = .padded .rdelta ∨ a = [] then List.replicate b 0 else a,
      if m = .padded .rdelta ∧ a ≠ [] then
        (a.getD 3 0 ++ a.getD 2 0 ++ a.getD 1 0 ++ a.getD 0 0 : BitVec (8 + 8 + 8 + 8)) else 0) := by
  by_cases ha : a = []
  · simp [ivAndSeed, ha, rep]
  · have hlen : a.length ≠ 0 := mt List.length_eq_zero_iff.mp ha
    replace h := h.resolve_left ha
    by_cases hm : m = .padded .rdelta
    · rw [if_pos hm] at h
      simp [ivAndSeed, ha, hm, rep, Nat.not_lt.mpr h, le32_take_four h]
    · rw [if_neg hm] at h
      have hb : b ≠ 0 := h ▸ hlen
      simp [ivAndSeed, ha, hm, h, hb]

theorem ivAndSeed_of_not_accepted (h : ¬IvAccepted m b a) : ivAndSeed m b a = none := by
  obtain ⟨ha, h⟩ := not_or.mp h
  have hlen : a.length ≠ 0 := mt List.length_eq_zero_iff.mp ha
  by_cases hm : m = .padded .rdelta
  · rw [if_pos hm, Nat.not_le] at h
    rw [ivAndSeed, if_pos hm, if_pos ⟨hlen, h⟩]
  · rw [if_neg hm] at h
    rw [ivAndSeed, if_neg hm, if_pos ⟨hlen, h⟩]

/-- The scheme check of MODE_CONFIG (R144, R145). -/
theorem lacksScheme_iff :
    (ModeSel.needsPadding m && pad.isNone) = true
      ↔ ¬(m ∈ [ModeSel.padded .ecb, .padded .cbc, .padded .pcbc, .padded .rdelta] → pad ≠ none) := by
  rw [← needsPadding_iff_mem, Bool.and_eq_true, Option.isNone_iff_eq_none, Classical.not_imp, ne_eq, not_not]

theorem modeConfig_of_accepted {iv : ByteSeq} {seed : BitVec 32} (hl : s.operand.length ≤ Config.maxLen)
    (hv : s.cipher.valid = true) (hp : ¬(ModeSel.needsPadding m && pad.isNone) = true)
    (hi : ivAndSeed m (blockSize s.cipher.sel) s.operand = some (iv, seed)) :
    modeConfig m pad s = .next (finish [] 0 { s with
      mode := { valid := true, sel := m, pad := pad, iv := iv, seed := seed, cipher := s.cipher } }) := by
  rw [modeConfig, withOperand_of_le hl, withCipher_of_valid hv, if_neg hp, hi]
  rfl

theorem modeConfig_of_noCipher (hl : s.operand.length ≤ Config.maxLen) (hv : s.cipher.valid = false) :
    modeConfig m pad s = .next (raise .noCipher s) := by
  rw [modeConfig, withOperand_of_le hl, withCipher_of_invalid hv]

theorem modeConfig_of_noScheme (hl : s.operand.length ≤ Config.maxLen) (hv : s.cipher.valid = true)
    (hp : (ModeSel.needsPadding m && pad.isNone) = true) : modeConfig m pad s = .next (raise .noPadding s) := by
  rw [modeConfig, withOperand_of_le hl, withCipher_of_valid hv, if_pos hp, fail_eq]

theorem modeConfig_of_wrongIv (hl : s.operand.length ≤ Config.maxLen) (hv : s.cipher.valid = true)
    (hp : ¬(ModeSel.needsPadding m && pad.isNone) = true)
    (hi : ivAndSeed m (blockSize s.cipher.sel) s.operand = none) :
    modeConfig m pad s = .next (raise .ivLength s) := by
  rw [modeConfig, withOperand_of_le hl, withCipher_of_valid hv, if_neg hp, hi, fail_eq]

end Config

/-- Settles O41: the checks of `modeConfig`, in their order, are those of the statement. -/
theorem modeConfigBindsTheMode : Obligations.ModeConfigBindsTheMode := by
  unfold Obligations.ModeConfigBindsTheMode
  intro m pad s hl a b schemeOk ivOk
  rw [exec_modeConfigInstr]
  refine ⟨decode_modeConfig_word m pad, fun hv hs hi => ?_, fun hv => ?_, fun hv hs => ?_, fun hv hs hi => ?_⟩
  · exact modeConfig_of_accepted hl hv (fun h => lacksScheme_iff.mp h hs) (ivAndSeed_of_accepted hi)
  · exact modeConfig_of_noCipher hl hv
  · exact modeConfig_of_noScheme hl hv (lacksScheme_iff.mpr hs)
  · exact modeConfig_of_wrongIv hl hv (fun h => lacksScheme_iff.mp h hs) (ivAndSeed_of_not_accepted hi)

/-- Settles O56: each end of MODE_CONFIG is such an update, and SOFT_RESET resets registers only. -/
theorem modeConfigAndSoftResetKeepEverythingElse : Obligations.ModeConfigAndSoftResetKeepEverythingElse := by
  unfold Obligations.ModeConfigAndSoftResetKeepEverythingElse
  constructor
  · intro m pad s t h
    rw [exec_modeConfigInstr] at h
    obtain ⟨iv, seed, -, -, -, -, rfl⟩ | ⟨-, -, -, -, rfl⟩ | ⟨-, -, -, rfl⟩ | ⟨-, -, rfl⟩ | ⟨-, rfl⟩ :=
      modeConfig_cases h
    · rfl
    · rfl
    · rfl
    · rfl
    · rfl
  · intro s t h
    obtain rfl := Outcome.next.inj h
    exact ⟨rfl, rfl, rfl⟩

section Answers

/-! ### What the mode commands answer (R146, R147) -/

variable {c : ModeContext} {s t : State} {y : ByteSeq}

/-- A configured mode is a stream mode, or a padding-required one with a scheme (10_state.md R29). -/
theorem ModeContext.Inv.stream_or_padded (h : c.Inv) (hv : c.valid = true) :
    (∃ m, c.sel = .stream m) ∨ ∃ m p, c.sel = .padded m ∧ c.pad = some p := by
  obtain ⟨-, hpad, -, -⟩ := h.2 hv
  cases hs : c.sel with
  | stream m => exact .inl ⟨m, rfl⟩
  | padded m =>
    obtain ⟨p, hp⟩ := Option.ne_none_iff_exists'.mp (hpad (by rw [hs]; rfl))
    exact .inr ⟨m, p, rfl, hp⟩

theorem ModeContext.Inv.iv_length (h : c.Inv) (hv : c.valid = true) : c.iv.length = modeBlock c := by
  obtain ⟨-, -, hiv, -⟩ := h.2 hv
  exact hiv

/-- The bound cipher is a loaded one, so that its round keys are the derived ones (10_state.md R26, R32). -/
theorem ModeContext.Inv.keysDerived (h : c.Inv) (hv : c.valid = true) : c.cipher.KeysDerived := by
  obtain ⟨⟨-, hloaded⟩, hmode⟩ := h
  obtain ⟨hcipher, -⟩ := hmode hv
  obtain ⟨-, hkeys⟩ := hloaded hcipher
  exact hkeys

section Bytes

variable {m : StreamMode} {n : PaddedMode} {p : PadScheme} {draw : Nat → Byte} {a : ByteSeq}

theorem modeEncryptBytes_stream (hs : c.sel = .stream m) :
    modeEncryptBytes c draw a = .ok (streamCrypt m .enc (encrypt c.cipher) c.iv (modeBlock c) a) := by
  rw [modeEncryptBytes, hs]

theorem modeDecryptBytes_stream (hs : c.sel = .stream m) :
    modeDecryptBytes c a = .ok (streamCrypt m .dec (encrypt c.cipher) c.iv (modeBlock c) a) := by
  rw [modeDecryptBytes, hs]

theorem modeBytesDrawn_stream (hs : c.sel = .stream m) : modeBytesDrawn c a = 0 := by
  rw [modeBytesDrawn, hs]

theorem modeEncryptBytes_padded (hs : c.sel = .padded n) (hp : c.pad = some p) :
    modeEncryptBytes c draw a = .ok (encryptChain n (encrypt c.cipher) (modeMask c) c.iv (modeBlock c)
      (padAddBytes p draw a (modeBlock c))) := by
  rw [modeEncryptBytes, hs, boundScheme, hp]

theorem modeDecryptBytes_padded (hs : c.sel = .padded n) (hp : c.pad = some p) :
    modeDecryptBytes c a = paddedDecrypt c n p a := by
  rw [modeDecryptBytes, hs, boundScheme, hp]

theorem modeBytesDrawn_padded (hs : c.sel = .padded n) (hp : c.pad = some p) :
    modeBytesDrawn c a = bytesDrawn p a (modeBlock c) := by
  rw [modeBytesDrawn, hs, hp]

theorem encryptChain_length (hiv : c.iv.length = modeBlock c) (ha : modeBlock c ∣ a.length) :
    (encryptChain n (encrypt c.cipher) (modeMask c) c.iv (modeBlock c) a).length = a.length :=
  have hb := modeBlock_ne_zero c
  blockChain_segments_length hb
    (keepsLengths_encStep hb (fun _ => encrypt_length) (deltaMask_length _ _) ha) 0 hiv

theorem paddedDecrypt_of_misaligned (ha : a.length % modeBlock c ≠ 0) :
    paddedDecrypt c n p a = .error .misaligned := if_pos ha

theorem paddedDecrypt_of_pad {q : ByteSeq} {k : Nat} (ha : a.length % modeBlock c = 0)
    (hq : decryptChain n (decrypt c.cipher) (modeMask c) c.iv (modeBlock c) a = q)
    (hk : padRemoveLength p q (modeBlock c) = .ok k) : paddedDecrypt c n p a = .ok (q.take k) := by
  simp only [paddedDecrypt, ha, hq, hk, ne_eq, not_true_eq_false, if_false]

theorem paddedDecrypt_of_badPad {q : ByteSeq} {e : Cause} (ha : a.length % modeBlock c = 0)
    (hq : decryptChain n (decrypt c.cipher) (modeMask c) c.iv (modeBlock c) a = q)
    (he : padRemoveLength p q (modeBlock c) = .error e) : paddedDecrypt c n p a = .error .badPadding := by
  simp only [paddedDecrypt, ha, hq, he, padRemoveLength_error he, ne_eq, not_true_eq_false, if_false]

/-- A padding-required MODE_DECRYPT fails by alignment or by padding (R149). -/
theorem paddedDecrypt_error {e : Cause} (h : paddedDecrypt c n p a = .error e) :
    (e = .misaligned ∧ a.length % modeBlock c ≠ 0) ∨ e = .badPadding := by
  by_cases ha : a.length % modeBlock c = 0
  · cases hr : padRemoveLength p (decryptChain n (decrypt c.cipher) (modeMask c) c.iv (modeBlock c) a) (modeBlock c) with
    | ok k =>
      rw [paddedDecrypt_of_pad ha rfl hr] at h
      cases h
    | error e' =>
      rw [paddedDecrypt_of_badPad ha rfl hr] at h
      exact .inr (Except.error.inj h).symm
  · rw [paddedDecrypt_of_misaligned ha] at h
    exact .inl ⟨(Except.error.inj h).symm, ha⟩

/-- MODE_DECRYPT on a configured mode fails in a padding-required mode alone, by alignment or by padding (R147). -/
theorem ModeContext.Inv.modeDecryptBytes_error {e : Cause} (h : c.Inv) (hv : c.valid = true)
    (he : modeDecryptBytes c a = .error e) :
    ModeSel.needsPadding c.sel = true ∧ ((e = .misaligned ∧ a.length % modeBlock c ≠ 0) ∨ e = .badPadding) := by
  obtain ⟨m, hs⟩ | ⟨m, p, hs, hp⟩ := h.stream_or_padded hv
  · rw [modeDecryptBytes_stream hs] at he
    cases he
  · rw [modeDecryptBytes_padded hs hp] at he
    exact ⟨by rw [hs]; rfl, paddedDecrypt_error he⟩

/-- MODE_ENCRYPT on a configured mode gives bytes, and how many they are (R162 (a)). -/
theorem ModeContext.Inv.modeEncryptBytes_ok (h : c.Inv) (hv : c.valid = true) (draw : Nat → Byte) (a : ByteSeq) :
    ∃ y, modeEncryptBytes c draw a = .ok y
      ∧ ((ModeSel.needsPadding c.sel = false ∧ y.length = a.length)
        ∨ ∃ p, ModeSel.needsPadding c.sel = true ∧ c.pad = some p
          ∧ y.length = (padAddBytes p draw a (modeBlock c)).length) := by
  have hiv := h.iv_length hv
  obtain ⟨m, hs⟩ | ⟨m, p, hs, hp⟩ := h.stream_or_padded hv
  · exact ⟨_, modeEncryptBytes_stream hs, .inl ⟨by rw [hs]; rfl, streamCrypt_length hiv a⟩⟩
  · exact ⟨_, modeEncryptBytes_padded hs hp,
      .inr ⟨p, by rw [hs]; rfl, hp, encryptChain_length hiv (dvd_padAddBytes_length (modeBlock_ne_zero c))⟩⟩

/-- A pad with a length byte has between 1 and `b` bytes (44_padding.md R131). -/
theorem padAddBytes_length_of_ne_zero {b : Nat} (hb : b ≠ 0) (hp : p ≠ .zero) :
    a.length < (padAddBytes p draw a b).length ∧ (padAddBytes p draw a b).length ≤ a.length + b := by
  have hpos := padLength_pos hb a
  have hle : padLength a b ≤ b := Nat.sub_le ..
  rw [padAddBytes_length hb, if_neg hp]
  omega

/-- A ZERO pad has fewer than `b` bytes (R131, R135). -/
theorem padAddBytes_zero_length_lt {b : Nat} (hb : b ≠ 0) : (padAddBytes .zero draw a b).length < a.length + b := by
  have hlt : zeroPadLength a b < b := Nat.mod_lt _ (Nat.pos_of_ne_zero hb)
  rw [padAddBytes_length hb, if_pos rfl]
  omega

theorem padAddBytes_length_le {b : Nat} (hb : b ≠ 0) : (padAddBytes p draw a b).length ≤ a.length + b := by
  by_cases hp : p = .zero
  · subst hp
    exact (padAddBytes_zero_length_lt hb).le
  · obtain ⟨-, hle⟩ := padAddBytes_length_of_ne_zero (draw := draw) (a := a) hb hp
    exact hle

theorem padRemoveLength_le {q : ByteSeq} {b k : Nat} (hb : b ≤ 255) (h : padRemoveLength p q b = .ok k) :
    k ≤ q.length := by
  by_cases hp : p = .zero
  · subst hp
    obtain rfl := Except.ok.inj h
    exact (List.rdropWhile_prefix ..).length_le
  · obtain ⟨body, fill, rfl, -, -, rfl⟩ := (padRemoveLength_eq_ok_iff hp hb).mp h
    rw [List.length_append]
    exact Nat.le_add_right ..

theorem modeBlock_le (c : ModeContext) : modeBlock c ≤ 255 := by
  rw [modeBlock]
  cases c.cipher.sel <;> decide

end Bytes

theorem modeEncrypt_of_ok (hl : s.operand.length ≤ Config.maxLen) (hv : s.mode.valid = true)
    (he : modeEncryptBytes s.mode (entropyDraw s) s.operand = .ok y) (hy : y.length ≤ Config.maxLen) :
    execModeEncrypt s = .next (finish y (lengthWord y.length)
      { s with entropyPos := s.entropyPos + modeBytesDrawn s.mode s.operand }) := by
  rw [execModeEncrypt, withOperand_of_le hl, withMode_of_valid hv, he, withResult, succeedBounded_of_le hy]

theorem modeEncrypt_of_noMode (hl : s.operand.length ≤ Config.maxLen) (hv : s.mode.valid = false) :
    execModeEncrypt s = .next (raise .noMode s) := by
  rw [execModeEncrypt, withOperand_of_le hl, withMode_of_invalid hv]

theorem modeDecrypt_of_ok (hl : s.operand.length ≤ Config.maxLen) (hv : s.mode.valid = true)
    (hd : modeDecryptBytes s.mode s.operand = .ok y) :
    execModeDecrypt s = .next (finish y (lengthWord y.length) s) := by
  rw [execModeDecrypt, withOperand_of_le hl, withMode_of_valid hv, hd, withResult, succeed_eq]

theorem modeDecrypt_of_error {e : Cause} (hl : s.operand.length ≤ Config.maxLen) (hv : s.mode.valid = true)
    (hd : modeDecryptBytes s.mode s.operand = .error e) : execModeDecrypt s = .next (raise e s) := by
  rw [execModeDecrypt, withOperand_of_le hl, withMode_of_valid hv, hd, withResult, fail_eq]

theorem modeDecrypt_of_noMode (hl : s.operand.length ≤ Config.maxLen) (hv : s.mode.valid = false) :
    execModeDecrypt s = .next (raise .noMode s) := by
  rw [execModeDecrypt, withOperand_of_le hl, withMode_of_invalid hv]

theorem raise_status_ne_ok (e : Cause) (s : State) : (raise e s).status ≠ .ok := by
  cases e <;> simp [Cause.status]

/-- What a successful MODE_ENCRYPT has done. -/
theorem modeEncrypt_ok (h : execModeEncrypt s = .next t) (hok : t.status = .ok) :
    s.operand.length ≤ Config.maxLen
    ∧ ∃ y, modeEncryptBytes s.mode (entropyDraw s) s.operand = .ok y ∧ y.length ≤ Config.maxLen
      ∧ t.out = y ∧ t.mode = s.mode := by
  obtain ⟨y, hl, -, he, hy, rfl⟩ | ⟨y, -, -, -, -, rfl⟩ | ⟨c, -, -, -, rfl⟩ | ⟨-, -, rfl⟩ | ⟨-, rfl⟩ :=
    modeEncrypt_cases h
  · exact ⟨hl, y, he, hy, rfl, rfl⟩
  · exact absurd hok (raise_status_ne_ok _ s)
  · exact absurd hok (raise_status_ne_ok _ s)
  · exact absurd hok (raise_status_ne_ok _ s)
  · exact absurd hok (raise_status_ne_ok _ s)

end Answers

/-- Settles O45: on a configured mode MODE_ENCRYPT has bytes to give and only their number can be at fault; MODE_DECRYPT fails
as `paddedDecrypt` does, and a stream mode does not. -/
theorem modeCommandsFailOnlyAsListed : Obligations.ModeCommandsFailOnlyAsListed := by
  unfold Obligations.ModeCommandsFailOnlyAsListed
  intro s t hinv hl
  refine ⟨fun hv i hi => ?_, fun hv h hne => ?_, fun hv h hne => ?_⟩
  · simp only [List.mem_cons, List.not_mem_nil, or_false] at hi
    obtain rfl | rfl := hi
    · exact modeEncrypt_of_noMode hl hv
    · exact modeDecrypt_of_noMode hl hv
  · obtain ⟨y, he, hlen⟩ := hinv.modeEncryptBytes_ok hv (entropyDraw s) s.operand
    have hle : y.length ≤ s.operand.length + modeBlock s.mode := by
      obtain ⟨-, hlen⟩ | ⟨p, -, -, hlen⟩ := hlen
      · omega
      · exact hlen.trans_le (padAddBytes_length_le (modeBlock_ne_zero _))
    by_cases hy : y.length ≤ Config.maxLen
    · obtain rfl := Outcome.next.inj ((modeEncrypt_of_ok hl hv he hy).symm.trans h)
      exact absurd rfl hne
    · have hgt := Nat.lt_of_not_le hy
      obtain rfl := Outcome.next.inj ((modeEncrypt_of_overlong_output hl hv he hgt).symm.trans h)
      exact ⟨rfl, rfl, hgt.trans_le hle⟩
  · cases hd : modeDecryptBytes s.mode s.operand with
    | ok y =>
      obtain rfl := Outcome.next.inj ((modeDecrypt_of_ok hl hv hd).symm.trans h)
      exact absurd rfl hne
    | error e =>
      obtain rfl := Outcome.next.inj ((modeDecrypt_of_error hl hv hd).symm.trans h)
      obtain ⟨hpad, ⟨rfl, ha⟩ | rfl⟩ := hinv.modeDecryptBytes_error hv hd
      · exact ⟨hpad, .inl ⟨rfl, rfl, ha⟩⟩
      · exact ⟨hpad, .inr ⟨rfl, rfl⟩⟩

/-- Settles O47: the ciphertext is as long as the message or as the padded message. -/
theorem ciphertextSizes : Obligations.CiphertextSizes := by
  unfold Obligations.CiphertextSizes
  intro s t hinv hv h hok b
  have hb : b ≠ 0 := blockSize_ne_zero _
  obtain ⟨-, y, he, -, rfl, -⟩ := modeEncrypt_ok h hok
  obtain ⟨y', he', hlen⟩ := hinv.modeEncryptBytes_ok hv (entropyDraw s) s.operand
  obtain rfl := Except.ok.inj (he'.symm.trans he)
  obtain ⟨hs, hlen⟩ | ⟨p, hs, hp, hlen⟩ := hlen
  · exact ⟨fun _ => hlen, fun hpad => absurd (hs.symm.trans hpad) Bool.false_ne_true⟩
  · refine ⟨fun hnot => absurd (hs.symm.trans hnot) (by decide), fun _ => ?_⟩
    rw [hlen, hp]
    refine ⟨dvd_padAddBytes_length hb, length_le_padAddBytes_length _ _ _ hb, fun hne => ?_, fun heq => ?_⟩
    · exact padAddBytes_length_of_ne_zero hb (by simpa using hne)
    · obtain rfl := Option.some.inj heq
      exact padAddBytes_zero_length_lt hb

section Symmetry

/-! ### The steps of two loops that agree (R156, R159, R161) -/

variable {b : Nat} {s : State} {m : StreamMode}

/-- A loop depends on what its step does to the blocks that it meets. -/
theorem blockChain_congr {step step' : Nat → ByteSeq → ByteSeq → ByteSeq × ByteSeq} {xs : List ByteSeq}
    (h : ∀ x ∈ xs, ∀ i v, step i v x = step' i v x) (i : Nat) (v : ByteSeq) :
    blockChain step i v xs = blockChain step' i v xs := by
  induction xs generalizing i v with
  | nil => rfl
  | cons x xs ih =>
    rw [blockChain, blockChain, h x List.mem_cons_self, ih fun y hy => h y (List.mem_cons_of_mem _ hy)]

theorem deltaMask_zero (b i : Nat) : deltaMask (fun _ => 0) b i = rep 0 b := by
  simp [deltaMask, rep]

theorem streamStep_dec_of_ne_cfb (hm : m ≠ .cfb) :
    streamStep m .dec = streamStep m .enc := by
  cases m with
  | cfb => exact absurd rfl hm
  | ofb => rfl
  | ctr => rfl

/-- Only CFB feeds back a segment, so that in the other stream modes the direction does not matter. -/
theorem streamCrypt_dec_of_ne_cfb (hm : m ≠ .cfb) : streamCrypt m .dec = streamCrypt m .enc := by
  funext enc iv b a
  rw [streamCrypt, streamCrypt, streamChain_eq_blockChain, streamChain_eq_blockChain, streamStep_dec_of_ne_cfb hm]

theorem streamChain_length_le (m : StreamMode) (dir : Direction) (enc : ByteSeq → ByteSeq) (iv : ByteSeq) (b i : Nat)
    (v : ByteSeq) (xs : List ByteSeq) : (streamChain m dir enc iv b i v xs).length ≤ xs.flatten.length := by
  induction xs generalizing i v with
  | nil => exact Nat.zero_le _
  | cons x xs ih =>
    rw [streamChain, List.length_append, List.flatten_cons, List.length_append, xorBytes_length]
    exact Nat.add_le_add (min_le_left ..) (ih ..)

/-- Whatever the lengths of the keystream blocks, no output is longer than its message. -/
theorem streamCrypt_length_le (m : StreamMode) (dir : Direction) (enc : ByteSeq → ByteSeq) (iv : ByteSeq) (hb : b ≠ 0)
    (a : ByteSeq) : (streamCrypt m dir enc iv b a).length ≤ a.length :=
  (streamChain_length_le ..).trans_eq (by rw [segments_flatten hb])

/-- The two mode commands in a stream mode (R157). -/
theorem modeEncrypt_stream (hs : s.mode.sel = .stream m) (hl : s.operand.length ≤ Config.maxLen)
    (hv : s.mode.valid = true) :
    let y := streamCrypt m .enc (encrypt s.mode.cipher) s.mode.iv (modeBlock s.mode) s.operand
    execModeEncrypt s = .next (finish y (lengthWord y.length) s) := by
  intro y
  have hy : y.length ≤ Config.maxLen := (streamCrypt_length_le _ _ _ _ (modeBlock_ne_zero _) _).trans hl
  rw [modeEncrypt_of_ok hl hv (modeEncryptBytes_stream hs) hy, modeBytesDrawn_stream hs]
  rfl

theorem modeDecrypt_stream (hs : s.mode.sel = .stream m) (hl : s.operand.length ≤ Config.maxLen)
    (hv : s.mode.valid = true) :
    let y := streamCrypt m .dec (encrypt s.mode.cipher) s.mode.iv (modeBlock s.mode) s.operand
    execModeDecrypt s = .next (finish y (lengthWord y.length) s) :=
  modeDecrypt_of_ok hl hv (modeDecryptBytes_stream hs)

theorem modeEncrypt_eq_modeDecrypt (hs : s.mode.sel = .stream m) (hm : m ≠ .cfb) :
    execModeEncrypt s = execModeDecrypt s := by
  by_cases hl : s.operand.length ≤ Config.maxLen
  · cases hv : s.mode.valid with
    | true => rw [modeEncrypt_stream hs hl hv, modeDecrypt_stream hs hl hv, streamCrypt_dec_of_ne_cfb hm]
    | false => rw [modeEncrypt_of_noMode hl hv, modeDecrypt_of_noMode hl hv]
  · have hgt := Nat.lt_of_not_le hl
    exact (withOperand_of_gt hgt _).trans (withOperand_of_gt hgt _).symm

end Symmetry

/-- Settles O48: neither mode feeds back a segment, and the bound on the operand bounds the output. -/
theorem ofbAndCtrAreSymmetric : Obligations.OfbAndCtrAreSymmetric := by
  unfold Obligations.OfbAndCtrAreSymmetric
  rintro s (hs | hs)
  · exact modeEncrypt_eq_modeDecrypt hs (by decide)
  · exact modeEncrypt_eq_modeDecrypt hs (by decide)

/-- Settles O49: each mask is a block of zeros, which changes neither a segment nor what the transform gives. -/
theorem rdeltaWithAZeroStreamIsEcb : Obligations.RdeltaWithAZeroStreamIsEcb := by
  unfold Obligations.RdeltaWithAZeroStreamIsEcb
  intro f iv x b mask hb hf
  constructor
  · refine blockChain_congr (fun p hp i v => ?_) 0 iv
    rw [encStep, encStep, deltaMask_zero, xorBytes_rep_zero (length_le_of_mem_segments hb hp)]
  · refine blockChain_congr (fun c _ i v => ?_) 0 iv
    rw [decStep, decStep, deltaMask_zero, xorBytes_rep_zero (hf c)]

section Blocks

/-! ### The loops block by block (R148 to R161) -/

variable {b : Nat} {step : Nat → ByteSeq → ByteSeq → ByteSeq × ByteSeq} {s v : ByteSeq} {n : Nat}

/-- What stands in the chaining register before block `n`, when after a block it is made from that block `x` and the output
`y` for it: the initial value at first, then `feed x y`. -/
def chained (feed : ByteSeq → ByteSeq → ByteSeq) (b : Nat) (v s y : ByteSeq) (n : Nat) : ByteSeq :=
  if n = 0 then v else feed (blockAt b s (n - 1)) (blockAt b y (n - 1))

theorem blockAt_blockChain_zero (hb : b ≠ 0) (h : KeepsLengths b step s) (hv : v.length = b) (hn : n * b < s.length) :
    blockAt b (blockChain step 0 v (segments b s)) n
      = (step n (chainRegister step 0 v (segments b s) n) (blockAt b s n)).1 := by
  rw [blockAt_blockChain hb h 0 hv hn, Nat.zero_add]

theorem chainRegister_eq_chained {feed : ByteSeq → ByteSeq → ByteSeq} (hb : b ≠ 0) (h : KeepsLengths b step s)
    (hv : v.length = b) (hn : n * b < s.length) (hfeed : ∀ i v x, (step i v x).2 = feed x (step i v x).1) :
    chainRegister step 0 v (segments b s) n = chained feed b v s (blockChain step 0 v (segments b s)) n := by
  cases n with
  | zero => rfl
  | succ n =>
    have hprev : n * b < s.length := lt_of_le_of_lt (Nat.mul_le_mul_right b n.le_succ) hn
    rw [chainRegister_succ hb, Nat.zero_add, hfeed, ← blockAt_blockChain_zero hb h hv hprev]
    rfl

/-- Block `n` of a loop whose register is made from the block before and its output. -/
theorem blockAt_blockChain_chained {feed : ByteSeq → ByteSeq → ByteSeq} (hb : b ≠ 0) (h : KeepsLengths b step s)
    (hv : v.length = b) (hn : n * b < s.length) (hfeed : ∀ i v x, (step i v x).2 = feed x (step i v x).1) :
    blockAt b (blockChain step 0 v (segments b s)) n
      = (step n (chained feed b v s (blockChain step 0 v (segments b s)) n) (blockAt b s n)).1 := by
  rw [blockAt_blockChain_zero hb h hv hn, chainRegister_eq_chained hb h hv hn hfeed]

/-- The registers of OFB are `E` iterated on the IV (R159). -/
theorem chainRegister_ofb (dir : Direction) (enc : ByteSeq → ByteSeq) (iv : ByteSeq) (b : Nat) (xs : List ByteSeq)
    (n : Nat) : chainRegister (streamStep .ofb dir enc iv b) 0 iv xs n = enc^[n] iv := by
  induction n with
  | zero => rfl
  | succ n ih =>
    rw [chainRegister, ih, Function.iterate_succ_apply']
    rfl

end Blocks

/-- Settles O42: the register before a block is the IV or comes from the block before, and ECB and RDELTA do not read it. -/
theorem paddedEncryptChainsTheBlocks : Obligations.PaddedEncryptChainsTheBlocks := by
  unfold Obligations.PaddedEncryptChainsTheBlocks
  intro s m p hinv hv hs hp b enc iv hl hfit
  have hb : b ≠ 0 := modeBlock_ne_zero s.mode
  have hiv : iv.length = b := hinv.iv_length hv
  have hpad := padAddBytes_length (p := p) (draw := entropyDraw s) (s := s.operand) hb
  have hdvd := dvd_padAddBytes_length (p := p) (draw := entropyDraw s) (s := s.operand) hb
  have hlen := encryptChain_length (n := m) hiv hdvd
  have hmax := (hlen.trans hpad).trans_le hfit
  refine ⟨entropyDraw s, _, _, _, modeEncrypt_of_ok hl hv (modeEncryptBytes_padded hs hp) hmax, lengthWord_of_lt, hlen,
    fun hne => ?_, fun i hi => ?_⟩
  · rw [modeBytesDrawn_padded hs hp, bytesDrawn_of_ne hne]
  · have hk := keepsLengths_encStep (m := m) (enc := enc) hb (fun _ => encrypt_length)
      (deltaMask_length (Config.deltaStream s.mode.seed) b) hdvd
    cases m with
    | ecb => exact blockAt_blockChain_zero hb hk hiv hi
    | cbc => exact blockAt_blockChain_chained (feed := fun _ c => c) hb hk hiv hi fun _ _ _ => rfl
    | pcbc => exact blockAt_blockChain_chained (feed := fun x c => xorBytes x c) hb hk hiv hi fun _ _ _ => rfl
    | rdelta => exact blockAt_blockChain_zero hb hk hiv hi

/-- Settles O43: the register comes from the ciphertext, and in PCBC from the decrypted block too; then the padding decides. -/
theorem paddedDecryptChainsTheBlocks : Obligations.PaddedDecryptChainsTheBlocks := by
  unfold Obligations.PaddedDecryptChainsTheBlocks
  intro s m p hinv hv hs hp hl b dec iv c
  have hb : b ≠ 0 := modeBlock_ne_zero s.mode
  have hiv : iv.length = b := hinv.iv_length hv
  have hbytes := modeDecryptBytes_padded (a := c) hs hp
  refine ⟨fun ha => modeDecrypt_of_error hl hv (hbytes.trans (paddedDecrypt_of_misaligned ha)), fun ha => ?_⟩
  have hdvd := Nat.dvd_of_mod_eq_zero ha
  have hlen := decryptChain_length (m := m) hiv hdvd
  refine ⟨_, hlen, fun i hi => ?_, fun n hn => ?_, fun e he => ?_⟩
  · have hk := keepsLengths_decStep (m := m) (dec := dec) hb (fun _ => decrypt_length)
      (deltaMask_length (Config.deltaStream s.mode.seed) b) hdvd
    cases m with
    | ecb => exact blockAt_blockChain_zero hb hk hiv hi
    | cbc => exact blockAt_blockChain_chained (feed := fun c _ => c) hb hk hiv hi fun _ _ _ => rfl
    | pcbc => exact blockAt_blockChain_chained (feed := fun c q => xorBytes q c) hb hk hiv hi fun _ _ _ => rfl
    | rdelta => exact blockAt_blockChain_zero hb hk hiv hi
  · have hle := padRemoveLength_le (modeBlock_le s.mode) hn
    have hexec := modeDecrypt_of_ok hl hv (hbytes.trans (paddedDecrypt_of_pad ha rfl hn))
    rw [List.length_take_of_le hle] at hexec
    exact ⟨lengthWord n, lengthWord_of_lt, hle, hexec⟩
  · exact modeDecrypt_of_error hl hv (hbytes.trans (paddedDecrypt_of_badPad ha rfl he))

section Streams

/-! ### The keystream (R158 to R161) -/

variable {s : State} {m : StreamMode}

/-- The two mode commands in a stream mode are one transform in its two directions. -/
theorem exec_stream {i : Instr} (hs : s.mode.sel = .stream m) (hl : s.operand.length ≤ Config.maxLen)
    (hv : s.mode.valid = true) (hi : i ∈ [Instr.modeEncrypt, Instr.modeDecrypt]) :
    ∃ dir, (dir = .enc ↔ i = .modeEncrypt)
      ∧ exec i s = .next
        (let y := streamCrypt m dir (encrypt s.mode.cipher) s.mode.iv (modeBlock s.mode) s.operand
         finish y (lengthWord y.length) s) := by
  simp only [List.mem_cons, List.not_mem_nil, or_false] at hi
  obtain rfl | rfl := hi
  · exact ⟨.enc, by simp, modeEncrypt_stream hs hl hv⟩
  · exact ⟨.dec, by simp, modeDecrypt_stream hs hl hv⟩

/-- What a stream mode XORs onto segment `j`, `c` being the ciphertext. -/
def streamKey (m : StreamMode) (enc : ByteSeq → ByteSeq) (iv : ByteSeq) (b : Nat) (c : ByteSeq) (j : Nat) : ByteSeq :=
  match m with
  | .cfb => enc (if j = 0 then iv else blockAt b c (j - 1))
  | .ofb => enc^[j + 1] iv
  | .ctr => enc (ctrBlock iv b j)

variable {enc : ByteSeq → ByteSeq} {iv : ByteSeq} {b : Nat}

theorem blockAt_streamCrypt (dir : Direction) (hb : 8 ≤ b) (hiv : iv.length = b)
    (henc : ∀ x : ByteSeq, x.length = b → (enc x).length = b) {a : ByteSeq} {j : Nat} (hj : j * b < a.length) :
    let y := streamCrypt m dir enc iv b a
    blockAt b y j = xorBytes (blockAt b a j)
      ((streamKey m enc iv b (if dir = .enc then y else a) j).take (blockAt b a j).length) := by
  have hb0 : b ≠ 0 := by omega
  have hk := keepsLengths_streamStep (m := m) (dir := dir) (s := a) hb hiv henc
  intro y
  have hy : y = blockChain (streamStep m dir enc iv b) 0 iv (segments b a) := streamChain_eq_blockChain ..
  rw [hy]
  cases m with
  | cfb =>
    cases dir with
    | enc => exact blockAt_blockChain_chained (feed := fun _ o => o) hb0 hk hiv hj fun _ _ _ => rfl
    | dec => exact blockAt_blockChain_chained (feed := fun seg _ => seg) hb0 hk hiv hj fun _ _ _ => rfl
  | ofb =>
    rw [blockAt_blockChain_zero hb0 hk hiv hj, chainRegister_ofb, streamKey, Function.iterate_succ_apply']
    rfl
  | ctr => exact blockAt_blockChain_zero hb0 hk hiv hj

end Streams

/-- Settles O44: both commands are the one transform, whose segments `blockAt_streamCrypt` gives. -/
theorem streamModesXorTheKeystream : Obligations.StreamModesXorTheKeystream := by
  unfold Obligations.StreamModesXorTheKeystream
  intro s m i hinv hv hs hl hi b enc iv a
  have hiv := hinv.iv_length hv
  obtain ⟨dir, hdir, hexec⟩ := exec_stream hs hl hv hi
  have hlen := streamCrypt_length (m := m) (dir := dir) hiv a
  refine ⟨_, _, hexec, fun h => ?_, hlen, fun j hj => ?_⟩
  · rw [hlen, lengthWord_of_lt h]
  · simp only [← hdir]
    have hblock := blockAt_streamCrypt (m := m) (enc := enc) dir (eight_le_modeBlock s.mode) hiv
      (fun _ => encrypt_length) hj
    cases m with
    | cfb => exact hblock
    | ofb => exact hblock
    | ctr => exact hblock

section RoundTrip

/-! ### Decryption after encryption (R162 (b)) -/

variable {b : Nat} {x v : ByteSeq} {i : Nat}

theorem segments_of_short {s : ByteSeq} (hb : b ≠ 0) (hne : s ≠ []) (h : s.length ≤ b) : segments b s = [s] := by
  rw [segments_cons hb hne, List.take_of_length_le h, List.drop_of_length_le h, segments_nil]

/-- A loop is undone block by block, when undoing a step gives back the block and the register that the step left. -/
theorem blockChain_undo {step undo : Nat → ByteSeq → ByteSeq → ByteSeq × ByteSeq} {s : ByteSeq} (hb : b ≠ 0)
    (hk : KeepsLengths b step s)
    (hundo : ∀ x ∈ segments b s, ∀ i v, v.length = b → undo i v (step i v x).1 = (x, (step i v x).2))
    (i : Nat) (hv : v.length = b) :
    blockChain undo i v (segments b (blockChain step i v (segments b s))) = s := by
  induction s using segments_induction hb generalizing i v with
  | nil => rfl
  | cons s hs ih =>
    have hmem : s.take b ∈ segments b s := by rw [segments_cons hb hs]; exact List.mem_cons_self
    have hrest : ∀ x ∈ segments b (s.drop b), x ∈ segments b s := fun x hx => by
      rw [segments_cons hb hs]; exact List.mem_cons_of_mem _ hx
    obtain ⟨hlen, hreg⟩ := hk _ hmem i v hv
    have hstep := hundo _ hmem i v hv
    by_cases hle : b ≤ s.length
    · have hblock : (s.take b).length = b := List.length_take_of_le hle
      rw [segments_cons hb hs, blockChain, segments_append_block hb (hlen.trans hblock), blockChain, hstep,
        ih (hk.drop hb hs) (fun x hx => hundo x (hrest x hx)) (i + 1) (hreg hblock), List.take_append_drop]
    · have hshort : s.length ≤ b := Nat.le_of_not_le hle
      rw [List.take_of_length_le hshort] at hlen hstep
      have hne : (step i v s).1 ≠ [] := fun h => hs (List.length_eq_zero_iff.mp (by rw [← hlen, h, List.length_nil]))
      rw [segments_of_short hb hs hshort, blockChain, blockChain, List.append_nil,
        segments_of_short hb hne (hlen.trans_le hshort), blockChain, hstep, blockChain, List.append_nil]

/-- `DecStep` undoes `EncStep` and leaves the same register (R150 to R156). -/
theorem decStep_encStep {m : PaddedMode} {enc dec : ByteSeq → ByteSeq} {mask : Nat → ByteSeq}
    (hdec : ∀ x : ByteSeq, x.length = b → dec (enc x) = x) (hmask : ∀ i, (mask i).length = b) (hx : x.length = b)
    (hv : v.length = b) :
    decStep m dec mask i v (encStep m enc mask i v x).1 = (x, (encStep m enc mask i v x).2) := by
  have hxor : ∀ w : ByteSeq, w.length = b → xorBytes (dec (enc (xorBytes x w))) w = x := fun w hw => by
    rw [hdec _ (by simp [hx, hw]), xorBytes_cancel (hx.trans hw.symm).le]
  cases m with
  | ecb => simp only [encStep, decStep, hdec x hx]
  | cbc => simp only [encStep, decStep, hxor v hv]
  | pcbc => simp only [encStep, decStep, hxor v hv]
  | rdelta => simp only [encStep, decStep, hxor _ (hmask i)]

theorem decryptChain_encryptChain {m : PaddedMode} {enc dec : ByteSeq → ByteSeq} {mask : Nat → ByteSeq}
    {iv s : ByteSeq} (hb : b ≠ 0) (henc : ∀ x : ByteSeq, x.length = b → (enc x).length = b)
    (hdec : ∀ x : ByteSeq, x.length = b → dec (enc x) = x) (hmask : ∀ i, (mask i).length = b) (hiv : iv.length = b)
    (hs : b ∣ s.length) : decryptChain m dec mask iv b (encryptChain m enc mask iv b s) = s :=
  blockChain_undo hb (keepsLengths_encStep hb henc hmask hs)
    (fun _ hx _ _ hv => decStep_encStep hdec hmask (length_of_mem_segments hb hs hx) hv) 0 hiv

/-- A round of a stream mode on its own output gives the segment back, and feeds back the same bytes: CFB the ciphertext
segment in both directions (R158). -/
theorem streamStep_dec_enc {m : StreamMode} {enc : ByteSeq → ByteSeq} {iv : ByteSeq} (hb : 8 ≤ b) (hiv : iv.length = b)
    (henc : ∀ x : ByteSeq, x.length = b → (enc x).length = b) (hx : x.length ≤ b) (hv : v.length = b) :
    streamStep m .dec enc iv b i v (streamStep m .enc enc iv b i v x).1
      = (x, (streamStep m .enc enc iv b i v x).2) := by
  have hkey := keyStream_length (m := m) hb hiv henc i hv
  have hle : x.length ≤ ((keyStream m enc iv b i v).take x.length).length := by
    rw [List.length_take, hkey]
    exact le_min le_rfl hx
  have hlen : (xorBytes x ((keyStream m enc iv b i v).take x.length)).length = x.length := by
    rw [xorBytes_length, min_eq_left hle]
  simp only [streamStep, hlen, xorBytes_cancel hle]
  cases m with
  | cfb => rfl
  | ofb => rfl
  | ctr => rfl

theorem streamCrypt_dec_enc {m : StreamMode} {enc : ByteSeq → ByteSeq} {iv : ByteSeq} (hb : 8 ≤ b) (hiv : iv.length = b)
    (henc : ∀ x : ByteSeq, x.length = b → (enc x).length = b) (s : ByteSeq) :
    streamCrypt m .dec enc iv b (streamCrypt m .enc enc iv b s) = s := by
  have hb0 : b ≠ 0 := by omega
  simp only [streamCrypt, streamChain_eq_blockChain]
  exact blockChain_undo hb0 (keepsLengths_streamStep hb hiv henc)
    (fun _ hx _ _ hv => streamStep_dec_enc hb hiv henc (length_le_of_mem_segments hb0 hx) hv) 0 hiv

/-- What removing its own pad leaves of a message: ZERO takes the message's trailing zeros too (44_padding.md R143). -/
def unpadded (p : PadScheme) (a : ByteSeq) : ByteSeq := if p = .zero then stripZeros a else a

theorem unpadded_zero (a : ByteSeq) : unpadded .zero a = stripZeros a := if_pos rfl

theorem unpadded_of_ne {p : PadScheme} (hp : p ≠ .zero) (a : ByteSeq) : unpadded p a = a := if_neg hp

theorem unpadded_isPrefix (p : PadScheme) (draw : Nat → Byte) (a : ByteSeq) (hb : b ≠ 0) :
    unpadded p a <+: padAddBytes p draw a b := by
  by_cases hp : p = .zero
  · subst hp
    exact (List.rdropWhile_prefix ..).trans (List.prefix_append ..)
  · obtain ⟨fill, heq, -, -⟩ := padAddBytes_eq_append_lengthBytePad hp draw a hb
    rw [unpadded_of_ne hp, heq]
    exact List.prefix_append ..

theorem padRemoveLength_padAddBytes (p : PadScheme) (draw : Nat → Byte) (a : ByteSeq) (hb : b ≠ 0) (hb255 : b ≤ 255) :
    padRemoveLength p (padAddBytes p draw a b) b = .ok (unpadded p a).length := by
  by_cases hp : p = .zero
  · subst hp
    exact padRemoveLength_zero_padAddBytes ..
  · obtain ⟨fill, heq, hfill, hallowed⟩ := padAddBytes_eq_append_lengthBytePad hp draw a hb
    rw [unpadded_of_ne hp]
    exact (padRemoveLength_eq_ok_iff hp hb255).mpr ⟨a, fill, heq, hfill, hallowed, rfl⟩

variable {c : ModeContext} {draw : Nat → Byte} {a : ByteSeq} (h : c.Inv) (hv : c.valid = true)
include h hv

theorem paddedDecrypt_encryptChain (m : PaddedMode) (p : PadScheme) :
    paddedDecrypt c m p (encryptChain m (encrypt c.cipher) (modeMask c) c.iv (modeBlock c)
      (padAddBytes p draw a (modeBlock c))) = .ok (unpadded p a) := by
  have hb := modeBlock_ne_zero c
  have hiv := h.iv_length hv
  have hdvd := dvd_padAddBytes_length (p := p) (draw := draw) (s := a) hb
  have haligned := (congrArg (· % modeBlock c) (encryptChain_length (n := m) hiv hdvd)).trans
    (Nat.mod_eq_zero_of_dvd hdvd)
  have hchain := decryptChain_encryptChain (m := m) hb (fun _ => encrypt_length)
    (fun _ => decrypt_encrypt (h.keysDerived hv)) (deltaMask_length (Config.deltaStream c.seed) _) hiv hdvd
  rw [paddedDecrypt_of_pad haligned hchain (padRemoveLength_padAddBytes p draw a hb (modeBlock_le c)),
    ← List.prefix_iff_eq_take.mp (unpadded_isPrefix p draw a hb)]

/-- MODE_DECRYPT takes what MODE_ENCRYPT gives back to the message, in a padding-required mode to what its scheme leaves. -/
theorem modeDecryptBytes_of_encrypted {y : ByteSeq} (he : modeEncryptBytes c draw a = .ok y) :
    ∃ z, modeDecryptBytes c y = .ok z
      ∧ ((ModeSel.needsPadding c.sel = false ∧ z = a)
        ∨ ∃ p, ModeSel.needsPadding c.sel = true ∧ c.pad = some p ∧ z = unpadded p a) := by
  obtain ⟨m, hs⟩ | ⟨m, p, hs, hp⟩ := h.stream_or_padded hv
  · obtain rfl := Except.ok.inj ((modeEncryptBytes_stream hs).symm.trans he)
    exact ⟨_, modeDecryptBytes_stream hs, .inl ⟨by rw [hs]; rfl,
      streamCrypt_dec_enc (eight_le_modeBlock c) (h.iv_length hv) (fun _ => encrypt_length) a⟩⟩
  · obtain rfl := Except.ok.inj ((modeEncryptBytes_padded hs hp).symm.trans he)
    exact ⟨_, (modeDecryptBytes_padded hs hp).trans (paddedDecrypt_encryptChain h hv m p),
      .inr ⟨p, by rw [hs]; rfl, hp, rfl⟩⟩

end RoundTrip

/-- Settles O46: the loops undo each other, and each scheme removes its own pad. -/
theorem messagesSurviveEncryptionAndDecryption : Obligations.MessagesSurviveEncryptionAndDecryption := by
  unfold Obligations.MessagesSurviveEncryptionAndDecryption
  intro s t hinv hv h hok
  obtain ⟨-, y, he, hy, hout, hmode⟩ := modeEncrypt_ok h hok
  obtain ⟨z, hd, hz⟩ := modeDecryptBytes_of_encrypted hinv hv he
  have hexec := modeDecrypt_of_ok (s := { t with operand := t.out }) (hout ▸ hy) (hmode ▸ hv)
    (by rw [hmode, hout]; exact hd)
  refine ⟨_, hexec, rfl, fun hnot => ?_, fun hpad hzero body k ha hlast => ?_⟩
  · obtain ⟨-, rfl⟩ | ⟨p, hpad, hp, rfl⟩ := hz
    · rfl
    · have hne : p ≠ .zero := by
        rintro rfl
        exact hnot ⟨hpad, hp⟩
      exact unpadded_of_ne hne s.operand
  · obtain ⟨hstream, -⟩ | ⟨p, -, hp, rfl⟩ := hz
    · exact absurd (hstream.symm.trans hpad) Bool.false_ne_true
    · obtain rfl := Option.some.inj (hp.symm.trans hzero)
      change unpadded .zero s.operand = body
      rw [unpadded_zero, ha, stripZeros_append_of_getLast? hlast]

end Sys2Proof.Machine

/-! PROOFS. The exceptions: the codes of the statuses, and the one form that the failures of every command have. -/

namespace Sys2Proof.Machine

open Host (Outcome)

/-- Settles O9: whatever the word is, the command that it names completes, and so does a failed one. -/
theorem noCommandStopsTheEngine : Obligations.NoCommandStopsTheEngine := by
  unfold Obligations.NoCommandStopsTheEngine
  exact ⟨exec_completes, step_completes⟩

section StatusCodes

/-! ### The codes of `STATUS` (R163) -/

theorem Status.code_le (c : Status) : c.code.toNat ≤ 5 := by cases c <;> decide

end StatusCodes

/-- Settles O50: the codes are those that `Status.code` gives, and 5 is the largest. -/
theorem statusCodesAreThoseOfTheTable : Obligations.StatusCodesAreThoseOfTheTable := by
  unfold Obligations.StatusCodesAreThoseOfTheTable
  exact ⟨rfl, rfl, rfl, rfl, rfl, rfl, Status.code_le⟩

section TableRows

/-! ### The rows of R164 by family of commands -/

theorem raisable_loadKeyInstr (sel : CipherSel) :
    raisable (loadKeyInstr sel) = [(.invalidSize, 2), (.invalidArgument, 1)] := by
  cases sel <;> rfl

theorem raisable_padAddInstr (p : PadScheme) (bs : Nat) :
    raisable (padAddInstr p bs) = [(.invalidSize, 2), (.invalidArgument, 5)] := by
  cases p <;> rfl

theorem raisable_padRemoveInstr (p : PadScheme) (bs : Nat) :
    raisable (padRemoveInstr p bs)
      = [(.invalidSize, 2), (.invalidArgument, 5)] ++ if p = .zero then [] else [(.invalidPadding, 0)] := by
  cases p <;> rfl

theorem raisable_modeConfigInstr (m : ModeSel) (pad : Option PadScheme) :
    raisable (modeConfigInstr m pad)
      = [(.invalidSize, 2), (.notConfigured, 1)]
        ++ (if ModeSel.needsPadding m then [(.invalidArgument, 4)] else []) ++ [(.invalidArgument, 3)] := by
  obtain m | m := m <;> cases m <;> rfl

theorem raisable_query {i : Instr} (hi : i ∈ [Instr.getBlockSize, .getKeySize]) :
    raisable i = [(.notConfigured, 1)] := by
  simp only [List.mem_cons, List.not_mem_nil, or_false] at hi
  obtain rfl | rfl := hi <;> rfl

theorem raisable_blockCommand {i : Instr} (hi : i ∈ [Instr.encryptBlock, .decryptBlock]) :
    raisable i = [(.invalidSize, 2), (.notConfigured, 1), (.invalidArgument, 2)] := by
  simp only [List.mem_cons, List.not_mem_nil, or_false] at hi
  obtain rfl | rfl := hi <;> rfl

/-- Every command that reads `A` lists the failure of R166 step 2. -/
theorem overMaxLen_mem_raisable {i : Instr} (hr : readsOperand i = true) :
    (Cause.overMaxLen.status, Cause.overMaxLen.info) ∈ raisable i := by
  simp [raisable, hr, Cause.status, Cause.info]

end TableRows

section Failures

/-! ### How a command fails (R164, R167) -/

/-- How the command `i` can go from `s` to `t`: it succeeds, or all it does is to raise one cause. When the mode context meets
its invariant, the row of `i` lists that cause. -/
def EndsAsListed (i : Instr) (s t : State) : Prop :=
  t.status = .ok ∨ ∃ c, t = raise c s ∧ (s.mode.Inv → (c.status, c.info) ∈ raisable i)

variable {i : Instr} {s t : State}

theorem EndsAsListed.finish (i : Instr) (s : State) (y : ByteSeq) (r : Word) (s' : State) :
    EndsAsListed i s (finish y r s') := .inl rfl

theorem EndsAsListed.raise {c : Cause} (hc : s.mode.Inv → (c.status, c.info) ∈ raisable i) :
    EndsAsListed i s (raise c s) := .inr ⟨c, rfl, hc⟩

theorem EndsAsListed.overMaxLen (hr : readsOperand i = true) : EndsAsListed i s (Machine.raise .overMaxLen s) :=
  .raise fun _ => overMaxLen_mem_raisable hr

theorem loadKey_endsAsListed {sel : CipherSel} (h : loadKey sel s = .next t) :
    EndsAsListed (loadKeyInstr sel) s t := by
  obtain ⟨-, -, rfl⟩ | ⟨-, -, rfl⟩ | ⟨-, rfl⟩ := loadKey_cases h
  · exact .finish ..
  · exact .raise fun _ => by simp [raisable_loadKeyInstr, Cause.status, Cause.info]
  · exact .overMaxLen (by cases sel <;> rfl)

theorem query_endsAsListed {q : CipherContext → Word} (hi : i ∈ [Instr.getBlockSize, .getKeySize])
    (h : (withCipher s fun c => succeed [] (q c) s) = .next t) : EndsAsListed i s t := by
  obtain ⟨-, h⟩ | ⟨-, rfl⟩ := withCipher_cases h
  · obtain rfl := Outcome.next.inj h
    exact .finish ..
  · exact .raise fun _ => by simp [raisable_query hi, Cause.status, Cause.info]

theorem blockCommand_endsAsListed (hi : i ∈ [Instr.encryptBlock, .decryptBlock]) (h : exec i s = .next t) :
    EndsAsListed i s t := by
  obtain ⟨f, hf⟩ := exec_eq_blockCommand hi s
  obtain ⟨-, -, -, rfl⟩ | ⟨-, -, -, rfl⟩ | ⟨-, -, rfl⟩ | ⟨-, rfl⟩ := blockCommand_cases (hf ▸ h)
  · exact .finish ..
  · exact .raise fun _ => by simp [raisable_blockCommand hi, Cause.status, Cause.info]
  · exact .raise fun _ => by simp [raisable_blockCommand hi, Cause.status, Cause.info]
  · exact .raise fun _ => by simp [raisable_blockCommand hi, Cause.status, Cause.info]

theorem padAdd_endsAsListed {p : PadScheme} {bs : Nat} (h : padAdd p bs s = .next t) :
    EndsAsListed (padAddInstr p bs) s t := by
  have hr : readsOperand (padAddInstr p bs) = true := by cases p <;> rfl
  obtain ⟨-, -, -, rfl⟩ | ⟨-, -, -, rfl⟩ | ⟨-, -, rfl⟩ | ⟨-, rfl⟩ := padAdd_cases h
  · exact .finish ..
  · exact .overMaxLen hr
  · exact .raise fun _ => by simp [raisable_padAddInstr, Cause.status, Cause.info]
  · exact .overMaxLen hr

/-- Removal of ZERO never fails (44_padding.md R140), and the row of PAD_REMOVE.ZERO lists no `INVALID_PADDING`. -/
theorem padRemove_endsAsListed {p : PadScheme} {bs : Nat} (h : padRemove p bs s = .next t) :
    EndsAsListed (padRemoveInstr p bs) s t := by
  obtain ⟨n, -, -, -, rfl⟩ | ⟨c, -, -, he, rfl⟩ | ⟨-, -, rfl⟩ | ⟨-, rfl⟩ := padRemove_cases h
  · exact .finish ..
  · have hp : p ≠ .zero := by rintro rfl; cases he
    obtain rfl := padRemoveLength_error he
    exact .raise fun _ => by simp [raisable_padRemoveInstr, hp, Cause.status, Cause.info]
  · exact .raise fun _ => by simp [raisable_padRemoveInstr, Cause.status, Cause.info]
  · exact .overMaxLen (by cases p <;> rfl)

theorem modeConfig_endsAsListed {m : ModeSel} {pad : Option PadScheme} (h : modeConfig m pad s = .next t) :
    EndsAsListed (modeConfigInstr m pad) s t := by
  obtain ⟨iv, seed, -, -, -, -, rfl⟩ | ⟨-, -, -, -, rfl⟩ | ⟨-, -, hp, rfl⟩ | ⟨-, -, rfl⟩ | ⟨-, rfl⟩ :=
    modeConfig_cases h
  · exact .finish ..
  · exact .raise fun _ => by simp [raisable_modeConfigInstr, Cause.status, Cause.info]
  · obtain ⟨hm, -⟩ := Bool.and_eq_true_iff.mp hp
    exact .raise fun _ => by simp [raisable_modeConfigInstr, hm, Cause.status, Cause.info]
  · exact .raise fun _ => by simp [raisable_modeConfigInstr, Cause.status, Cause.info]
  · exact .overMaxLen (by obtain m | m := m <;> cases m <;> rfl)

/-- A configured mode that meets the invariant always has bytes to give. -/
theorem modeEncrypt_endsAsListed (h : execModeEncrypt s = .next t) : EndsAsListed .modeEncrypt s t := by
  obtain ⟨y, -, -, -, -, rfl⟩ | ⟨y, -, -, -, -, rfl⟩ | ⟨c, -, hv, he, rfl⟩ | ⟨-, -, rfl⟩ | ⟨-, rfl⟩ :=
    modeEncrypt_cases h
  · exact .finish ..
  · exact .overMaxLen rfl
  · refine .raise fun hinv => ?_
    obtain ⟨y, hy, -⟩ := hinv.modeEncryptBytes_ok hv (entropyDraw s) s.operand
    cases hy.symm.trans he
  · exact .raise fun _ => by decide
  · exact .overMaxLen rfl

theorem modeDecrypt_endsAsListed (h : execModeDecrypt s = .next t) : EndsAsListed .modeDecrypt s t := by
  obtain ⟨y, -, -, -, rfl⟩ | ⟨c, -, hv, he, rfl⟩ | ⟨-, -, rfl⟩ | ⟨-, rfl⟩ := modeDecrypt_cases h
  · exact .finish ..
  · refine .raise fun hinv => ?_
    obtain ⟨-, ⟨rfl, -⟩ | rfl⟩ := hinv.modeDecryptBytes_error hv he
    · decide
    · decide
  · exact .raise fun _ => by decide
  · exact .overMaxLen rfl

theorem exec_endsAsListed (h : exec i s = .next t) : EndsAsListed i s t := by
  induction i using instr_familyInduction with
  | softReset =>
    obtain rfl := Outcome.next.inj h
    exact .finish ..
  | getConfig =>
    obtain rfl := Outcome.next.inj h
    exact .finish ..
  | loadKey sel => exact loadKey_endsAsListed (exec_loadKeyInstr sel s ▸ h)
  | getBlockSize => exact query_endsAsListed (by decide) (exec_getBlockSize s ▸ h)
  | getKeySize => exact query_endsAsListed (by decide) (exec_getKeySize s ▸ h)
  | encryptBlock => exact blockCommand_endsAsListed (by decide) h
  | decryptBlock => exact blockCommand_endsAsListed (by decide) h
  | padAdd p bs => exact padAdd_endsAsListed (exec_padAddInstr p bs s ▸ h)
  | padRemove p bs => exact padRemove_endsAsListed (exec_padRemoveInstr p bs s ▸ h)
  | modeConfig m pad => exact modeConfig_endsAsListed (exec_modeConfigInstr m pad s ▸ h)
  | modeEncrypt => exact modeEncrypt_endsAsListed h
  | modeDecrypt => exact modeDecrypt_endsAsListed h

end Failures

/-- Settles O51: a failed command has raised a cause, which writes these three registers. -/
theorem failedCommandsWriteOnlyTheResultRegisters : Obligations.FailedCommandsWriteOnlyTheResultRegisters := by
  unfold Obligations.FailedCommandsWriteOnlyTheResultRegisters
  intro i s t h hne
  obtain hok | ⟨c, rfl, -⟩ := exec_endsAsListed h
  · exact absurd hok hne
  · rfl

/-- Settles O52: the cause that a failed command has raised is one of its row. -/
theorem commandsRaiseOnlyTheirStatuses : Obligations.CommandsRaiseOnlyTheirStatuses := by
  unfold Obligations.CommandsRaiseOnlyTheirStatuses
  intro i s t hinv h hne
  obtain hok | ⟨c, rfl, hc⟩ := exec_endsAsListed h
  · exact absurd hok hne
  · exact hc hinv

end Sys2Proof.Machine

/-! PROOFS. Reset and hazards: the waiting engine, the state after reset, SOFT_RESET, and what a LOAD_KEY leaves of the
configured mode. -/

namespace Sys2Proof.Machine

theorem step_of_no_pending {s : State} (h : s.pending = []) : step s = .next s := by
  simp [step, h]

/-- Settles O8: with nothing issued the step has no command to run. -/
theorem waitingEngineKeepsEveryRegister : Obligations.WaitingEngineKeepsEveryRegister := by
  unfold Obligations.WaitingEngineKeepsEveryRegister
  exact fun _ => step_of_no_pending

/-- Settles O11: both contexts meet their invariants at reset, the tables being the identity, and `OUT` is empty. -/
theorem resetMeetsTheInvariant : Obligations.ResetMeetsTheInvariant := by
  unfold Obligations.ResetMeetsTheInvariant
  exact State.inv_reset

section Reset

/-! ### SOFT_RESET (40_interface.md R76; 70_reset_and_hazards.md R173) -/

/-- The result that SOFT_RESET returns is what reset leaves in the result registers. -/
theorem exec_softReset (s : State) : exec .softReset s = .next (resetRegisters s) := rfl

@[simp] theorem resetRegisters_reset : resetRegisters State.reset = State.reset := rfl

@[simp] theorem resetRegisters_idem (s : State) : resetRegisters (resetRegisters s) = resetRegisters s := rfl

/-- Every value of R173 is read from a register that SOFT_RESET sets. -/
theorem atReset_resetRegisters (s : State) : AtReset (resetRegisters s) where
  status := rfl
  result := rfl
  out := rfl
  cValid := rfl
  cSel := rfl
  cKey := rfl
  mValid := rfl
  mSel := rfl
  mPad := rfl
  mIv := rfl
  mSeed := rfl

theorem atReset_reset : AtReset State.reset := atReset_resetRegisters State.reset

end Reset

/-- Settles O13: SOFT_RESET is `resetRegisters`, which is idempotent and keeps the reset state. -/
theorem resetAndSoftResetClearTheRegisters : Obligations.ResetAndSoftResetClearTheRegisters := by
  unfold Obligations.ResetAndSoftResetClearTheRegisters
  refine ⟨by decide, atReset_reset, ?_, fun s => ⟨resetRegisters s, exec_softReset s, atReset_resetRegisters s, ?_⟩⟩
  · rw [exec_softReset, resetRegisters_reset]
  · rw [exec_softReset, resetRegisters_idem]

section ConfiguredMode

/-! ### The configured mode after a LOAD_KEY (70_reset_and_hazards.md R176) -/

variable {s t : State}

/-- A MODE_CONFIG that succeeds binds a copy of the cipher context. -/
theorem modeConfig_binds_cipher {m : ModeSel} {pad : Option PadScheme} (h : modeConfig m pad s = .next t)
    (hok : t.status = .ok) : t.mode.cipher = s.cipher := by
  obtain ⟨-, hmode⟩ := modeConfig_contexts h
  rw [hmode, if_pos hok, configuredMode]

/-- LOAD_KEY leaves all that the mode commands read besides the operand: the mode context and the entropy source. -/
theorem loadKey_keeps_mode_and_entropy {sel : CipherSel} (h : exec (loadKeyInstr sel) s = .next t) :
    t.mode = s.mode ∧ t.entropyPos = s.entropyPos := by
  obtain ⟨ht, -⟩ := loadKeyKeepsEverythingElse sel s t h
  rw [ht]
  exact ⟨rfl, rfl⟩

variable {s' : State} (hm : s.mode = s'.mode) (ha : s.operand = s'.operand)

include hm ha in
/-- From the same position in the entropy source MODE_ENCRYPT draws the same bytes, whatever the padding scheme. -/
theorem modeEncrypt_answersAlike_of_entropyPos (he : s.entropyPos = s'.entropyPos) :
    AnswerAlike (execModeEncrypt s) (execModeEncrypt s') := by
  have hdraw : entropyDraw s = entropyDraw s' := funext fun i => by rw [entropyDraw, entropyDraw, he]
  refine .withOperand (.withMode ?_ (by rw [hm])) ha
  rw [hm, hdraw]
  exact .withResult _ fun _ => .succeedBounded ..

include hm ha in
/-- The mode commands answer from the mode context, the operand and the entropy alone: `C_*` is not among them. -/
theorem modeCommand_answersAlike {i : Instr} (hi : i ∈ [Instr.modeEncrypt, Instr.modeDecrypt])
    (he : s.entropyPos = s'.entropyPos) : AnswerAlike (exec i s) (exec i s') := by
  simp only [List.mem_cons, List.not_mem_nil, or_false] at hi
  obtain rfl | rfl := hi
  · exact modeEncrypt_answersAlike_of_entropyPos hm ha he
  · exact modeDecrypt_answersAlike hm ha

end ConfiguredMode

/-- Settles O57: the mode context holds a copy of the cipher context, and the state before the LOAD_KEY and the state after
it agree in all that the mode commands answer from. -/
theorem loadKeyDoesNotReachTheConfiguredMode : Obligations.LoadKeyDoesNotReachTheConfiguredMode := by
  unfold Obligations.LoadKeyDoesNotReachTheConfiguredMode
  constructor
  · intro m pad s t h hok
    rw [exec_modeConfigInstr] at h
    exact modeConfig_binds_cipher h hok
  · intro sel s t h i hi a u v hu hv
    obtain ⟨hm, he⟩ := loadKey_keeps_mode_and_entropy h
    have halike := modeCommand_answersAlike (s := { t with operand := a }) (s' := { s with operand := a }) hm rfl hi he
    rw [hu, hv] at halike
    exact halike.of_next

end Sys2Proof.Machine

/-! PROOFS. Written-out values of 95_test_vectors.md: words of the opcode map, the traced DES encryption, FEISTEL6 under the
zero key, and a diffusion. -/

namespace Sys2Proof

section IllegalWords

/-! ### Why a word is illegal (30_encoding.md R64) -/

variable {w : Word}

/-- A row that matches is never reported as missing: reading it can only find its `AUX` reserved. -/
theorem Row.read_ne_noRow (r : Row) : r.read w ≠ .error .noRow := by
  rw [Row.read]
  split
  · nofun
  · nofun
  · split <;> nofun

theorem decode_eq_noRow_iff : decode w = .error .noRow ↔ ∀ r ∈ opcodeMap, w &&& r.mask ≠ r.value := by
  obtain ⟨r, hr, h, hd⟩ | ⟨hnone, hd⟩ := decode_cases w
  · rw [hd]
    exact iff_of_false r.read_ne_noRow fun hnone => hnone r hr h
  · exact iff_of_true hd hnone

theorem decode_eq_reservedAux_iff : decode w = .error .reservedAux ↔
    ∃ r ∈ opcodeMap, w &&& r.mask = r.value ∧ r.read w = .error .reservedAux := by
  constructor
  · intro hres
    obtain ⟨r, hr, h, hd⟩ | ⟨-, hd⟩ := decode_cases w
    · exact ⟨r, hr, h, hd ▸ hres⟩
    · rw [hd] at hres
      cases hres
  · rintro ⟨r, hr, h, hread⟩
    rw [decode_of_match hr h, hread]

end IllegalWords

/-- Settles O5: a legal word is the one that its command encodes, and an illegal word matches no row or a row that cannot
read its `AUX`. -/
theorem wordsOfTheMapDecode : Obligations.WordsOfTheMapDecode := by
  unfold Obligations.WordsOfTheMapDecode
  simp only [decode_eq_ok_iff_encode, decode_eq_noRow_iff, decode_eq_reservedAux_iff]
  decide

end Sys2Proof

namespace Sys2Proof.Machine

section DesTrace

/-! ### The traced DES encryption (V-DES-2 to V-DES-4) -/

/-- The key of the trace. -/
def tracedKey : ByteSeq := [0x13, 0x34, 0x57, 0x79, 0x9B, 0xBC, 0xDF, 0xF1]

/-- The subkeys `K[1..16]` of V-DES-3. -/
def tracedSchedule : DesSchedule :=
  #v[ 0x1B02EFFC7072, 0x79AED9DBC9E5, 0x55FC8A42CF99, 0x72ADD6DB351D, 0x7CEC07EB53A8, 0x63A53E507B2F,
      0xEC84B7F618BC, 0xF78A3AC13BFB, 0xE0DBEBEDE781, 0xB1F347BA464F, 0x215FD3DED386, 0x7571F59467E9,
      0x97C5D1FABA41, 0x5F43B7F2E73A, 0xBF918D3D3F0A, 0xCB3D8B0E17F5 ]

theorem be64_tracedKey : be64 tracedKey = 0x133457799BBCDFF1 := by decide

/-- V-DES-3. -/
theorem subkey_tracedKey : ∀ i : Fin 16, subkey 0x133457799BBCDFF1 (i.val + 1) = tracedSchedule.get i := by
  decide +kernel

theorem desKeySchedule_tracedKey : desKeySchedule tracedKey = tracedSchedule := by
  refine Vector.ext fun i hi => ?_
  have hget := get_desKeySchedule tracedKey ⟨i, hi⟩
  rwa [be64_tracedKey, subkey_tracedKey] at hget

/-- V-DES-4, the block after IP. -/
theorem permute_IP_tracedBlock : permute 64 tableIP (0x0123456789ABCDEF : BitVec 64) = 0xCC00CCFFF0AAF0AA := by
  decide +kernel

/-- V-DES-4, `f(R0, K1)`. -/
theorem desF_traced : desF 0xF0AAF0AA 0x1B02EFFC7072 = 0x234AA9BB := by decide +kernel

/-- V-DES-4, `(L16, R16)` from `(L0, R0)`. -/
theorem foldl_desRound_traced : ((List.finRange 16).map tracedSchedule.get).foldl desRound (0xCC00CCFF, 0xF0AAF0AA)
    = (0x43423234, 0x0A4CD995) := by decide +kernel

/-- V-DES-4, FP of the pre-output `{R16, L16}`. -/
theorem permute_FP_traced : permute 64 tableFP (0x0A4CD99543423234 : BitVec 64) = 0x85E813540F0AB405 := by
  decide +kernel

theorem desDatapath_traced :
    desDatapath ((List.finRange 16).map tracedSchedule.get) 0x0123456789ABCDEF = 0x85E813540F0AB405 := by
  have hsplit : wordHalves 0xCC00CCFFF0AAF0AA = (0xCC00CCFF, 0xF0AAF0AA) := by decide
  have hjoin : joinWords (Prod.swap (0x43423234, 0x0A4CD995)) = 0x0A4CD99543423234 := by decide
  rw [desDatapath_eq, permute_IP_tracedBlock, hsplit, foldl_desRound_traced, hjoin, permute_FP_traced]

/-- V-DES-2. -/
theorem desEncrypt_traced : desEncrypt (desKeySchedule tracedKey) [0x01, 0x23, 0x45, 0x67, 0x89, 0xAB, 0xCD, 0xEF]
    = [0x85, 0xE8, 0x13, 0x54, 0x0F, 0x0A, 0xB4, 0x05] := by
  have hin : be64 [0x01, 0x23, 0x45, 0x67, 0x89, 0xAB, 0xCD, 0xEF] = 0x0123456789ABCDEF := by decide
  have hout : bytesBe64 0x85E813540F0AB405 = [0x85, 0xE8, 0x13, 0x54, 0x0F, 0x0A, 0xB4, 0x05] := by decide
  rw [desKeySchedule_tracedKey, desEncrypt, desCore, hin, desDatapath_traced, hout]

end DesTrace

section ZeroKey

/-! ### FEISTEL6 under the zero key (V-F6-3) -/

theorem desEncrypt_zeroKey_involutive {x : ByteSeq} (hx : x.length = 8) :
    desEncrypt (desKeySchedule (rep 0 8)) (desEncrypt (desKeySchedule (rep 0 8)) x) = x := by
  obtain ⟨hinv, hzero⟩ := desEqualSubkeysMakeAnInvolution
  exact (hinv _ 0 x hzero hx).2

/-- Every schedule of the zero key is that of the zero half (42_composite.md R115). -/
theorem get_f6KeySchedule_zeroKey (r : Fin 6) : (f6KeySchedule (rep 0 16)).get r = desKeySchedule (rep 0 8) := by
  rw [f6KeySchedule, Vector.get_ofFn]
  split <;> rfl

variable {ks : DesSchedule}

theorem rep_zero_xorBytes {s : ByteSeq} {n : Nat} (h : s.length ≤ n) : xorBytes (rep 0 n) s = s := by
  rw [xorBytes, List.zipWith_comm_of_comm fun _ _ => BitVec.xor_comm .., ← xorBytes, xorBytes_rep_zero h]

theorem xorBytes_self_of_length {s : ByteSeq} {n : Nat} (h : s.length = n) : xorBytes s s = rep 0 n := by
  have hcancel : xorBytes (xorBytes (rep 0 n) s) s = rep 0 n := xorBytes_cancel (by simp [h])
  rwa [rep_zero_xorBytes h.le] at hcancel

/-- Where two encryptions take the zero block back to itself, three rounds take the zero halves back: with `e` the zero block
encrypted, they pass through `(0, e)` and `(e, 0)`. -/
theorem foldl_f6Round_zero_of_involutive (h : desEncrypt ks (desEncrypt ks (rep 0 8)) = rep 0 8) :
    [ks, ks, ks].foldl f6Round (rep 0 8, rep 0 8) = (rep 0 8, rep 0 8) := by
  have hlen : (desEncrypt ks (rep 0 8)).length = 8 := desEncrypt_length ..
  have hfirst : f6Round (rep 0 8, rep 0 8) ks = (rep 0 8, desEncrypt ks (rep 0 8)) := by
    rw [f6Round, rep_zero_xorBytes hlen.le]
  have hsecond : f6Round (rep 0 8, desEncrypt ks (rep 0 8)) ks = (desEncrypt ks (rep 0 8), rep 0 8) := by
    rw [f6Round, h, rep_zero_xorBytes (by simp)]
  have hthird : f6Round (desEncrypt ks (rep 0 8), rep 0 8) ks = (rep 0 8, rep 0 8) := by
    rw [f6Round, xorBytes_self_of_length hlen]
  simp only [List.foldl_cons, List.foldl_nil, hfirst, hsecond, hthird]

/-- V-F6-3: the six rounds are twice the three that take the zero halves back. -/
theorem f6Encrypt_zeroKey : f6Encrypt (f6KeySchedule (rep 0 16)) (rep 0 16) = rep 0 16 := by
  have hthree := foldl_f6Round_zero_of_involutive (desEncrypt_zeroKey_involutive (rep_length 0 8))
  have hkeys : (List.finRange 6).map (f6KeySchedule (rep 0 16)).get
      = List.replicate 3 (desKeySchedule (rep 0 8)) ++ List.replicate 3 (desKeySchedule (rep 0 8)) := by
    rw [funext get_f6KeySchedule_zeroKey, List.map_const', List.length_finRange]
    rfl
  have hsplit : blockHalves (rep 0 16) = (rep 0 8, rep 0 8) := rfl
  rw [f6Encrypt, hkeys, f6Datapath_eq, hsplit, List.foldl_append]
  simp only [List.replicate, hthree]
  rfl

end ZeroKey

/-- Settles O26: the values of DES are those of the trace, the zero block returns to itself under FEISTEL6 because the zero
key makes DES an involution, and the diffusion is evaluated. -/
theorem workedVectors : Obligations.WorkedVectors := by
  unfold Obligations.WorkedVectors
  exact ⟨desEncrypt_traced, subkey_tracedKey 0, subkey_tracedKey 15, desF_traced, f6Encrypt_zeroKey, by decide⟩

end Sys2Proof.Machine
